-- ==== Sys2Proof/Word.lean ====
section
/-! DEFINITION. The word types of HUFFCORE: what a register, a symbol, a handle, a code and a memory
word is (00_scope.md R9, R10, R11; 20_memory.md R61, R62, R63).

Every type is as wide as the widest legal build (00_scope.md R8): a narrower build uses the low bits
and keeps the others 0 (log entry 8). -/

namespace Sys2Proof

/-- A register image, 32 bits (10_state.md R22), and one word of HIST (20_memory.md R63). -/
abbrev Word := BitVec 32

/-- A symbol: an unsigned SYM_W-bit integer, SYM_W at most 32 (00_scope.md R9). -/
abbrev Sym := BitVec 32

/-- A node handle: an index into the tree ROM, NODE_W at most 32 bits (20_memory.md R62). -/
abbrev Handle := BitVec 32

/-- A code value of MAX_LEN bits, MAX_LEN at most 63 (00_scope.md R8, R11). -/
abbrev CodeVal := BitVec 63

/-- A code length of LEN_W bits, LEN_W at most 6 (00_scope.md R8). -/
abbrev CodeLen := BitVec 6

/-- A register index (10_state.md R22). -/
abbrev RegIndex := BitVec 6

/-- One word of the LUT: `len = 0` means that the symbol has no code (20_memory.md R61). -/
structure LutWord where
  len : CodeLen
  code : CodeVal
  deriving DecidableEq, Repr, Inhabited

/-- One word of the tree ROM (20_memory.md R62). -/
structure RomWord where
  leaf : Bool
  sym : Sym
  left : Handle
  right : Handle
  deriving DecidableEq, Repr, Inhabited

/-- The LUT word of a symbol without a code, as LUT_CLEAR writes it (40_commands.md R113). -/
def LutWord.absent : LutWord := { len := 0, code := 0 }

end Sys2Proof
end

