-- ==== Sys2Proof/Config.lean ====
section
/-! DEFINITION. What one build of HUFFCORE fixes (00_scope.md R8) and the values the spec leaves
open (93_implementation_defined.md U1). -/

namespace Sys2Proof

/-- The build parameters of 00_scope.md R8. -/
structure Params where
  /-- SYM_W, the width of a symbol. -/
  symW : Nat
  /-- NODE_W, the width of a node handle. -/
  nodeW : Nat
  /-- LEN_W, the width of a code length. -/
  lenW : Nat
  /-- CNT_W, the width of a histogram counter. -/
  cntW : Nat
  /-- HAS_FC, whether the frequency counter is present. -/
  hasFc : Bool
  deriving DecidableEq, Repr

namespace Params

/-- MAX_LEN, always 2^LEN_W - 1 (00_scope.md R8). -/
def maxLen (p : Params) : Nat := 2 ^ p.lenW - 1

/-- LUT depth, 2^SYM_W entries (00_scope.md R8). -/
def lutDepth (p : Params) : Nat := 2 ^ p.symW

/-- ROM depth, 2^NODE_W words (00_scope.md R8). -/
def romDepth (p : Params) : Nat := 2 ^ p.nodeW

/-- HIST depth, 2^SYM_W counters, or 0 without a counter (00_scope.md R8). -/
def histDepth (p : Params) : Nat := if p.hasFc then 2 ^ p.symW else 0

/-- The default build (00_scope.md R8). -/
def default : Params := { symW := 21, nodeW := 22, lenW := 6, cntW := 32, hasFc := true }

/-- The small test build T8 (00_scope.md R8). -/
def t8 : Params := { symW := 8, nodeW := 9, lenW := 4, cntW := 8, hasFc := true }

end Params

/-- What LUT holds after `rst` number `n` at address `a`: any value (93_implementation_defined.md U1).
A free value: it has no body, so no proof can see what it is (log entry 4). -/
opaque Config.lutAfterRst : Nat → Nat → LutWord

/-- What the tree ROM holds after `rst` number `n` at address `a`: any value (U1, log entry 4). -/
opaque Config.romAfterRst : Nat → Nat → RomWord

/-- What HIST holds after `rst` number `n` at address `a`: any value (U1, log entry 4). -/
opaque Config.histAfterRst : Nat → Nat → Word

end Sys2Proof
end

