-- ==== Sys2Proof/Syntax.lean ====
section
/-! DEFINITION. The 13 commands of HUFFCORE, one constructor for each row of the opcode map
(30_encoding.md R92). No command carries an operand (R93). -/

namespace Sys2Proof

/-- A command, in the order of its opcode (30_encoding.md R92). -/
inductive Instr where
  /-- 0x00 NOP (40_commands.md R110). -/
  | nop
  /-- 0x01 SOFT_RESET (40_commands.md R111). -/
  | softReset
  /-- 0x02 CLR_ERR (40_commands.md R112). -/
  | clrErr
  /-- 0x03 LUT_CLEAR (40_commands.md R113). -/
  | lutClear
  /-- 0x04 LUT_WRITE (40_commands.md R114). -/
  | lutWrite
  /-- 0x05 LUT_READ (40_commands.md R115). -/
  | lutRead
  /-- 0x06 ROM_WRITE (40_commands.md R116). -/
  | romWrite
  /-- 0x07 ROM_READ (40_commands.md R117). -/
  | romRead
  /-- 0x08 HIST_CLEAR (40_commands.md R119). -/
  | histClear
  /-- 0x09 HIST_READ (40_commands.md R120). -/
  | histRead
  /-- 0x0A FC_START (41_frequency_counter.md R141). -/
  | fcStart
  /-- 0x0B ENC_START (43_encoder.md R171). -/
  | encStart
  /-- 0x0C DEC_START (44_decoder.md R186). -/
  | decStart
  deriving DecidableEq, Repr

end Sys2Proof
end

