-- ==== Sys2Proof/WellFormed.lean ====
section
/-! DEFINITION. What is checked of a term before it is given to the machine. -/

namespace Sys2Proof

/-- Every command is well formed: a command word has no operand, immediate or mode field that a
check could refuse (30_encoding.md R91, R93). The words that are no command are refused by the
decoder. -/
def Instr.wf (_ : Instr) : Bool := true

/-- The legal ranges of the build parameters (00_scope.md R8): the one check HUFFCORE's terms have. -/
def Params.legal (p : Params) : Bool :=
  decide (1 ≤ p.symW ∧ p.symW ≤ 32) && decide (1 ≤ p.nodeW ∧ p.nodeW ≤ 32) &&
    decide (1 ≤ p.lenW ∧ p.lenW ≤ 6) && decide (1 ≤ p.cntW ∧ p.cntW ≤ 32)

end Sys2Proof
end

