-- ==== Sys2Proof/Decode.lean ====
section
/-! DEFINITION. From a command word to a command and back (30_encoding.md R91, R92, R94). -/

namespace Sys2Proof

/-- Why a command word is reserved (30_encoding.md R94). -/
inductive DecodeError where
  /-- The zero field Z, bits 31:8, is not 0. -/
  | zeroFieldSet
  /-- Z is 0 and the opcode is none of the 13: 0x0D to 0xFF. -/
  | reservedOpcode
  deriving DecidableEq, Repr

/-- The zero field Z of a command word (30_encoding.md R91). -/
def cmdZ (w : Word) : BitVec 24 := w.extractLsb' 8 24

/-- The opcode field OP of a command word (30_encoding.md R91). -/
def cmdOp (w : Word) : BitVec 8 := w.extractLsb' 0 8

/-- The opcode map (30_encoding.md R92). -/
def opcodeMap : List (BitVec 8 × Instr) :=
  [(0x00#8, .nop), (0x01#8, .softReset), (0x02#8, .clrErr), (0x03#8, .lutClear),
   (0x04#8, .lutWrite), (0x05#8, .lutRead), (0x06#8, .romWrite), (0x07#8, .romRead),
   (0x08#8, .histClear), (0x09#8, .histRead), (0x0A#8, .fcStart), (0x0B#8, .encStart),
   (0x0C#8, .decStart)]

/-- Command decode (30_encoding.md R91): total on every word, a reserved word is refused by name. -/
def decode (w : Word) : Except DecodeError Instr :=
  if cmdZ w ≠ 0 then .error .zeroFieldSet
  else match opcodeMap.lookup (cmdOp w) with
    | some i => .ok i
    | none => .error .reservedOpcode

/-- The opcode of a command (30_encoding.md R92). -/
def opcode : Instr → BitVec 8
  | .nop => 0x00
  | .softReset => 0x01
  | .clrErr => 0x02
  | .lutClear => 0x03
  | .lutWrite => 0x04
  | .lutRead => 0x05
  | .romWrite => 0x06
  | .romRead => 0x07
  | .histClear => 0x08
  | .histRead => 0x09
  | .fcStart => 0x0A
  | .encStart => 0x0B
  | .decStart => 0x0C

/-- The command word of a command: format CMD32, Z = 0 (30_encoding.md R91). -/
def encode (i : Instr) : Word := 0#24 ++ opcode i

/-- The data word of a host write that carries the table word `w` of `nbits` bits: bits from `nbits`
on are 0. HUFFCORE has no bytes, so there is no byte order to apply (20_memory.md R64 (c)). -/
def commandWord (nbits w : Nat) : Word := BitVec.ofNat 32 (w % 2 ^ nbits)

/-- The command the decoder reads from a word numbered as opcode_table.json numbers it. -/
def decodeTableWord (nbits w : Nat) : Option Instr :=
  match decode (commandWord nbits w) with
  | .ok i => some i
  | .error _ => none

end Sys2Proof
end

