-- ==== Sys2Proof/Machine/Bits.lean ====
section
/-! DEFINITION. The bit-field helpers of 00_scope.md R10: truncation with zero extension, and the
fitting of a memory word into its fields. -/

namespace Sys2Proof.Machine

/-- `zext (trunc_w(v))`: the low `w` bits of `v`, the others 0 (00_scope.md R10; 10_state.md R23). -/
def trunc {n : Nat} (w : Nat) (v : BitVec n) : BitVec n := (v.setWidth w).setWidth n

/-- The field `v` of a 32-bit register image with its lowest bit at position `lo`. -/
def field {k : Nat} (lo : Nat) (v : BitVec k) : Word := v.setWidth 32 <<< lo

/-- The one-bit field `b` at position `lo`. -/
def flag (lo : Nat) (b : Bool) : Word := field lo (BitVec.ofBool b)

/-- `v` has no bit at or above position `w`: it is a value of width `w`. -/
def fitsWidth {n : Nat} (w : Nat) (v : BitVec n) : Prop := v.toNat < 2 ^ w

/-- A LUT word of the build's widths (20_memory.md R61). -/
def fitLutWord (p : Params) (w : LutWord) : LutWord :=
  { len := trunc p.lenW w.len, code := trunc p.maxLen w.code }

/-- A ROM word of the build's widths (20_memory.md R62). -/
def fitRomWord (p : Params) (w : RomWord) : RomWord :=
  { leaf := w.leaf, sym := trunc p.symW w.sym, left := trunc p.nodeW w.left,
    right := trunc p.nodeW w.right }

/-- A LUT word packed as one word of LEN_W + MAX_LEN bits, `len` above `code` (20_memory.md R61). -/
def packLutWord (p : Params) (w : LutWord) : BitVec (p.lenW + p.maxLen) :=
  w.len.setWidth p.lenW ++ w.code.setWidth p.maxLen

/-- A ROM word packed as `{leaf, sym, left, right}` (20_memory.md R62). -/
def packRomWord (p : Params) (w : RomWord) : BitVec (1 + p.symW + p.nodeW + p.nodeW) :=
  ((BitVec.ofBool w.leaf ++ w.sym.setWidth p.symW) ++ w.left.setWidth p.nodeW) ++
    w.right.setWidth p.nodeW

end Sys2Proof.Machine
end

