-- ==== Sys2Proof/Machine/Ports.lean ====
section
/-! DEFINITION. The wires of HUFFCORE as data: stream beats (30_encoding.md R97) and the values the
outside world drives at one clock edge (10_state.md R45). -/

namespace Sys2Proof.Machine

/-- A beat on `fc_in`, `enc_in` or `dec_out` (30_encoding.md R97). -/
structure SymBeat where
  sym : Sym
  keep : Bool
  last : Bool
  deriving DecidableEq, Repr

/-- A beat on `enc_out` or `dec_in` (30_encoding.md R97). -/
structure BitBeat where
  bit : Bool
  keep : Bool
  last : Bool
  deriving DecidableEq, Repr

/-- The input wires sampled at one rising edge of `clk` (10_state.md R45). The payload of a port whose
`valid` is false is any value and has no effect (93_implementation_defined.md U14). -/
structure Pins where
  rst : Bool
  regAddr : RegIndex
  regWr : Bool
  regRd : Bool
  regWdata : Word
  fcInValid : Bool
  fcIn : SymBeat
  encInValid : Bool
  encIn : SymBeat
  encOutReady : Bool
  decInValid : Bool
  decIn : BitBeat
  decOutReady : Bool
  deriving DecidableEq, Repr

/-- An edge at which the outside world drives every input to 0. -/
def Pins.idle : Pins :=
  { rst := false, regAddr := 0, regWr := false, regRd := false, regWdata := 0,
    fcInValid := false, fcIn := { sym := 0, keep := false, last := false },
    encInValid := false, encIn := { sym := 0, keep := false, last := false },
    encOutReady := false,
    decInValid := false, decIn := { bit := false, keep := false, last := false },
    decOutReady := false }

/-- An edge whose only activity is the host write `x[i] <- v` (00_scope.md R13, 20_memory.md R66). -/
def Pins.write (i : RegIndex) (v : Word) : Pins :=
  { Pins.idle with regWr := true, regAddr := i, regWdata := v }

/-- The output wires of HUFFCORE (10_state.md R45). -/
structure Outputs where
  regRdata : Word
  fcInReady : Bool
  encInReady : Bool
  encOutValid : Bool
  encOut : BitBeat
  decInReady : Bool
  decOutValid : Bool
  decOut : SymBeat
  deriving DecidableEq, Repr

end Sys2Proof.Machine
end

