-- ==== Sys2Proof/Machine/State.lean ====
section
/-! DEFINITION. Everything the spec gives HUFFCORE to hold (10_state.md R20), as plain data, and the
state after reset (R46). The reset values are all the spec's own. -/

namespace Sys2Proof.Machine

/-- The state of a unit (10_state.md R27). The value 3, which never occurs, is not representable
(93_implementation_defined.md U3). -/
inductive UnitSt where
  | idle
  | run
  | drain
  deriving DecidableEq, Repr

/-- The error numbering, one for all units and for host software (60_exceptions.md R201). The reserved
codes 6 to 15 are not representable (U3). -/
inductive Err where
  | none
  | emptyInput
  | singleSymbolInput
  | symbolNotFound
  | malformedStream
  | countOverflow
  deriving DecidableEq, Repr

/-- What every unit has: U_ST, U_DONE and U_ERR (10_state.md R27, R28, R31, R37). -/
structure UnitCtl where
  st : UnitSt
  done : Bool
  err : Err
  deriving DecidableEq, Repr

/-- The encoder (10_state.md R28, R29, R30, R33, R34). -/
structure Encoder where
  ctl : UnitCtl
  /-- ENC_EOI. -/
  eoi : Bool
  /-- ENC_SH, hidden. -/
  sh : CodeVal
  /-- ENC_N, hidden. -/
  n : CodeLen
  /-- ENC_ERRSYM. -/
  errSym : Sym
  /-- ENC_SYMCNT. -/
  symCnt : Word
  /-- ENC_BITCNT. -/
  bitCnt : Word
  deriving DecidableEq, Repr

/-- The decoder (10_state.md R31, R32, R35, R36). -/
structure Decoder where
  ctl : UnitCtl
  /-- DEC_EOI. -/
  eoi : Bool
  /-- DEC_MID. -/
  mid : Bool
  /-- DEC_CUR. -/
  cur : Handle
  /-- DEC_OUTSYM, hidden. -/
  outSym : Sym
  /-- DEC_OUTV, hidden. -/
  outV : Bool
  /-- DEC_BITCNT. -/
  bitCnt : Word
  /-- DEC_SYMCNT. -/
  symCnt : Word
  deriving DecidableEq, Repr

/-- The frequency counter (10_state.md R37, R38). -/
structure Counter where
  ctl : UnitCtl
  /-- FC_ERRSYM. -/
  errSym : Sym
  /-- FC_TOTAL. -/
  total : Word
  deriving DecidableEq, Repr

/-- The operand registers (10_state.md R40, R41, R42). LUT_CODE is one value that LUT_CODE_LO and
LUT_CODE_HI show in two halves. -/
structure Operands where
  lutAddr : Sym
  lutLen : CodeLen
  lutCode : CodeVal
  romAddr : Handle
  romLeaf : Bool
  romSym : Sym
  romLeft : Handle
  romRight : Handle
  histAddr : Sym
  histData : Word
  deriving DecidableEq, Repr

/-- What the words of a memory hold that no command has written one by one. -/
inductive Fill (W : Type) where
  /-- The unspecified contents after `rst` number `n` (93_implementation_defined.md U1). -/
  | afterRst (n : Nat)
  /-- Every word is `w`: a clear command wrote it (40_commands.md R113, R119). -/
  | all (w : W)
  deriving DecidableEq, Repr

/-- A word-indexed memory (20_memory.md R60): the cells written since the last clear or `rst`, by
strictly rising index, over a fill. Its one canonical form is `Memory.wf` (log entry 5). -/
structure Memory (W : Type) where
  fill : Fill W
  cells : List (Nat × W)
  deriving DecidableEq, Repr

/-- HUFFCORE (10_state.md R20) together with three fields of the model's own: `params` (log entry 3),
`resets` (log entry 4) and `pins` (log entry 1). -/
structure State where
  /-- The build parameters, constants that no event changes. -/
  params : Params
  /-- How many `rst` edges have been taken. It selects the unspecified memory contents. -/
  resets : Nat
  /-- What the outside world drives at the coming edges, first edge first. -/
  pins : List Pins
  enc : Encoder
  dec : Decoder
  fc : Counter
  regs : Operands
  /-- ROOT (10_state.md R39). -/
  root : Handle
  /-- CMD_ERR (10_state.md R26). -/
  cmdErr : Bool
  lut : Memory LutWord
  rom : Memory RomWord
  hist : Memory Word
  deriving DecidableEq, Repr

/-- Why the machine stops with a fault: never. HUFFCORE has no address fault, no alignment fault, no
trap and no stuck edge (60_exceptions.md R202), so this type has no constructor and nothing raises
it: safe. -/
inductive Fault where
  deriving DecidableEq, Repr

/-- Why the model gives an instruction no meaning. -/
inductive Refusal where
  /-- Raised by an arm of `exec` whose instruction has no meaning yet; no arm does. Safe: it stops
  where the hardware goes on. -/
  | notModelled (mnemonic : String)
  deriving DecidableEq, Repr

/-- A unit that is IDLE with no flag and no error (10_state.md R46). -/
def UnitCtl.reset : UnitCtl := { st := .idle, done := false, err := .none }

/-- The encoder after reset (10_state.md R46). -/
def Encoder.reset : Encoder :=
  { ctl := .reset, eoi := false, sh := 0, n := 0, errSym := 0, symCnt := 0, bitCnt := 0 }

/-- The decoder after reset (10_state.md R46). -/
def Decoder.reset : Decoder :=
  { ctl := .reset, eoi := false, mid := false, cur := 0, outSym := 0, outV := false,
    bitCnt := 0, symCnt := 0 }

/-- The counter after reset (10_state.md R46). -/
def Counter.reset : Counter := { ctl := .reset, errSym := 0, total := 0 }

/-- The operand registers after reset (10_state.md R46). -/
def Operands.reset : Operands :=
  { lutAddr := 0, lutLen := 0, lutCode := 0, romAddr := 0, romLeaf := false, romSym := 0,
    romLeft := 0, romRight := 0, histAddr := 0, histData := 0 }

/-- The machine right after a reset (10_state.md R46, 70_reset_and_hazards.md R230), in the default
build (00_scope.md R8): every register 0, the memories unspecified, nothing driven yet. -/
def State.reset : State :=
  { params := .default
    resets := 0
    pins := []
    enc := .reset
    dec := .reset
    fc := .reset
    regs := .reset
    root := 0
    cmdErr := false
    lut := { fill := .afterRst 0, cells := [] }
    rom := { fill := .afterRst 0, cells := [] }
    hist := { fill := .afterRst 0, cells := [] } }

end Sys2Proof.Machine
end

