-- ==== Sys2Proof/Machine/Ops.lean ====
section
/-! DEFINITION. The named operations over the memories and the state that every command and every
transfer is built from: memory access, acceptance and rejection, error entry and the end of an
operation. -/

namespace Sys2Proof.Machine

/-! ## Memories (20_memory.md R60, R68) -/

/-- The value of the cell at index `a`, if one is listed. -/
def cellAt {W : Type} (a : Nat) : List (Nat × W) → Option W
  | [] => none
  | (b, w) :: rest => if b = a then some w else cellAt a rest

/-- The cells with index `a` holding `w`, in rising order. -/
def putCell {W : Type} (a : Nat) (w : W) : List (Nat × W) → List (Nat × W)
  | [] => [(a, w)]
  | (b, v) :: rest =>
    if a < b then (a, w) :: (b, v) :: rest
    else if a = b then (a, w) :: rest
    else (b, v) :: putCell a w rest

/-- The cells without the one at index `a`. -/
def dropCell {W : Type} (a : Nat) : List (Nat × W) → List (Nat × W)
  | [] => []
  | (b, v) :: rest => if b = a then dropCell a rest else (b, v) :: dropCell a rest

/-- What an index with no cell reads as. After `rst` number `n` it is the free value `free n a`
(93_implementation_defined.md U1, log entry 4). -/
def Memory.unlisted {W : Type} (free : Nat → Nat → W) (m : Memory W) (a : Nat) : W :=
  match m.fill with
  | .afterRst n => free n a
  | .all w => w

/-- `MemRead` (00_scope.md R13): one whole word, with no side effect (20_memory.md R68). -/
def Memory.read {W : Type} (free : Nat → Nat → W) (m : Memory W) (a : Nat) : W :=
  match cellAt a m.cells with
  | some w => w
  | none => m.unlisted free a

/-- `MemWrite` (00_scope.md R13): one whole word. A cell that holds what the fill gives is not listed
(log entry 5). -/
def Memory.write {W : Type} [DecidableEq W] (m : Memory W) (a : Nat) (w : W) : Memory W :=
  if m.fill = .all w then { m with cells := dropCell a m.cells }
  else { m with cells := putCell a w m.cells }

/-- Every word of the memory becomes `w` in one event (40_commands.md R113, R119). -/
def Memory.clear {W : Type} (w : W) : Memory W := { fill := .all w, cells := [] }

/-- The contents after `rst` number `n`: unspecified (10_state.md R46). -/
def Memory.unspecified (W : Type) (n : Nat) : Memory W := { fill := .afterRst n, cells := [] }

/-- The indices of the cells rise strictly. -/
def Memory.rising {W : Type} : List (Nat × W) → Bool
  | [] => true
  | [_] => true
  | (a, _) :: (b, w) :: rest => decide (a < b) && Memory.rising ((b, w) :: rest)

/-- The canonical form: strictly rising indices, and no cell holds what the fill is known to give
(log entry 5). -/
def Memory.wf {W : Type} [DecidableEq W] (m : Memory W) : Bool :=
  Memory.rising m.cells && m.cells.all fun c => decide (m.fill ≠ .all c.2)

/-! ## Updates of one part of the state -/

/-- The state with another encoder. -/
def State.setEnc (s : State) (e : Encoder) : State := { s with enc := e }

/-- The state with another decoder. -/
def State.setDec (s : State) (d : Decoder) : State := { s with dec := d }

/-- The state with another counter. -/
def State.setFc (s : State) (c : Counter) : State := { s with fc := c }

/-- The state with other operand registers. -/
def State.setRegs (s : State) (r : Operands) : State := { s with regs := r }

/-- The state with another value of ROOT. -/
def State.setRoot (s : State) (h : Handle) : State := { s with root := h }

/-- The state with another value of CMD_ERR. -/
def State.setCmdErr (s : State) (b : Bool) : State := { s with cmdErr := b }

/-- The state with another LUT. -/
def State.setLut (s : State) (m : Memory LutWord) : State := { s with lut := m }

/-- The state with another tree ROM. -/
def State.setRom (s : State) (m : Memory RomWord) : State := { s with rom := m }

/-- The state with another HIST. -/
def State.setHist (s : State) (m : Memory Word) : State := { s with hist := m }

/-- The state with other pin values to come. -/
def State.setPins (s : State) (ps : List Pins) : State := { s with pins := ps }

/-! ## The three memories of the state

The index is the truncation of a symbol or a handle to the index width, so it is always in range
(20_memory.md R65). -/

/-- The index of a symbol in LUT and HIST. -/
def State.symIndex (s : State) (a : Sym) : Nat := (trunc s.params.symW a).toNat

/-- The index of a handle in the tree ROM. -/
def State.nodeIndex (s : State) (h : Handle) : Nat := (trunc s.params.nodeW h).toNat

/-- `MemRead(LUT, a)` (20_memory.md R61). -/
def State.readLut (s : State) (a : Sym) : LutWord :=
  s.lut.read (fun n i => fitLutWord s.params (Config.lutAfterRst n i)) (s.symIndex a)

/-- `MemWrite(LUT, a, w)`. -/
def State.writeLut (s : State) (a : Sym) (w : LutWord) : State :=
  s.setLut (s.lut.write (s.symIndex a) w)

/-- `MemRead(ROM, h)` (20_memory.md R62). -/
def State.readRom (s : State) (h : Handle) : RomWord :=
  s.rom.read (fun n i => fitRomWord s.params (Config.romAfterRst n i)) (s.nodeIndex h)

/-- `MemWrite(ROM, h, w)`. -/
def State.writeRom (s : State) (h : Handle) (w : RomWord) : State :=
  s.setRom (s.rom.write (s.nodeIndex h) w)

/-- `MemRead(HIST, a)` (20_memory.md R63). -/
def State.readHist (s : State) (a : Sym) : Word :=
  s.hist.read (fun n i => trunc s.params.cntW (Config.histAfterRst n i)) (s.symIndex a)

/-- `MemWrite(HIST, a, w)`. -/
def State.writeHist (s : State) (a : Sym) (w : Word) : State :=
  s.setHist (s.hist.write (s.symIndex a) w)

/-! ## Busy, acceptance and rejection (20_memory.md R74; 40_commands.md R118; 60_exceptions.md R204) -/

/-- The unit is busy: its state is not IDLE (10_state.md R27). -/
def UnitCtl.busy (c : UnitCtl) : Bool := decide (c.st ≠ .idle)

/-- The encoder's commands are locked (20_memory.md R74). -/
def State.encLocked (s : State) : Bool := s.enc.ctl.busy

/-- The decoder's commands, and ROOT, are locked (20_memory.md R74). -/
def State.decLocked (s : State) : Bool := s.dec.ctl.busy

/-- The counter's commands are rejected: there is no counter, or it is busy (40_commands.md R118,
R125). -/
def State.fcLocked (s : State) : Bool := !s.params.hasFc || s.fc.ctl.busy

/-- `reject`: CMD_ERR <- 1 and no other change (60_exceptions.md R204). -/
def State.reject (s : State) : State := s.setCmdErr true

/-- The acceptance check of a command on the state before the edge (40_commands.md R118): a locked
command is rejected, any other has its effect. -/
def issue (s : State) (locked : Bool) (effect : State → State) :
    Host.Outcome State Fault Refusal :=
  .next (if locked then s.reject else effect s)

/-! ## The life of an operation: start, error entry, end -/

/-- START of an operation: DONE and ERR cleared, state RUN (41_frequency_counter.md R141,
43_encoder.md R171, 44_decoder.md R186). -/
def UnitCtl.start : UnitCtl := { st := .run, done := false, err := .none }

/-- Error entry, the block's taking of an exception (60_exceptions.md R206): the error code is
recorded and the unit goes to DRAIN. Nothing is saved elsewhere and control goes nowhere. The value
register, where the error has one, is written by the unit beside it. -/
def UnitCtl.errorEntry (c : UnitCtl) (e : Err) : UnitCtl := { c with st := .drain, err := e }

/-- The end of an operation, the block's return (60_exceptions.md R211): IDLE and DONE, the error code
kept (41_frequency_counter.md R143, 43_encoder.md R176, 44_decoder.md R191). -/
def UnitCtl.finish (c : UnitCtl) : UnitCtl := { c with st := .idle, done := true }

/-! ## Reset (10_state.md R46; 70_reset_and_hazards.md R230, R231) -/

/-- SOFT_RESET: every register and all unit state to its reset value, the memories unchanged
(70_reset_and_hazards.md R231). -/
def State.softReset (s : State) : State :=
  { s with enc := .reset, dec := .reset, fc := .reset, regs := .reset, root := 0, cmdErr := false }

/-- `rst` at an edge: the reset state, with the memories unspecified anew (70_reset_and_hazards.md
R230, R232). The build parameters stay, and so does what the outside world will drive. -/
def State.hardReset (s : State) : State :=
  { s.softReset with
    resets := s.resets + 1
    lut := .unspecified LutWord (s.resets + 1)
    rom := .unspecified RomWord (s.resets + 1)
    hist := .unspecified Word (s.resets + 1) }

/-! ## Outcomes in sequence -/

/-- Go on with `f` from a next state; a fault or a refusal stops. -/
def andThen (o : Host.Outcome State Fault Refusal) (f : State → Host.Outcome State Fault Refusal) :
    Host.Outcome State Fault Refusal :=
  match o with
  | .next s => f s
  | .fault r => .fault r
  | .refused r => .refused r

end Sys2Proof.Machine
end

