-- ==== Sys2Proof/Machine/Flags.lean ====
section
/-! DEFINITION. The flags and codes software sees: STATUS (10_state.md R25, R26) and PARAMS (R43),
both views with no storage of their own. -/

namespace Sys2Proof.Machine

/-- The 2-bit code of a unit state (10_state.md R27). -/
def UnitSt.code : UnitSt → BitVec 2
  | .idle => 0
  | .run => 1
  | .drain => 2

/-- The 4-bit error code (60_exceptions.md R201). -/
def Err.code : Err → BitVec 4
  | .none => 0
  | .emptyInput => 1
  | .singleSymbolInput => 2
  | .symbolNotFound => 3
  | .malformedStream => 4
  | .countOverflow => 5

/-- The counter's status fields read 0 when there is no counter (10_state.md R37, 40_commands.md
R125). -/
def State.fcView (s : State) : UnitCtl := if s.params.hasFc then s.fc.ctl else .reset

/-- The three units (00_scope.md R15). -/
inductive UnitName where
  | enc
  | dec
  | fc
  deriving DecidableEq, Repr

/-- The state, done and error of a unit as STATUS shows them (10_state.md R25). -/
def State.unitCtl (s : State) : UnitName → UnitCtl
  | .enc => s.enc.ctl
  | .dec => s.dec.ctl
  | .fc => s.fcView

/-- STATUS (10_state.md R25). Bits 31:25 are reserved and read 0. -/
def State.status (s : State) : Word :=
  field 0 s.enc.ctl.st.code ||| flag 2 s.enc.ctl.done ||| flag 3 s.enc.eoi |||
  field 4 s.enc.ctl.err.code ||| field 8 s.dec.ctl.st.code ||| flag 10 s.dec.ctl.done |||
  flag 11 s.dec.eoi ||| field 12 s.dec.ctl.err.code ||| field 16 s.fcView.st.code |||
  flag 18 s.fcView.done ||| flag 19 s.dec.mid ||| field 20 s.fcView.err.code ||| flag 24 s.cmdErr

/-- PARAMS (10_state.md R43). Bits 31:23 are 0. -/
def paramsWord (p : Params) : Word :=
  field 0 (BitVec.ofNat 6 p.symW) ||| field 6 (BitVec.ofNat 6 p.nodeW) |||
  field 12 (BitVec.ofNat 4 p.lenW) ||| field 16 (BitVec.ofNat 6 p.cntW) ||| flag 22 p.hasFc

end Sys2Proof.Machine
end

