-- ==== Sys2Proof/Machine/Operands.lean ====
section
/-! DEFINITION. The register file: names, indices, access, widths (10_state.md R22), and the one read
and the one write every access goes through (R23, R39 to R42). -/

namespace Sys2Proof.Machine

/-- The 23 registers (10_state.md R22). -/
inductive Reg where
  | cmd | status | encErrSym | encSymCnt | encBitCnt | decCur | decBitCnt | decSymCnt
  | fcErrSym | fcTotal | root | lutAddr | lutLen | lutCodeLo | lutCodeHi | romAddr
  | romLeaf | romSym | romLeft | romRight | histAddr | histData | params
  deriving DecidableEq, Repr

/-- Access types (10_state.md R22). -/
inductive Access where
  | readOnly
  | writeOnly
  | readWrite
  deriving DecidableEq, Repr

/-- The register map in the order of the indices, from 0x00 (10_state.md R22). -/
def regMap : List Reg :=
  [.cmd, .status, .encErrSym, .encSymCnt, .encBitCnt, .decCur, .decBitCnt, .decSymCnt,
   .fcErrSym, .fcTotal, .root, .lutAddr, .lutLen, .lutCodeLo, .lutCodeHi, .romAddr,
   .romLeaf, .romSym, .romLeft, .romRight, .histAddr, .histData, .params]

/-- The register at an index; none at the reserved indices 0x17 to 0x3F (10_state.md R22). -/
def Reg.ofIndex (i : RegIndex) : Option Reg := regMap[i.toNat]?

/-- The index of a register (10_state.md R22). -/
def Reg.index : Reg → RegIndex
  | .cmd => 0x00 | .status => 0x01 | .encErrSym => 0x02 | .encSymCnt => 0x03
  | .encBitCnt => 0x04 | .decCur => 0x05 | .decBitCnt => 0x06 | .decSymCnt => 0x07
  | .fcErrSym => 0x08 | .fcTotal => 0x09 | .root => 0x0A | .lutAddr => 0x0B
  | .lutLen => 0x0C | .lutCodeLo => 0x0D | .lutCodeHi => 0x0E | .romAddr => 0x0F
  | .romLeaf => 0x10 | .romSym => 0x11 | .romLeft => 0x12 | .romRight => 0x13
  | .histAddr => 0x14 | .histData => 0x15 | .params => 0x16

/-- The access column (10_state.md R22). -/
def Reg.access : Reg → Access
  | .cmd => .writeOnly
  | .status | .encErrSym | .encSymCnt | .encBitCnt | .decCur | .decBitCnt | .decSymCnt
  | .fcErrSym | .fcTotal | .histData | .params => .readOnly
  | .root | .lutAddr | .lutLen | .lutCodeLo | .lutCodeHi | .romAddr | .romLeaf | .romSym
  | .romLeft | .romRight | .histAddr => .readWrite

/-- The width column, the number of implemented low bits (10_state.md R22). The counter's registers
read 0 without a counter: FC_ERRSYM and FC_TOTAL by 40_commands.md R125, HIST_ADDR and HIST_DATA by
their width 0 (10_state.md R42). -/
def Reg.width (p : Params) : Reg → Nat
  | .cmd => 32
  | .status => 25
  | .encErrSym | .lutAddr | .romSym => p.symW
  | .encSymCnt | .encBitCnt | .decBitCnt | .decSymCnt => 32
  | .decCur | .root | .romAddr | .romLeft | .romRight => p.nodeW
  | .fcErrSym | .histAddr => if p.hasFc then p.symW else 0
  | .fcTotal => if p.hasFc then 32 else 0
  | .lutLen => p.lenW
  | .lutCodeLo => min 32 p.maxLen
  | .lutCodeHi => p.maxLen - 32
  | .romLeaf => 1
  | .histData => if p.hasFc then p.cntW else 0
  | .params => 23

/-- LUT_CODE_LO, bits 31:0 of LUT_CODE (10_state.md R40). -/
def codeLo (c : CodeVal) : Word := c.extractLsb' 0 32

/-- LUT_CODE_HI, bits 62:32 of LUT_CODE (10_state.md R40). -/
def codeHi (c : CodeVal) : Word := c.extractLsb' 32 32

/-- LUT_CODE assembled from its two halves (30_encoding.md R93). -/
def codeOf (hi lo : Word) : CodeVal := (hi.setWidth 63 <<< 32) ||| lo.setWidth 63

/-- What stands behind a register, before its width is applied. -/
def State.rawReg (s : State) : Reg → Word
  | .cmd => 0
  | .status => s.status
  | .encErrSym => s.enc.errSym
  | .encSymCnt => s.enc.symCnt
  | .encBitCnt => s.enc.bitCnt
  | .decCur => s.dec.cur
  | .decBitCnt => s.dec.bitCnt
  | .decSymCnt => s.dec.symCnt
  | .fcErrSym => s.fc.errSym
  | .fcTotal => s.fc.total
  | .root => s.root
  | .lutAddr => s.regs.lutAddr
  | .lutLen => s.regs.lutLen.setWidth 32
  | .lutCodeLo => codeLo s.regs.lutCode
  | .lutCodeHi => codeHi s.regs.lutCode
  | .romAddr => s.regs.romAddr
  | .romLeaf => (BitVec.ofBool s.regs.romLeaf).setWidth 32
  | .romSym => s.regs.romSym
  | .romLeft => s.regs.romLeft
  | .romRight => s.regs.romRight
  | .histAddr => s.regs.histAddr
  | .histData => s.regs.histData
  | .params => paramsWord s.params

/-- `x[i]`, a host read by name: the implemented bits zero-extended, with no side effect (10_state.md
R23). -/
def State.readReg (s : State) (r : Reg) : Word := trunc (r.width s.params) (s.rawReg r)

/-- `x[i]`, a host read by index: a reserved index reads 0 (10_state.md R23, 20_memory.md R66). -/
def State.readIndex (s : State) (i : RegIndex) : Word :=
  match Reg.ofIndex i with
  | some r => s.readReg r
  | none => 0

/-- A write of an operand register stores the truncated value; a register of width 0 and a register
that is no operand register are unchanged (10_state.md R23, R40 to R42; 20_memory.md R67). -/
def Operands.write (p : Params) (o : Operands) (r : Reg) (v : Word) : Operands :=
  let w := trunc (r.width p) v
  if r.width p = 0 then o else
  match r with
  | .lutAddr => { o with lutAddr := w }
  | .lutLen => { o with lutLen := w.setWidth 6 }
  | .lutCodeLo => { o with lutCode := codeOf (codeHi o.lutCode) w }
  | .lutCodeHi => { o with lutCode := codeOf w (codeLo o.lutCode) }
  | .romAddr => { o with romAddr := w }
  | .romLeaf => { o with romLeaf := w.getLsbD 0 }
  | .romSym => { o with romSym := w }
  | .romLeft => { o with romLeft := w }
  | .romRight => { o with romRight := w }
  | .histAddr => { o with histAddr := w }
  | .cmd | .status | .encErrSym | .encSymCnt | .encBitCnt | .decCur | .decBitCnt | .decSymCnt
  | .fcErrSym | .fcTotal | .root | .histData | .params => o

/-- The beat as the wires of a symbol port carry it: they are SYM_W bits wide (10_state.md R45). -/
def State.wireBeat (s : State) (b : SymBeat) : SymBeat :=
  { b with sym := trunc s.params.symW b.sym }

/-- A write of ROOT: rejected while the decoder is busy (10_state.md R39, 20_memory.md R67). -/
def State.writeRoot (s : State) (v : Word) : State :=
  if s.decLocked then s.reject else s.setRoot (trunc s.params.nodeW v)

end Sys2Proof.Machine
end

