-- ==== Sys2Proof/Machine/FrequencyCounter.lean ====
section
/-! DEFINITION. The frequency counter: FC_START and the counting operation (41_frequency_counter.md
R141 to R145). -/

namespace Sys2Proof.Machine

/-- FC_START: HIST and FC_TOTAL are not cleared (41_frequency_counter.md R141). -/
def execFcStart (s : State) : Host.Outcome State Fault Refusal :=
  issue s s.fcLocked fun s => s.setFc { s.fc with ctl := .start, errSym := 0 }

/-- `fc_in_ready` (41_frequency_counter.md R144). -/
def State.fcInReady (s : State) : Bool := s.params.hasFc && s.fc.ctl.busy

/-- The largest count, 2^CNT_W - 1 (20_memory.md R63). -/
def State.countLimit (s : State) : Nat := 2 ^ s.params.cntW - 1

/-- `raise CountOverflow(sym)` (41_frequency_counter.md R145): HIST and FC_TOTAL are unchanged. -/
def Counter.raiseCountOverflow (c : Counter) (sym : Sym) : Counter :=
  { c with ctl := c.ctl.errorEntry .countOverflow, errSym := sym }

/-- The counter at a beat, where `h` is the count of its symbol (41_frequency_counter.md R142): the
payload is counted in RUN unless the count stands at the limit, and `last` ends the operation (R143). -/
def Counter.take (c : Counter) (h : Word) (limit : Nat) (b : SymBeat) : Counter :=
  let c :=
    if c.ctl.st = .run ∧ b.keep = true then
      if h.toNat = limit then c.raiseCountOverflow b.sym else { c with total := c.total + 1 }
    else c
  if b.last then { c with ctl := c.ctl.finish } else c

/-- The beat's symbol is counted: RUN, a payload, and the count below the limit
(41_frequency_counter.md R142). -/
def State.counts (s : State) (b : SymBeat) : Bool :=
  decide (s.fc.ctl.st = .run) && b.keep && decide ((s.readHist b.sym).toNat ≠ s.countLimit)

/-- `take fc_in -> (sym, keep, last)` (41_frequency_counter.md R142): one read-modify-write of one HIST
word (20_memory.md R76). -/
def State.takeFc (s : State) (b : SymBeat) : State :=
  (s.setHist (if s.counts b then s.hist.write (s.symIndex b.sym) (s.readHist b.sym + 1)
    else s.hist)).setFc
    (s.fc.take (s.readHist b.sym) s.countLimit (s.wireBeat b))

end Sys2Proof.Machine
end

