-- ==== Sys2Proof/Machine/HistCommands.lean ====
section
/-! DEFINITION. The HIST commands (40_commands.md R119, R120), locked by the counter and rejected
without one (R118, R125). -/

namespace Sys2Proof.Machine

/-- HIST_CLEAR: every entry 0 in one event, and FC_TOTAL 0 (40_commands.md R119). -/
def execHistClear (s : State) : Host.Outcome State Fault Refusal :=
  issue s s.fcLocked fun s => (s.setHist (.clear 0)).setFc { s.fc with total := 0 }

/-- HIST_READ (40_commands.md R120). -/
def execHistRead (s : State) : Host.Outcome State Fault Refusal :=
  issue s s.fcLocked fun s =>
    s.setRegs { s.regs with histData := s.readHist s.regs.histAddr }

end Sys2Proof.Machine
end

