-- ==== Sys2Proof/Machine/HuffmanDecoder.lean ====
section
/-! DEFINITION. The decoder: DEC_START and the decode operation (44_decoder.md R186 to R192). -/

namespace Sys2Proof.Machine

/-- `raise SingleSymbolInput()` and `raise MalformedStream()`: no value register (44_decoder.md
R192). -/
def Decoder.raise (d : Decoder) (e : Err) : Decoder := { d with ctl := d.ctl.errorEntry e }

/-- DEC_START (44_decoder.md R186). A Leaf at ROOT is SingleSymbolInput. -/
def execDecStart (s : State) : Host.Outcome State Fault Refusal :=
  issue s s.decLocked fun s =>
    let d : Decoder :=
      { ctl := .start, eoi := false, mid := false, cur := s.root, outSym := 0, outV := false,
        bitCnt := 0, symCnt := 0 }
    s.setDec (if (s.readRom s.root).leaf then d.raise .singleSymbolInput else d)

/-- `dec_in_ready` (44_decoder.md R187). -/
def State.decInReady (s : State) : Bool := s.dec.ctl.busy && !s.dec.eoi && !s.dec.outV

/-- `dec_out_valid` (44_decoder.md R187). -/
def State.decOutValid (s : State) : Bool := s.dec.ctl.busy && (s.dec.outV || s.dec.eoi)

/-- The payload wires of `dec_out`, all 0 when there is no beat to give (44_decoder.md R187). -/
def State.decOut (s : State) : SymBeat :=
  if s.decOutValid then
    if s.dec.outV then { sym := s.dec.outSym, keep := true, last := false }
    else { sym := 0, keep := false, last := true }
  else { sym := 0, keep := false, last := false }

/-- The child a bit selects: 1 is right, 0 is left (44_decoder.md R188; 90_conflicts.md C1). -/
def RomWord.child (w : RomWord) (bit : Bool) : Handle := if bit then w.right else w.left

/-- The payload of a beat in RUN: one step of the tree walk (44_decoder.md R188). -/
def Decoder.walkBit (d : Decoder) (rom : Handle → RomWord) (root : Handle) (bit : Bool) : Decoder :=
  let t := RomWord.child (rom d.cur) bit
  let c := rom t
  if c.leaf then
    { d with bitCnt := d.bitCnt + 1, outSym := c.sym, outV := true, cur := root, mid := false }
  else { d with bitCnt := d.bitCnt + 1, cur := t, mid := true }

/-- The end-of-input check (44_decoder.md R189). -/
def Decoder.endOfInput (d : Decoder) : Decoder :=
  if d.ctl.st = .run ∧ d.mid = true then d.raise .malformedStream else d

/-- The decoder at an input beat (44_decoder.md R188): in RUN the payload is walked, and `last` is
remembered and checked. -/
def Decoder.take (d : Decoder) (rom : Handle → RomWord) (root : Handle) (b : BitBeat) : Decoder :=
  let d := if d.ctl.st = .run ∧ b.keep = true then d.walkBit rom root b.bit else d
  if b.last then Decoder.endOfInput { d with eoi := true } else d

/-- The decoder at an output beat: the waiting symbol (44_decoder.md R190), else the end beat (R191). -/
def Decoder.give (d : Decoder) : Decoder :=
  if d.outV then { d with outV := false, symCnt := d.symCnt + 1 }
  else { d with ctl := d.ctl.finish, eoi := false }

/-- `take dec_in -> (bit, keep, last)` (44_decoder.md R188). -/
def State.takeDec (s : State) (b : BitBeat) : State := s.setDec (s.dec.take s.readRom s.root b)

/-- `give dec_out` (44_decoder.md R190, R191). -/
def State.giveDec (s : State) : State := s.setDec s.dec.give

end Sys2Proof.Machine
end

