-- ==== Sys2Proof/Machine/HuffmanEncoder.lean ====
section
/-! DEFINITION. The encoder: ENC_START and the encode operation (43_encoder.md R171 to R176). -/

namespace Sys2Proof.Machine

/-- ENC_START (43_encoder.md R171). -/
def execEncStart (s : State) : Host.Outcome State Fault Refusal :=
  issue s s.encLocked fun s =>
    s.setEnc { ctl := .start, eoi := false, sh := 0, n := 0, errSym := 0, symCnt := 0, bitCnt := 0 }

/-- `enc_in_ready` (43_encoder.md R172). -/
def State.encInReady (s : State) : Bool :=
  s.enc.ctl.busy && !s.enc.eoi && decide (s.enc.n = 0)

/-- `enc_out_valid` (43_encoder.md R172). -/
def State.encOutValid (s : State) : Bool :=
  s.enc.ctl.busy && (decide (s.enc.n ≠ 0) || s.enc.eoi)

/-- The next bit to deliver, `ENC_SH[ENC_N - 1]` (10_state.md R29). -/
def Encoder.nextBit (e : Encoder) : Bool := e.sh.getLsbD (e.n.toNat - 1)

/-- The payload wires of `enc_out`, all 0 when there is no beat to give (43_encoder.md R172). -/
def State.encOut (s : State) : BitBeat :=
  if s.encOutValid then
    if s.enc.n ≠ 0 then { bit := s.enc.nextBit, keep := true, last := false }
    else { bit := false, keep := false, last := true }
  else { bit := false, keep := false, last := false }

/-- `raise SymbolNotFound(sym)` (43_encoder.md R174). -/
def Encoder.raiseSymbolNotFound (e : Encoder) (sym : Sym) : Encoder :=
  { e with ctl := e.ctl.errorEntry .symbolNotFound, errSym := sym }

/-- The encoder at an input beat, where `w` is the LUT word of its symbol (43_encoder.md R173): in RUN the
payload is looked up, and `last` is remembered. -/
def Encoder.take (e : Encoder) (w : LutWord) (b : SymBeat) : Encoder :=
  let e :=
    if e.ctl.st = .run ∧ b.keep = true then
      if w.len = 0 then e.raiseSymbolNotFound b.sym
      else { e with sh := w.code, n := w.len, symCnt := e.symCnt + 1 }
    else e
  if b.last then { e with eoi := true } else e

/-- The encoder at an output beat: a bit while one waits (43_encoder.md R175), else the end beat
(R176). -/
def Encoder.give (e : Encoder) : Encoder :=
  if e.n ≠ 0 then { e with n := e.n - 1, bitCnt := e.bitCnt + 1 }
  else { e with ctl := e.ctl.finish, eoi := false }

/-- `take enc_in -> (sym, keep, last)` (43_encoder.md R173). -/
def State.takeEnc (s : State) (b : SymBeat) : State :=
  s.setEnc (s.enc.take (s.readLut b.sym) (s.wireBeat b))

/-- `give enc_out` (43_encoder.md R175, R176). -/
def State.giveEnc (s : State) : State := s.setEnc s.enc.give

end Sys2Proof.Machine
end

