-- ==== Sys2Proof/Machine/LutCommands.lean ====
section
/-! DEFINITION. The LUT commands (40_commands.md R113 to R115), locked by the encoder (R118). -/

namespace Sys2Proof.Machine

/-- LUT_CLEAR: every entry absent, in one event (40_commands.md R113). -/
def execLutClear (s : State) : Host.Outcome State Fault Refusal :=
  issue s s.encLocked fun s => s.setLut (.clear .absent)

/-- LUT_WRITE (40_commands.md R114). -/
def execLutWrite (s : State) : Host.Outcome State Fault Refusal :=
  issue s s.encLocked fun s =>
    s.writeLut s.regs.lutAddr { len := s.regs.lutLen, code := s.regs.lutCode }

/-- LUT_READ (40_commands.md R115). -/
def execLutRead (s : State) : Host.Outcome State Fault Refusal :=
  issue s s.encLocked fun s =>
    let w := s.readLut s.regs.lutAddr
    s.setRegs { s.regs with lutLen := w.len, lutCode := w.code }

end Sys2Proof.Machine
end

