-- ==== Sys2Proof/Machine/RomCommands.lean ====
section
/-! DEFINITION. The ROM commands (40_commands.md R116, R117), locked by the decoder (R118). -/

namespace Sys2Proof.Machine

/-- ROM_WRITE (40_commands.md R116). -/
def execRomWrite (s : State) : Host.Outcome State Fault Refusal :=
  issue s s.decLocked fun s =>
    s.writeRom s.regs.romAddr
      { leaf := s.regs.romLeaf, sym := s.regs.romSym, left := s.regs.romLeft,
        right := s.regs.romRight }

/-- ROM_READ (40_commands.md R117). -/
def execRomRead (s : State) : Host.Outcome State Fault Refusal :=
  issue s s.decLocked fun s =>
    let w := s.readRom s.regs.romAddr
    s.setRegs { s.regs with
      romLeaf := w.leaf, romSym := w.sym, romLeft := w.left, romRight := w.right }

end Sys2Proof.Machine
end

