-- ==== Sys2Proof/Machine/System.lean ====
section
/-! DEFINITION. The system commands NOP, SOFT_RESET and CLR_ERR (40_commands.md R110 to R112). None of
them is ever rejected (R118). -/

namespace Sys2Proof.Machine

/-- NOP (40_commands.md R110). -/
def execNop (s : State) : Host.Outcome State Fault Refusal :=
  issue s false fun s => s

/-- SOFT_RESET (40_commands.md R111). -/
def execSoftReset (s : State) : Host.Outcome State Fault Refusal :=
  issue s false fun s => s.softReset

/-- CLR_ERR: CMD_ERR <- 0 (40_commands.md R112). -/
def execClrErr (s : State) : Host.Outcome State Fault Refusal :=
  issue s false fun s => s.setCmdErr false

end Sys2Proof.Machine
end

