-- ==== Sys2Proof/Machine/Dispatch.lean ====
section
/-! DEFINITION. One arm for each command (30_encoding.md R92). -/

namespace Sys2Proof.Machine

/-- The effect of a command at the edge of the host write that carries it (10_state.md R24). -/
def exec (i : Instr) (s : State) : Host.Outcome State Fault Refusal :=
  match i with
  | .nop => Sys2Proof.Machine.execNop s
  | .softReset => Sys2Proof.Machine.execSoftReset s
  | .clrErr => Sys2Proof.Machine.execClrErr s
  | .lutClear => Sys2Proof.Machine.execLutClear s
  | .lutWrite => Sys2Proof.Machine.execLutWrite s
  | .lutRead => Sys2Proof.Machine.execLutRead s
  | .romWrite => Sys2Proof.Machine.execRomWrite s
  | .romRead => Sys2Proof.Machine.execRomRead s
  | .histClear => Sys2Proof.Machine.execHistClear s
  | .histRead => Sys2Proof.Machine.execHistRead s
  | .fcStart => Sys2Proof.Machine.execFcStart s
  | .encStart => Sys2Proof.Machine.execEncStart s
  | .decStart => Sys2Proof.Machine.execDecStart s

end Sys2Proof.Machine
end

