-- ==== Sys2Proof/Machine/Edge.lean ====
section
/-! DEFINITION. What happens at one rising edge of `clk`: the host write (20_memory.md R67), the
transfers (R70), and their order (R72). -/

namespace Sys2Proof.Machine

/-- The word is written to CMD: it is decoded and executed, or rejected as reserved (30_encoding.md
R91, R94). -/
def command (w : Word) (s : State) : Host.Outcome State Fault Refusal :=
  match decode w with
  | .ok i => exec i s
  | .error _ => .next s.reject

/-- The effect of a host write `x[i] <- v` (20_memory.md R67). A read-only register and a reserved
index ignore it and set no flag (10_state.md R23). -/
def hostWrite (i : RegIndex) (v : Word) (s : State) : Host.Outcome State Fault Refusal :=
  match Reg.ofIndex i with
  | some .cmd => command v s
  | some .root => .next (s.writeRoot v)
  | some r => .next (s.setRegs (s.regs.write s.params r v))
  | none => .next s

/-- The events of 20_memory.md R72. A `give` carries no beat: the beat is the unit's own. -/
inductive Event where
  | rst
  | write (i : RegIndex) (v : Word)
  | takeFc (b : SymBeat)
  | takeEnc (b : SymBeat)
  | giveEnc
  | takeDec (b : BitBeat)
  | giveDec
  deriving DecidableEq, Repr

/-- The effect of one event, atomic (20_memory.md R72). -/
def Event.apply (e : Event) (s : State) : Host.Outcome State Fault Refusal :=
  match e with
  | .rst => .next s.hardReset
  | .write i v => hostWrite i v s
  | .takeFc b => .next (s.takeFc b)
  | .takeEnc b => .next (s.takeEnc b)
  | .giveEnc => .next s.giveEnc
  | .takeDec b => .next (s.takeDec b)
  | .giveDec => .next s.giveDec

/-- Which events the state allows: a transfer needs the unit's `ready` or `valid` (20_memory.md
R70). -/
def Event.enabled (e : Event) (s : State) : Bool :=
  match e with
  | .rst => true
  | .write _ _ => true
  | .takeFc _ => s.fcInReady
  | .takeEnc _ => s.encInReady
  | .giveEnc => s.encOutValid
  | .takeDec _ => s.decInReady
  | .giveDec => s.decOutValid

/-- Events one after the other. -/
def runEvents : List Event → State → Host.Outcome State Fault Refusal
  | [], s => .next s
  | e :: es, s => andThen (e.apply s) (runEvents es)

/-- The transfers of an edge: on each port `valid` and `ready` are both 1 in the state before the edge
(20_memory.md R70). -/
def transfers (p : Pins) (s : State) : List Event :=
  (if p.fcInValid && s.fcInReady then [Event.takeFc p.fcIn] else []) ++
  (if p.encInValid && s.encInReady then [Event.takeEnc p.encIn] else []) ++
  (if p.encOutReady && s.encOutValid then [Event.giveEnc] else []) ++
  (if p.decInValid && s.decInReady then [Event.takeDec p.decIn] else []) ++
  (if p.decOutReady && s.decOutValid then [Event.giveDec] else [])

/-- The host write of an edge, if there is one (20_memory.md R66). -/
def hostEvents (p : Pins) : List Event :=
  if p.regWr then [Event.write p.regAddr p.regWdata] else []

/-- The host write of the edge is the command `i`. -/
def Pins.isCommand (p : Pins) (i : Instr) : Bool :=
  p.regWr && decide (Reg.ofIndex p.regAddr = some .cmd) && decide (p.regWdata = encode i)

/-- The host write of the edge is the SOFT_RESET command. -/
def isSoftReset (p : Pins) : Bool := p.isCommand .softReset

/-- The events of an edge that act on HUFFCORE, in the order of 20_memory.md R72 (log entry 6): reset
alone; else the host write and then the transfers. At the edge of a SOFT_RESET write the transfers happen
for the environment only: their effect on HUFFCORE is erased and HIST stays as it was
(70_reset_and_hazards.md R231). DESIGN CHOICE (log entry 19): running the transfers first and SOFT_RESET
last, as R72's order alone would have it, keeps the HIST increment of a counted beat. -/
def edgeEvents (p : Pins) (s : State) : List Event :=
  if p.rst then [.rst]
  else if isSoftReset p then hostEvents p
  else hostEvents p ++ transfers p s

/-- The output wires during the cycle before an edge (10_state.md R45). While `rst` is 1 every `ready`
and every `valid` is 0, and with them the payload wires (70_reset_and_hazards.md R230, log
entry 9). -/
def outputs (p : Pins) (s : State) : Outputs :=
  { regRdata := s.readIndex p.regAddr
    fcInReady := !p.rst && s.fcInReady
    encInReady := !p.rst && s.encInReady
    encOutValid := !p.rst && s.encOutValid
    encOut := if p.rst then { bit := false, keep := false, last := false } else s.encOut
    decInReady := !p.rst && s.decInReady
    decOutValid := !p.rst && s.decOutValid
    decOut := if p.rst then { sym := 0, keep := false, last := false } else s.decOut }

/-- What the outside world drives at the coming edge, and what it drives after it. Where nothing is
listed every input is 0 (log entry 2). -/
def State.coming (s : State) : Pins × List Pins :=
  match s.pins with
  | [] => (Pins.idle, [])
  | p :: rest => (p, rest)

/-- One rising edge of `clk` (20_memory.md R72): the events are those the state before the edge
allows. -/
def clockEdge (s : State) : Host.Outcome State Fault Refusal :=
  runEvents (edgeEvents s.coming.1 s) (s.setPins s.coming.2)

/-- The state in which the coming edge is a host write of `w` to CMD and nothing else (10_state.md R24,
log entry 7). -/
def State.presentCommand (s : State) (w : Word) : State :=
  s.setPins (Pins.write Reg.cmd.index w :: s.pins)

end Sys2Proof.Machine
end

