-- ==== Sys2Proof/Machine/Step.lean ====
section
/-! DEFINITION. The step: one rising edge of `clk` (20_memory.md R72), and how a command word is put
before it. -/

namespace Sys2Proof.Machine

/-- One step of HUFFCORE: one rising edge of `clk` (log entry 1). -/
def step (s : State) : Host.Outcome State Fault Refusal := clockEdge s

/-- `s` with the command word `w` of `nbits` bits presented at the next edge as a host write to CMD:
HUFFCORE fetches nothing, a command arrives as the data of that write (30_encoding.md R90, log
entry 7). -/
def State.withFetchWord (s : State) (nbits w : Nat) : State := s.presentCommand (commandWord nbits w)

end Sys2Proof.Machine
end

