-- ==== Sys2Proof/Machine/Reference.lean ====
section
/-! DEFINITION. The functions the units compute, as functions of sequences: `encode`
(43_encoder.md R180), `decode` (44_decoder.md R195) and the count of a frame (41_frequency_counter.md
R140, R147). The machine does not call them; claims hold the machine against them. -/

namespace Sys2Proof.Machine

/-- `bits(len, val)`: bit `len - 1` first (00_scope.md R11). -/
def codeBits (val : CodeVal) : Nat → List Bool
  | 0 => []
  | n + 1 => val.getLsbD n :: codeBits val n

/-- The bit string of a LUT word; bits at and above `len` are ignored (20_memory.md R61). -/
def LutWord.bits (w : LutWord) : List Bool := codeBits w.code w.len.toNat

/-- The symbol has a LUT entry (20_memory.md R61). -/
def hasCode (lut : Sym → LutWord) (x : Sym) : Bool := decide ((lut x).len ≠ 0)

/-- `encode(x, LUT)` (43_encoder.md R180): the codes in input order, or SymbolNotFound with the first
symbol whose entry is absent. -/
def encodeSeq (lut : Sym → LutWord) : List Sym → Except Sym (List Bool)
  | [] => .ok []
  | x :: xs =>
    if hasCode lut x then
      match encodeSeq lut xs with
      | .ok y => .ok (LutWord.bits (lut x) ++ y)
      | .error e => .error e
    else .error x

/-- The symbols before the first one without a code (43_encoder.md R180 (b)). -/
def encodable (lut : Sym → LutWord) (xs : List Sym) : List Sym := xs.takeWhile (hasCode lut)

/-- The concatenated codes of a sequence (43_encoder.md R170). -/
def codesOf (lut : Sym → LutWord) (xs : List Sym) : List Bool :=
  xs.flatMap fun x => LutWord.bits (lut x)

/-- Where a decode stands: `(cur, mid, out)` of 44_decoder.md R195. -/
structure Walk where
  cur : Handle
  mid : Bool
  out : List Sym
  deriving DecidableEq, Repr

/-- The walk before the first bit (44_decoder.md R195). -/
def Walk.start (root : Handle) : Walk := { cur := root, mid := false, out := [] }

/-- One bit of the walk: 1 is right, 0 is left; a Leaf gives its symbol and leads back to the root
(44_decoder.md R188, R195). -/
def Walk.next (rom : Handle → RomWord) (root : Handle) (w : Walk) (bit : Bool) : Walk :=
  let t := if bit then (rom w.cur).right else (rom w.cur).left
  if (rom t).leaf then { cur := root, mid := false, out := w.out ++ [(rom t).sym] }
  else { cur := t, mid := true, out := w.out }

/-- The walk after the bits of `y` (44_decoder.md R195). -/
def walkBits (rom : Handle → RomWord) (root : Handle) (y : List Bool) : Walk :=
  y.foldl (Walk.next rom root) (Walk.start root)

/-- `decode(y, ROM, ROOT)` (44_decoder.md R195). -/
def decodeSeq (rom : Handle → RomWord) (root : Handle) (y : List Bool) : Except Err (List Sym) :=
  if (rom root).leaf then .error .singleSymbolInput
  else if (walkBits rom root y).mid then .error .malformedStream
  else .ok (walkBits rom root y).out

/-- Position `j` of the payload `xs` is where a count would pass the limit: its symbol already stands at
the limit, counting the histogram `h` and the symbols before it (41_frequency_counter.md R147). -/
def overflowsAt (h : Sym → Nat) (limit : Nat) (xs : List Sym) (j : Nat) : Prop :=
  ∃ x, xs[j]? = some x ∧ h x + (xs.take j).count x = limit

end Sys2Proof.Machine
end

