-- ==== Sys2Proof/Machine/Images.lean ====
section
/-! DEFINITION. What a tree image and a LUT image may be assumed to be (42_host_tree_and_table.md R160
to R162). The hardware checks none of it. -/

namespace Sys2Proof.Machine

/-- The handle reached from `h` by the path `p` through words with leaf = 0; none if the path goes on
below a Leaf. -/
def pathFrom (rom : Handle → RomWord) (h : Handle) : List Bool → Option Handle
  | [] => some h
  | b :: p =>
    if (rom h).leaf then none
    else pathFrom rom (if b then (rom h).right else (rom h).left) p

/-- A well-formed tree image (42_host_tree_and_table.md R160): the root is no Leaf, no word is reached
by two different paths, the tree is finite, and no two reachable Leaf words hold the same symbol. -/
structure TreeImageWf (rom : Handle → RomWord) (root : Handle) : Prop where
  rootInternal : (rom root).leaf = false
  unshared : ∀ p q h, pathFrom rom root p = some h → pathFrom rom root q = some h → p = q
  finite : ∃ n, ∀ p h, pathFrom rom root p = some h → p.length ≤ n
  distinctSymbols : ∀ p q g h, pathFrom rom root p = some g → pathFrom rom root q = some h →
    (rom g).leaf = true → (rom h).leaf = true → (rom g).sym = (rom h).sym → g = h

/-- A well-formed LUT image: the set of codes is prefix-free, over the symbols of the build
(42_host_tree_and_table.md R161). -/
def LutImageWf (isSym : Sym → Prop) (lut : Sym → LutWord) : Prop :=
  ∀ x y, isSym x → isSym y → x ≠ y → hasCode lut x → hasCode lut y →
    ¬ (LutWord.bits (lut x)) <+: (LutWord.bits (lut y))

/-- The path `p` leads from the root to a Leaf that holds `x`. -/
def leafPath (rom : Handle → RomWord) (root : Handle) (p : List Bool) (x : Sym) : Prop :=
  ∃ h, pathFrom rom root p = some h ∧ (rom h).leaf = true ∧ (rom h).sym = x

/-- A matched pair of a LUT and a tree image (42_host_tree_and_table.md R162). -/
structure Matched (isSym : Sym → Prop) (lut : Sym → LutWord) (rom : Handle → RomWord)
    (root : Handle) : Prop where
  tree : TreeImageWf rom root
  symbols : ∀ p x, leafPath rom root p x → isSym x
  present : ∀ x, isSym x → (hasCode lut x = true ↔ ∃ p, leafPath rom root p x)
  path : ∀ x, isSym x → hasCode lut x → leafPath rom root (LutWord.bits (lut x)) x

end Sys2Proof.Machine
end

