-- ==== Sys2Proof/Machine/Bench.lean ====
section
/-! DEFINITION. HUFFCORE with an environment around it (20_memory.md R71, 00_scope.md R12): queues of
beats to offer, lists of beats received, and a choice at each edge of what to offer, what to accept
and what the host writes. Frames (30_encoding.md R99) and operation contracts are claims about it. -/

namespace Sys2Proof.Machine

/-- HUFFCORE and its stream environment. What is offered and what has been received stands here and not
in the machine's state (10_state.md R48). -/
structure Bench where
  st : State
  /-- `enc_out` is wired to `dec_in` (30_encoding.md R98, 60_exceptions.md R216). -/
  wired : Bool
  fcQ : List SymBeat
  encQ : List SymBeat
  decQ : List BitBeat
  /-- What `enc_out` has delivered and no `recv` line has taken. -/
  encGot : List BitBeat
  /-- What `dec_out` has delivered and no `recv` line has taken. -/
  decGot : List SymBeat
  /-- The output frame of the encoder's operation: what `enc_out` has delivered since the last ENC_START
  that was accepted (60_exceptions.md R207). -/
  encFrame : List BitBeat
  /-- The output frame of the decoder's operation: what `dec_out` has delivered since the last DEC_START
  that was accepted. -/
  decFrame : List SymBeat
  deriving DecidableEq, Repr

/-- What the environment and the host do at one edge. -/
structure Wish where
  rst : Bool
  host : Option (RegIndex × Word)
  offerFc : Bool
  offerEnc : Bool
  acceptEnc : Bool
  offerDec : Bool
  acceptDec : Bool
  deriving DecidableEq, Repr

/-- The environment offers its next beat and accepts on every port; the host does nothing. -/
def Wish.eager : Wish :=
  { rst := false, host := none, offerFc := true, offerEnc := true, acceptEnc := true,
    offerDec := true, acceptDec := true }

/-- As `eager`, and the host writes `x[i] <- v` at the same edge. -/
def Wish.write (i : RegIndex) (v : Word) : Wish := { Wish.eager with host := some (i, v) }

/-- A null beat, as payload wires of a port that offers nothing. -/
def SymBeat.null : SymBeat := { sym := 0, keep := false, last := false }

/-- A null beat of one bit. -/
def BitBeat.null : BitBeat := { bit := false, keep := false, last := false }

/-- The input wires of the edge. -/
def Bench.drive (b : Bench) (w : Wish) : Pins :=
  { rst := w.rst
    regAddr := (w.host.map Prod.fst).getD 0
    regWr := w.host.isSome
    regRd := false
    regWdata := (w.host.map Prod.snd).getD 0
    fcInValid := w.offerFc && !b.fcQ.isEmpty
    fcIn := b.fcQ.headD .null
    encInValid := w.offerEnc && !b.encQ.isEmpty
    encIn := b.encQ.headD .null
    encOutReady := if b.wired then !w.rst && b.st.decInReady else w.acceptEnc
    decInValid := if b.wired then !w.rst && b.st.encOutValid else w.offerDec && !b.decQ.isEmpty
    decIn := if b.wired then b.st.encOut else b.decQ.headD .null
    decOutReady := w.acceptDec }

/-- The output frame of a unit's operation after an edge: it is empty where the operation begins, and a
delivered beat is put at its end (30_encoding.md R99). -/
def nextFrame {B : Type} (begins : Bool) (delivered : Option B) (frame : List B) : List B :=
  (if begins then [] else frame) ++ delivered.toList

/-- One edge: each port with `valid` and `ready` moves one beat (20_memory.md R70). -/
def Bench.edge (b : Bench) (w : Wish) : Bench :=
  let p := b.drive w
  let o := outputs p b.st
  match step (b.st.setPins [p]) with
  | .next s =>
    { st := s
      wired := b.wired
      fcQ := if p.fcInValid && o.fcInReady then b.fcQ.tail else b.fcQ
      encQ := if p.encInValid && o.encInReady then b.encQ.tail else b.encQ
      decQ := if !b.wired && p.decInValid && o.decInReady then b.decQ.tail else b.decQ
      encGot := if o.encOutValid && p.encOutReady then b.encGot ++ [o.encOut] else b.encGot
      decGot := if o.decOutValid && p.decOutReady then b.decGot ++ [o.decOut] else b.decGot
      encFrame := nextFrame (!p.rst && p.isCommand .encStart && !b.st.encLocked)
        (if o.encOutValid && p.encOutReady then some o.encOut else none) b.encFrame
      decFrame := nextFrame (!p.rst && p.isCommand .decStart && !b.st.decLocked)
        (if o.decOutValid && p.decOutReady then some o.decOut else none) b.decFrame }
  | .fault _ => b
  | .refused _ => b

/-- One edge for each wish, in order. -/
def Bench.run (b : Bench) : List Wish → Bench
  | [] => b
  | w :: ws => Bench.run (b.edge w) ws

/-- `k` eager edges. -/
def Bench.settle (k : Nat) (b : Bench) : Bench := b.run (List.replicate k .eager)

/-- The payload of a sequence of symbol beats: the symbols of its payload beats (30_encoding.md R99). -/
def symPayload (bs : List SymBeat) : List Sym :=
  (bs.filter SymBeat.keep).map SymBeat.sym

/-- The payload of a sequence of bit beats (30_encoding.md R99). -/
def bitPayload (bs : List BitBeat) : List Bool :=
  (bs.filter BitBeat.keep).map BitBeat.bit

/-- The beats are one frame: the last beat, and no other, ends it (30_encoding.md R99). -/
def isFrame {B : Type} (ends : B → Bool) : List B → Bool
  | [] => false
  | [b] => ends b
  | b :: c :: rest => !ends b && isFrame ends (c :: rest)

/-- The frame HUFFCORE makes of a payload of bits: payload beats, then the bare end beat
(30_encoding.md R98). -/
def bitFrame (y : List Bool) : List BitBeat :=
  y.map (fun b => { bit := b, keep := true, last := false }) ++
    [{ bit := false, keep := false, last := true }]

/-- The frame HUFFCORE makes of a payload of symbols (30_encoding.md R98). -/
def symFrame (x : List Sym) : List SymBeat :=
  x.map (fun s => { sym := s, keep := true, last := false }) ++
    [{ sym := 0, keep := false, last := true }]

end Sys2Proof.Machine
end

