-- ==== Sys2Proof/Machine/TreeBuilder.lean ====
section
/-! DEFINITION. The host's reference procedures: TreeBuilder, CodeTableGenerator, the images they load
and the capacity checks (42_host_tree_and_table.md R150 to R159, R165). No part of the hardware runs
them (R150). -/

namespace Sys2Proof.Machine

/-- A FrequencyMap: pairs of a symbol and its count (42_host_tree_and_table.md R150). -/
abbrev FreqMap := List (Sym × Nat)

/-- Distinct keys and positive counts (42_host_tree_and_table.md R150). -/
def FreqMap.wf (f : FreqMap) : Prop := (f.map Prod.fst).Nodup ∧ ∀ e ∈ f, 1 ≤ e.2

/-- What the host reports to its caller: an error of the one numbering that host software shares with the
units (60_exceptions.md R201, R203), or a capacity failure, which has no number (R203,
42_host_tree_and_table.md R165). -/
inductive HostError where
  | numbered (e : Err)
  | codeTooLong
  | treeTooLarge
  | symbolTooWide
  deriving DecidableEq, Repr

/-- The error code of a host error; the capacity failures have none (60_exceptions.md R201, R203). -/
def HostError.code : HostError → Option (BitVec 4)
  | .numbered e => some e.code
  | .codeTooLong => none
  | .treeTooLarge => none
  | .symbolTooWide => none

/-- A tree with weights (42_host_tree_and_table.md R150). -/
inductive Tree where
  | leaf (sym : Sym) (w : Nat)
  | node (left right : Tree) (w : Nat)
  deriving DecidableEq, Repr

/-- The weight of a node (42_host_tree_and_table.md R152). -/
def Tree.weight : Tree → Nat
  | .leaf _ w => w
  | .node _ _ w => w

/-- The tie key: the least symbol of the subtree (42_host_tree_and_table.md R152). -/
def Tree.tieKey : Tree → Nat
  | .leaf x _ => x.toNat
  | .node l r _ => min l.tieKey r.tieKey

/-- The Internal node over two nodes (42_host_tree_and_table.md R153). -/
def Tree.join (l r : Tree) : Tree := .node l r (l.weight + r.weight)

/-- The leaves of a tree from left to right, each a symbol with its count. -/
def Tree.leaves : Tree → List (Sym × Nat)
  | .leaf x w => [(x, w)]
  | .node l r _ => l.leaves ++ r.leaves

/-- Every Internal node weighs what its children weigh (42_host_tree_and_table.md R155). -/
def Tree.weighed : Tree → Prop
  | .leaf _ _ => True
  | .node l r w => w = l.weight + r.weight ∧ l.weighed ∧ r.weighed

/-- `a` stands before `b` in the working list (42_host_tree_and_table.md R152). -/
def Tree.before (a b : Tree) : Bool :=
  decide (a.weight > b.weight ∨ (a.weight = b.weight ∧ a.tieKey < b.tieKey))

/-- A node of the working list together with its handle (42_host_tree_and_table.md R157). -/
structure Work where
  tree : Tree
  handle : Nat
  deriving DecidableEq, Repr

/-- The working list is held from its END, the smallest node first: the element put in stands at the
position R152 gives it. -/
def putWork (x : Work) : List Work → List Work
  | [] => [x]
  | y :: ys => if Tree.before x.tree y.tree then y :: putWork x ys else x :: y :: ys

/-- The leaves of the working list, smallest first, before they have handles
(42_host_tree_and_table.md R153, steps 1 and 2). -/
def sortLeaves (f : FreqMap) : List Work :=
  f.foldr (fun e ws => putWork { tree := .leaf e.1 e.2, handle := 0 } ws) []

/-- The leaves with handles 0 to n - 1 in the sorted order of R153, that is from the end of the list
held here (42_host_tree_and_table.md R157). -/
def numberFrom : Nat → List Work → List Work
  | _, [] => []
  | n, x :: xs => { x with handle := n - 1 } :: numberFrom (n - 1) xs

/-- A ROM image: a word for each handle (42_host_tree_and_table.md R157). -/
abbrev RomImage := List (Nat × RomWord)

/-- The ROM word of an Internal node (42_host_tree_and_table.md R157). -/
def nodeWord (l r : Nat) : RomWord :=
  { leaf := false, sym := 0, left := BitVec.ofNat 32 l, right := BitVec.ofNat 32 r }

/-- The ROM word of a Leaf (42_host_tree_and_table.md R157). -/
def leafWord (x : Sym) : RomWord := { leaf := true, sym := x, left := 0, right := 0 }

/-- The loop of 42_host_tree_and_table.md R153: the node removed first becomes `right`, the node removed
second becomes `left` (R154); the new node takes the next handle and its ROM word is written (R157).
The fuel is the length of the list at least. -/
def mergeAll : Nat → Nat → RomImage → List Work → Option (Work × RomImage)
  | _, _, _, [] => none
  | _, _, rom, [x] => some (x, rom)
  | 0, _, _, _ :: _ :: _ => none
  | fuel + 1, next, rom, r :: l :: rest =>
    let m : Work := { tree := .join l.tree r.tree, handle := next }
    mergeAll fuel (next + 1) (rom ++ [(next, nodeWord l.handle r.handle)]) (putWork m rest)

/-- The ROM words of the numbered leaves, by rising handle (42_host_tree_and_table.md R157). -/
def leafImage (ws : List Work) : RomImage :=
  ws.reverse.map fun x =>
    (x.handle, match x.tree with | .leaf s _ => leafWord s | .node _ _ _ => leafWord 0)

/-- What `buildTree` makes: the tree, its ROM image and the handle of its root. -/
structure Built where
  tree : Tree
  rom : RomImage
  root : Nat
  deriving DecidableEq, Repr

/-- `buildTree` with its ROM image (42_host_tree_and_table.md R151, R153, R157). Its two errors are
numbers 1 and 2 of the shared numbering (60_exceptions.md R201). -/
def build (f : FreqMap) : Except Err Built :=
  match f with
  | [] => .error .emptyInput
  | [_] => .error .singleSymbolInput
  | _ :: _ :: _ =>
    let ws := numberFrom f.length (sortLeaves f)
    match mergeAll f.length f.length (leafImage ws) ws with
    | some (x, rom) => .ok { tree := x.tree, rom := rom, root := x.handle }
    | none => .error .emptyInput

/-- `buildTree` (42_host_tree_and_table.md R150). -/
def buildTree (f : FreqMap) : Except Err Tree :=
  match build f with
  | .ok b => .ok b.tree
  | .error e => .error e

/-- A code table: a bit string for each symbol (00_scope.md R14). -/
abbrev CodeTable := List (Sym × List Bool)

/-- `codes(t, p)`: 0 to the left child, 1 to the right (42_host_tree_and_table.md R156). -/
def codes : Tree → List Bool → CodeTable
  | .leaf x _, p => [(x, p)]
  | .node l r _, p => codes l (p ++ [false]) ++ codes r (p ++ [true])

/-- `buildCodeTable` (42_host_tree_and_table.md R150, R156). -/
def buildCodeTable (t : Tree) : CodeTable := codes t []

/-- The integer whose binary numeral is the bit string, the root-side bit the most significant
(30_encoding.md R93). -/
def bitsToNat (p : List Bool) : Nat := p.foldl (fun n b => 2 * n + b.toNat) 0

/-- The LUT word of a code (42_host_tree_and_table.md R158). -/
def lutWordOf (p : List Bool) : LutWord :=
  { len := BitVec.ofNat 6 p.length, code := BitVec.ofNat 63 (bitsToNat p) }

/-- The LUT image: an entry for each row of the table, every other entry absent
(42_host_tree_and_table.md R158). -/
def lutImage (t : CodeTable) (x : Sym) : LutWord :=
  match t.lookup x with
  | some p => lutWordOf p
  | none => .absent

/-- A ROM image as a memory content; words that are not written are `rest` (42_host_tree_and_table.md
R157). -/
def romImage (rest : Handle → RomWord) (img : RomImage) (h : Handle) : RomWord :=
  match img.lookup h.toNat with
  | some w => w
  | none => rest h

/-- The capacity check (42_host_tree_and_table.md R165): what does not fit the build is refused before
anything is loaded. DESIGN CHOICE (log entry 20): where several limits are broken at once R165 and
60_exceptions.md R203 give no precedence; a symbol too wide is reported before a tree too large, and that
before a code too long. -/
def capacity (p : Params) (b : Built) : Except HostError Unit :=
  if b.tree.leaves.any fun e => decide (2 ^ p.symW ≤ e.1.toNat) then .error .symbolTooWide
  else if 2 ^ p.nodeW < b.rom.length then .error .treeTooLarge
  else if (buildCodeTable b.tree).any fun r => decide (p.maxLen < r.2.length) then .error .codeTooLong
  else .ok ()

/-- The FrequencyMap in HIST: the symbols with a count that is not 0 (41_frequency_counter.md R146). -/
def histMap (h : Sym → Word) (symbols : List Sym) : FreqMap :=
  symbols.filterMap fun x => if h x = 0 then none else some (x, (h x).toNat)

/-- A bit stream in bytes: stream bit i goes to byte i div 8, position 7 - (i mod 8); the unused low
positions of the last byte are 0 (20_memory.md R64 (e)). The first argument bounds the bytes. -/
def packBytes : Nat → List Bool → List (BitVec 8)
  | 0, _ => []
  | _ + 1, [] => []
  | n + 1, b :: bs =>
    let chunk := (b :: bs).take 8
    BitVec.ofNat 8 (bitsToNat chunk * 2 ^ (8 - chunk.length)) :: packBytes n ((b :: bs).drop 8)

/-- The packed bytes and the bit count that travels beside them (20_memory.md R64 (e)). -/
def packStream (y : List Bool) : List (BitVec 8) × Nat := (packBytes y.length y, y.length)

end Sys2Proof.Machine
end

