-- ==== Sys2Proof/Machine/Results.lean ====
section
/-! DEFINITION. The result of an operation: its payload if the unit's error field is 0 at the end, none
otherwise (60_exceptions.md R207, 90_conflicts.md C4). -/

namespace Sys2Proof.Machine

/-- The unit's operation has ended without an error (60_exceptions.md R207, R219): the unit is idle, DONE
is 1 and the error field is 0. -/
def UnitCtl.succeeded (c : UnitCtl) : Bool :=
  decide (c.st = .idle) && c.done && decide (c.err = .none)

/-- The result of the operation a unit has ended: the payload, or none (60_exceptions.md R207). What an
operation that failed or has not ended delivered is no result. -/
def UnitCtl.result {R : Type} (c : UnitCtl) (payload : R) : Option R :=
  if c.succeeded then some payload else none

/-- The result of an encode operation: the bits of its own output frame, whatever stands on the port from
operations before it (60_exceptions.md R207). -/
def Bench.encResult (b : Bench) : Option (List Bool) :=
  (b.st.unitCtl .enc).result (bitPayload b.encFrame)

/-- The result of a decode operation: the symbols of its own output frame (60_exceptions.md R207). -/
def Bench.decResult (b : Bench) : Option (List Sym) :=
  (b.st.unitCtl .dec).result (symPayload b.decFrame)

/-- The FrequencyMap of the symbol sequence `xs` over `symbols` (41_frequency_counter.md R140, R146). -/
def countMap (symbols xs : List Sym) : FreqMap :=
  symbols.filterMap fun x => if xs.count x = 0 then none else some (x, xs.count x)

/-- The result of a counting operation that began from a cleared histogram: the FrequencyMap in HIST over
`symbols` (60_exceptions.md R207, 41_frequency_counter.md R146). -/
def State.fcResult (s : State) (symbols : List Sym) : Option FreqMap :=
  (s.unitCtl .fc).result (histMap s.readHist symbols)

/-- What the host owes after a counting operation that has no result: the histogram is cleared before it
is used again (60_exceptions.md R207). -/
def State.fcCleanup (s : State) : List Instr :=
  if (s.unitCtl .fc).err = .none then [] else [.histClear]

end Sys2Proof.Machine
end

