-- ==== Sys2Proof/Machine/Script.lean ====
section
/-! DEFINITION. The host script notation, its encoding, its pseudo-commands and how a script runs
(30_encoding.md R101 to R103; 42_host_tree_and_table.md R159; 95_test_vectors.md for quiescence). -/

namespace Sys2Proof.Machine

/-- A script line (30_encoding.md R101). -/
inductive ScriptLine where
  | wr (i : RegIndex) (v : Word)
  | rd (i : RegIndex) (v : Word)
  | cmd (i : Instr)
  | sendFc (bs : List SymBeat)
  | sendEnc (bs : List SymBeat)
  | sendDec (bs : List BitBeat)
  | recvEnc (bs : List BitBeat)
  | recvDec (bs : List SymBeat)
  | wait (u : UnitName)
  deriving DecidableEq, Repr

/-- The host writes of a line (30_encoding.md R101). -/
def ScriptLine.writes : ScriptLine → List (RegIndex × Word)
  | .wr i v => [(i, v)]
  | .cmd i => [(Reg.cmd.index, encode i)]
  | .rd _ _ => []
  | .sendFc _ => []
  | .sendEnc _ => []
  | .sendDec _ => []
  | .recvEnc _ => []
  | .recvDec _ => []
  | .wait _ => []

/-- The encoding of a script (30_encoding.md R103). -/
def scriptWrites (ls : List ScriptLine) : List (RegIndex × Word) := ls.flatMap ScriptLine.writes

/-- `wr REG, v` by name. -/
def wrReg (r : Reg) (v : Word) : ScriptLine := .wr r.index v

/-- `rd REG -> v` by name. -/
def rdReg (r : Reg) (v : Word) : ScriptLine := .rd r.index v

/-- The LUT_CODE_HI line of `lutw` is omitted: LUT_CODE_HI has no bits in the build, or the code needs none
of them and LUT_CODE_HI is known to be 0 (30_encoding.md R102). -/
def omitsCodeHi (p : Params) (hiKnownZero : Bool) (c : CodeVal) : Bool :=
  decide (p.maxLen ≤ 32) || (decide (c.toNat < 2 ^ 32) && hiKnownZero)

/-- `lutw s, L, c` in a build with the parameters `p`. `hiKnownZero` says whether the author of the script
knows LUT_CODE_HI to be 0 at this line and leaves its write out where it may (30_encoding.md R102); the
programs of 95_test_vectors.md do not. -/
def lutw (p : Params) (hiKnownZero : Bool) (s : Sym) (len : Word) (c : CodeVal) : List ScriptLine :=
  [wrReg .lutAddr s, wrReg .lutLen len, wrReg .lutCodeLo (codeLo c)] ++
  (if omitsCodeHi p hiKnownZero c then [] else [wrReg .lutCodeHi (codeHi c)]) ++
  [.cmd .lutWrite]

/-- `lutr s -> L, c` (30_encoding.md R102). -/
def lutr (s : Sym) (len : Word) (c : CodeVal) : List ScriptLine :=
  [wrReg .lutAddr s, .cmd .lutRead, rdReg .lutLen len, rdReg .lutCodeLo (codeLo c),
   rdReg .lutCodeHi (codeHi c)]

/-- `romw h, leaf s` (30_encoding.md R102). -/
def romwLeaf (h : Handle) (s : Sym) : List ScriptLine :=
  [wrReg .romAddr h, wrReg .romLeaf 1, wrReg .romSym s, wrReg .romLeft 0, wrReg .romRight 0,
   .cmd .romWrite]

/-- `romw h, node l, r` (30_encoding.md R102). -/
def romwNode (h l r : Handle) : List ScriptLine :=
  [wrReg .romAddr h, wrReg .romLeaf 0, wrReg .romSym 0, wrReg .romLeft l, wrReg .romRight r,
   .cmd .romWrite]

/-- `histr s -> n` (30_encoding.md R102). -/
def histr (s : Sym) (n : Word) : List ScriptLine :=
  [wrReg .histAddr s, .cmd .histRead, rdReg .histData n]

/-- `root h` (30_encoding.md R102). -/
def rootLine (h : Handle) : ScriptLine := wrReg .root h

/-- The lines that load one ROM word. -/
def romw (h : Nat) (w : RomWord) : List ScriptLine :=
  if w.leaf then romwLeaf (BitVec.ofNat 32 h) w.sym
  else romwNode (BitVec.ofNat 32 h) w.left w.right

/-- The lines that load a built tree and its code table into a build with the parameters `p`
(42_host_tree_and_table.md R159). -/
def loadLines (p : Params) (b : Built) : List ScriptLine :=
  [.cmd .lutClear] ++
  (buildCodeTable b.tree).flatMap (fun r =>
    lutw p false r.1 (BitVec.ofNat 32 r.2.length) (lutWordOf r.2).code) ++
  b.rom.flatMap (fun c => romw c.1 c.2) ++
  [rootLine (BitVec.ofNat 32 b.root)]

/-- The load of a built tree into a build with the parameters `p`: its lines, or, where a table or tree
does not fit, the refusal that the host reports to its caller (42_host_tree_and_table.md R165). -/
def loadScript (p : Params) (b : Built) : Except HostError (List ScriptLine) :=
  match capacity p b with
  | .ok _ => .ok (loadLines p b)
  | .error e => .error e

/-- From a FrequencyMap to the script that loads its tree and code table, or the first failure: of
`buildTree` (42_host_tree_and_table.md R151) or of the capacity check (R165). -/
def loadMap (p : Params) (f : FreqMap) : Except HostError (List ScriptLine) :=
  match build f with
  | .ok b => loadScript p b
  | .error e => .error (.numbered e)

/-- The unit's ST field of STATUS is not 0. -/
def State.unitBusy (s : State) (u : UnitName) : Bool := (s.unitCtl u).busy

/-- The stream environment of a script. -/
structure ScriptEnv where
  /-- It accepts output whether or not a `recv` line is open, as the vectors have it
  (95_test_vectors.md); else it accepts on a port only while a `recv` of that port is open (30_encoding.md
  R101). -/
  alwaysAccepts : Bool
  deriving DecidableEq, Repr

/-- A script as it runs. `send` and `recv` lines do not block: what they leave to do stands in the queues
of the bench and in the open `recv` lines (30_encoding.md R101). -/
structure ScriptRun where
  bench : Bench
  /-- What the open `recv enc_out` lines expect, the first line first. -/
  encWant : List (List BitBeat)
  /-- What the open `recv dec_out` lines expect, the first line first. -/
  decWant : List (List SymBeat)
  /-- Every `rd` and every ended `recv` so far found what it expected. -/
  met : Bool
  deriving DecidableEq, Repr

/-- A script before its first line. -/
def ScriptRun.start (b : Bench) : ScriptRun :=
  { bench := b, encWant := [], decWant := [], met := true }

/-- The beats of a port up to the first end beat, and those after it; none while no end beat has come
(30_encoding.md R99, R101). -/
def takeFrame {B : Type} (ends : B → Bool) : List B → Option (List B × List B)
  | [] => none
  | b :: bs =>
    if ends b then some ([b], bs) else (takeFrame ends bs).map fun (f, rest) => (b :: f, rest)

/-- What the `recv` lines of one port have come to. -/
structure Received (B : Type) where
  /-- What the lines that are still open expect. -/
  pending : List (List B)
  /-- Beats that no line has taken. -/
  rest : List B
  /-- Every line that ended got exactly what it expected. -/
  met : Bool
  deriving DecidableEq, Repr

/-- The `recv` lines of a port, first line first, each take the beats of the port up to an end beat and
expect exactly these; a line whose end beat has not come stays open (30_encoding.md R101). -/
def receive {B : Type} [DecidableEq B] (ends : B → Bool) : List (List B) → List B → Received B
  | [], got => { pending := [], rest := got, met := true }
  | w :: ws, got =>
    match takeFrame ends got with
    | none => { pending := w :: ws, rest := got, met := true }
    | some (f, rest) =>
      let r := receive ends ws rest
      { r with met := decide (f = w) && r.met }

/-- The open `recv` lines of both ports take what has come. -/
def ScriptRun.collect (r : ScriptRun) : ScriptRun :=
  let e := receive BitBeat.last r.encWant r.bench.encGot
  let d := receive SymBeat.last r.decWant r.bench.decGot
  { bench := { r.bench with encGot := e.rest, decGot := d.rest }
    encWant := e.pending, decWant := d.pending, met := r.met && e.met && d.met }

/-- What the environment and the host do at one edge of the script: `send` beats are offered, each until
it is transferred, and the open `recv` lines accept (30_encoding.md R101). -/
def ScriptRun.wish (env : ScriptEnv) (r : ScriptRun) (host : Option (RegIndex × Word)) : Wish :=
  { Wish.eager with
    host := host
    acceptEnc := env.alwaysAccepts || !r.encWant.isEmpty
    acceptDec := env.alwaysAccepts || !r.decWant.isEmpty }

/-- One edge of the script, with a host write or without. -/
def ScriptRun.edge (env : ScriptEnv) (host : Option (RegIndex × Word)) (r : ScriptRun) : ScriptRun :=
  { r with bench := r.bench.edge (r.wish env host) }.collect

/-- Quiescence: no transfer is enabled (95_test_vectors.md). -/
def ScriptRun.quiet (env : ScriptEnv) (r : ScriptRun) : Bool :=
  (transfers (r.bench.drive (r.wish env none)) r.bench.st).isEmpty

/-- Beats move for `k` edges, or until quiescence. -/
def ScriptRun.settle (env : ScriptEnv) : Nat → ScriptRun → ScriptRun
  | 0, r => r
  | k + 1, r => if r.quiet env then r else (r.edge env none).settle env k

/-- `wait U`: STATUS is read once an edge, `k + 1` times at most, until the unit's ST field is 0; none if
it is still not 0 (30_encoding.md R101). -/
def ScriptRun.await (env : ScriptEnv) (u : UnitName) : Nat → ScriptRun → Option ScriptRun
  | 0, r => if r.bench.st.unitBusy u then none else some r
  | k + 1, r => if r.bench.st.unitBusy u then (r.edge env none).await env u k else some r

/-- One line of the script (30_encoding.md R101). A host write takes one edge, at which beats move too; a
`rd` is of the state as it is; `send` and `recv` only add to what the environment has to do, a `recv` taking
what its port has delivered and no line has taken. A `wait` that does not end within `k` more reads gives
none: no later line is performed. -/
def ScriptLine.perform (env : ScriptEnv) (k : Nat) (r : ScriptRun) : ScriptLine → Option ScriptRun
  | .wr i v => some (r.edge env (some (i, v)))
  | .cmd i => some (r.edge env (some (Reg.cmd.index, encode i)))
  | .rd i v => some { r with met := r.met && decide (r.bench.st.readIndex i = v) }
  | .sendFc bs => some { r with bench := { r.bench with fcQ := r.bench.fcQ ++ bs } }
  | .sendEnc bs => some { r with bench := { r.bench with encQ := r.bench.encQ ++ bs } }
  | .sendDec bs => some { r with bench := { r.bench with decQ := r.bench.decQ ++ bs } }
  | .recvEnc bs => some { r with encWant := r.encWant ++ [bs] }.collect
  | .recvDec bs => some { r with decWant := r.decWant ++ [bs] }.collect
  | .wait u => r.await env u k

/-- The lines of a script in order, each after the number of edges that stands with it, or at quiescence if
that comes first; for a `wait` it bounds the reads of STATUS too (log entry 18). Any numbers are allowed:
beats move concurrently with later lines (30_encoding.md R101). -/
def performLines (env : ScriptEnv) (r : ScriptRun) : List (Nat × ScriptLine) → Option ScriptRun
  | [] => some r
  | (k, l) :: ls =>
    match l.perform env k (r.settle env k) with
    | some r => performLines env r ls
    | none => none

/-- Every expectation of the script was met: every `rd` read its value, and every `recv` received its end
beat and exactly its beats (30_encoding.md R101). -/
def ScriptRun.passed (r : ScriptRun) : Bool := r.met && r.encWant.isEmpty && r.decWant.isEmpty

/-- A script run from a bench as the vectors have it: the environment always accepts, and every line and
the end are at quiescence where `k` is large enough (95_test_vectors.md); none if a `wait` does not end. -/
def performScript (k : Nat) (b : Bench) (ls : List ScriptLine) : Option ScriptRun :=
  let env : ScriptEnv := { alwaysAccepts := true }
  (performLines env (.start b) (ls.map fun l => (k, l))).map (ScriptRun.settle env k)

/-- The script does not get stuck and all it expects comes true. -/
def scriptPasses (k : Nat) (b : Bench) (ls : List ScriptLine) : Bool :=
  (performScript k b ls).any ScriptRun.passed

end Sys2Proof.Machine
end

