-- ==== Sys2Proof/Safety.lean ====
section
/-! DEFINITION. What a good state and a good run are: the invariants of 10_state.md R47, of the tree walk
(44_decoder.md R194) and of the stored widths (10_state.md R23), and what "gone wrong" means
(60_exceptions.md R219). -/

namespace Sys2Proof.Machine

/-- R47 (b) and (c) for one unit: DONE only in IDLE, no error in RUN, an error in DRAIN
(10_state.md R47). -/
def UnitCtl.coherent (c : UnitCtl) : Prop :=
  (c.done = true → c.st = .idle) ∧ (c.st = .run → c.err = .none) ∧ (c.st = .drain → c.err ≠ .none)

/-- R47 for the encoder: (b), (c), (d), (f), (g). -/
def Encoder.coherent (e : Encoder) : Prop :=
  e.ctl.coherent ∧ (e.n ≠ 0 → e.ctl.st = .run) ∧ (e.ctl.st = .idle → e.n = 0 ∧ e.eoi = false) ∧
    (e.ctl.err = .none ∨ e.ctl.err = .symbolNotFound)

/-- R47 for the decoder: (b), (c), (e), (f), (g). -/
def Decoder.coherent (d : Decoder) : Prop :=
  d.ctl.coherent ∧ (d.outV = true → d.ctl.st ≠ .idle) ∧
    (d.ctl.st = .idle → d.outV = false ∧ d.eoi = false) ∧
    (d.ctl.err = .none ∨ d.ctl.err = .singleSymbolInput ∨ d.ctl.err = .malformedStream)

/-- R47 for the counter: (b), (c), (g). -/
def Counter.coherent (c : Counter) : Prop :=
  c.ctl.coherent ∧ (c.ctl.err = .none ∨ c.ctl.err = .countOverflow)

/-- The state invariants of 10_state.md R47; without a counter its status is constant 0 (R37). -/
def State.Coherent (s : State) : Prop :=
  s.enc.coherent ∧ s.dec.coherent ∧ s.fc.coherent ∧
    (s.params.hasFc = false → s.fc.ctl = .reset)

/-- In RUN neither the node the decoder stands on nor the root is a Leaf (44_decoder.md R194). -/
def State.WalkInternal (s : State) : Prop :=
  s.dec.ctl.st = .run → (s.readRom s.dec.cur).leaf = false ∧ (s.readRom s.root).leaf = false

/-- A memory in its canonical form, with every index below the depth and every word of the build's
widths. -/
def Memory.Good {W : Type} [DecidableEq W] (depth : Nat) (fits : W → Prop) (m : Memory W) : Prop :=
  m.wf = true ∧ (∀ c ∈ m.cells, c.1 < depth ∧ fits c.2) ∧ (∀ w, m.fill = .all w → fits w)

/-- The fields of a LUT word have the build's widths (20_memory.md R61). -/
def LutWord.fits (p : Params) (w : LutWord) : Prop :=
  fitsWidth p.lenW w.len ∧ fitsWidth p.maxLen w.code

/-- The fields of a ROM word have the build's widths (20_memory.md R62). -/
def RomWord.fits (p : Params) (w : RomWord) : Prop :=
  fitsWidth p.symW w.sym ∧ fitsWidth p.nodeW w.left ∧ fitsWidth p.nodeW w.right

/-- Every stored value has its register's or field's width (10_state.md R23), and the memories are in
canonical form. -/
structure State.Stored (s : State) : Prop where
  encSh : fitsWidth s.params.maxLen s.enc.sh
  encN : fitsWidth s.params.lenW s.enc.n
  encErrSym : fitsWidth s.params.symW s.enc.errSym
  decCur : fitsWidth s.params.nodeW s.dec.cur
  decOutSym : fitsWidth s.params.symW s.dec.outSym
  fcErrSym : fitsWidth s.params.symW s.fc.errSym
  root : fitsWidth s.params.nodeW s.root
  lutAddr : fitsWidth s.params.symW s.regs.lutAddr
  lutLen : fitsWidth s.params.lenW s.regs.lutLen
  lutCode : fitsWidth s.params.maxLen s.regs.lutCode
  romAddr : fitsWidth s.params.nodeW s.regs.romAddr
  romSym : fitsWidth s.params.symW s.regs.romSym
  romLeft : fitsWidth s.params.nodeW s.regs.romLeft
  romRight : fitsWidth s.params.nodeW s.regs.romRight
  histAddr : fitsWidth s.params.symW s.regs.histAddr
  histData : fitsWidth s.params.cntW s.regs.histData
  lut : s.lut.Good s.params.lutDepth (LutWord.fits s.params)
  rom : s.rom.Good s.params.romDepth (RomWord.fits s.params)
  hist : s.hist.Good s.params.lutDepth (fitsWidth s.params.cntW)

/-- A run that ends in `s` has gone wrong if a unit is still busy, or a unit from which the script's
author expected a result has an error field that is not 0, or CMD_ERR is 1 (60_exceptions.md R219).
`expects` says from which units a result was expected. -/
def State.goneWrong (expects : UnitName → Bool) (s : State) : Prop :=
  (∃ u, (s.unitCtl u).busy = true) ∨ (∃ u, expects u = true ∧ (s.unitCtl u).err ≠ .none) ∨
    s.cmdErr = true

/-- The host write of the edge is the command `i`. -/
def Pins.commands (p : Pins) (i : Instr) : Prop :=
  p.regWr = true ∧ p.regAddr = Reg.cmd.index ∧ p.regWdata = encode i

/-- No reset of either kind happens at the edge. -/
def Pins.calm (p : Pins) : Prop := p.rst = false ∧ ¬ p.commands .softReset

end Sys2Proof.Machine
end

