-- ==== Sys2Proof/Certificates/Slice0/Obligations.lean ====
section
/-! DEFINITION. The statements about HUFFCORE that the provers settle, each from a numbered rule of
spec/. -/

open Sys2Proof Sys2Proof.Machine

/-! ## Encoding -/

/-- 30_encoding.md R91: a word selects a command exactly when it is that command's word; a word that is a
command executes it, any other word is rejected. -/
def Obligations.CommandDecodeIsExactMatch : Prop :=
  ∀ w : Word,
    (∀ i : Instr, decode w = .ok i ↔ w = encode i) ∧
    (∀ (i : Instr) (s : State), decode w = .ok i → command w s = exec i s) ∧
    (∀ s : State, (cmdZ w ≠ 0 ∨ ∀ i : Instr, cmdOp w ≠ opcode i) → command w s = .next s.reject)

/-- 30_encoding.md R92: the words of the 13 rows of the opcode map. -/
def Obligations.OpcodeMapWords : Prop :=
  decode 0x00000000#32 = .ok .nop ∧ decode 0x00000001#32 = .ok .softReset ∧
  decode 0x00000002#32 = .ok .clrErr ∧ decode 0x00000003#32 = .ok .lutClear ∧
  decode 0x00000004#32 = .ok .lutWrite ∧ decode 0x00000005#32 = .ok .lutRead ∧
  decode 0x00000006#32 = .ok .romWrite ∧ decode 0x00000007#32 = .ok .romRead ∧
  decode 0x00000008#32 = .ok .histClear ∧ decode 0x00000009#32 = .ok .histRead ∧
  decode 0x0000000A#32 = .ok .fcStart ∧ decode 0x0000000B#32 = .ok .encStart ∧
  decode 0x0000000C#32 = .ok .decStart ∧ decode 0x0000000D#32 = .error .reservedOpcode ∧
  decode 0x0000010B#32 = .error .zeroFieldSet

/-- 30_encoding.md R94: a reserved command word sets CMD_ERR and changes nothing else; a reserved register
index reads 0 and ignores writes; the reserved bits of STATUS and PARAMS read 0. -/
def Obligations.ReservedEncodingsAreInert : Prop :=
  (∀ (w : Word) (s : State),
    w.extractLsb' 8 24 ≠ 0 ∨ 0x0D ≤ (w.extractLsb' 0 8).toNat →
      command w s = .next { s with cmdErr := true }) ∧
  (∀ (i : RegIndex) (v : Word) (s : State), 0x17 ≤ i.toNat →
    s.readIndex i = 0 ∧ hostWrite i v s = .next s) ∧
  (∀ s : State, s.status.extractLsb' 25 7 = 0) ∧
  (∀ p : Params, (paramsWord p).extractLsb' 23 9 = 0)

/-! ## Registers -/

/-- 10_state.md R22, R23: the register map row by row (register, index, access, width, and the state whose
implemented bits a read shows; without a counter its registers read 0, 40_commands.md R125), and what a
read returns and a write does, for every register and every index. -/
def Obligations.RegisterAccessFollowsWidthAndKind : Prop :=
  ∀ s : State, s.params.legal = true →
    let p := s.params
    let ifFc (w : Nat) := if p.hasFc then w else 0
    let row (r : Reg) (i : RegIndex) (a : Access) (w v : Nat) : Prop :=
      r.index = i ∧ r.access = a ∧ r.width p = w ∧ (s.readIndex i).toNat = v % 2 ^ w
    (p.maxLen = 2 ^ p.lenW - 1 ∧
      row .cmd 0x00 .writeOnly 32 0 ∧
      row .status 0x01 .readOnly 25 s.status.toNat ∧
      row .encErrSym 0x02 .readOnly p.symW s.enc.errSym.toNat ∧
      row .encSymCnt 0x03 .readOnly 32 s.enc.symCnt.toNat ∧
      row .encBitCnt 0x04 .readOnly 32 s.enc.bitCnt.toNat ∧
      row .decCur 0x05 .readOnly p.nodeW s.dec.cur.toNat ∧
      row .decBitCnt 0x06 .readOnly 32 s.dec.bitCnt.toNat ∧
      row .decSymCnt 0x07 .readOnly 32 s.dec.symCnt.toNat ∧
      row .fcErrSym 0x08 .readOnly (ifFc p.symW) s.fc.errSym.toNat ∧
      row .fcTotal 0x09 .readOnly (ifFc 32) s.fc.total.toNat ∧
      row .root 0x0A .readWrite p.nodeW s.root.toNat ∧
      row .lutAddr 0x0B .readWrite p.symW s.regs.lutAddr.toNat ∧
      row .lutLen 0x0C .readWrite p.lenW s.regs.lutLen.toNat ∧
      row .lutCodeLo 0x0D .readWrite (min 32 p.maxLen) s.regs.lutCode.toNat ∧
      row .lutCodeHi 0x0E .readWrite (max 0 (p.maxLen - 32)) (s.regs.lutCode.toNat / 2 ^ 32) ∧
      row .romAddr 0x0F .readWrite p.nodeW s.regs.romAddr.toNat ∧
      row .romLeaf 0x10 .readWrite 1 s.regs.romLeaf.toNat ∧
      row .romSym 0x11 .readWrite p.symW s.regs.romSym.toNat ∧
      row .romLeft 0x12 .readWrite p.nodeW s.regs.romLeft.toNat ∧
      row .romRight 0x13 .readWrite p.nodeW s.regs.romRight.toNat ∧
      row .histAddr 0x14 .readWrite (ifFc p.symW) s.regs.histAddr.toNat ∧
      row .histData 0x15 .readOnly (ifFc p.cntW) s.regs.histData.toNat ∧
      row .params 0x16 .readOnly 23 (paramsWord p).toNat) ∧
    (∀ r : Reg, (s.readReg r).toNat < 2 ^ r.width p ∧ s.readIndex r.index = s.readReg r) ∧
    (∀ (r : Reg) (v : Word), r.access = .readWrite → (r = .root → s.decLocked = false) →
      ∃ t, hostWrite r.index v s = .next t ∧
        (t.readReg r).toNat = v.toNat % 2 ^ r.width p ∧
        (∀ q : Reg, q ≠ r → t.readReg q = s.readReg q) ∧
        (t.setRegs s.regs).setRoot s.root = s) ∧
    (∀ (r : Reg) (v : Word), r.width p = 0 →
      s.readReg r = 0 ∧ hostWrite r.index v s = .next s) ∧
    (∀ (r : Reg) (v : Word), r.access = .readOnly → hostWrite r.index v s = .next s) ∧
    (∀ (i : RegIndex) (v : Word), 0x17 ≤ i.toNat → s.readIndex i = 0 ∧ hostWrite i v s = .next s) ∧
    s.readReg .cmd = 0

/-- 20_memory.md R66: the read data come from the state before the edge whether or not `reg_rd` is 1, and
`reg_rd` has no effect; an edge without a host write does not depend on `reg_addr`. -/
def Obligations.HostReadHasNoEffect : Prop :=
  ∀ (s : State) (p : Pins) (rest : List Pins) (b : Bool) (a : RegIndex),
    (outputs { p with regRd := b } s).regRdata = s.readIndex p.regAddr ∧
    step (s.setPins ({ p with regRd := b } :: rest)) = step (s.setPins (p :: rest)) ∧
    (p.regWr = false →
      step (s.setPins ({ p with regRd := b, regAddr := a } :: rest)) = step (s.setPins (p :: rest)))

/-- 20_memory.md R67: the effect of a host write by index, and that reset wins over it. -/
def Obligations.HostWriteEffectByIndex : Prop :=
  ∀ (s : State) (v : Word),
    hostWrite 0x00 v s = command v s ∧
    (s.dec.ctl.st ≠ .idle → hostWrite 0x0A v s = .next { s with cmdErr := true }) ∧
    (s.dec.ctl.st = .idle →
      hostWrite 0x0A v s = .next { s with root := trunc s.params.nodeW v }) ∧
    (∀ i : RegIndex, 0x0B ≤ i.toNat → i.toNat ≤ 0x14 → ∃ r : Reg, r.index = i ∧
      hostWrite i v s = .next { s with regs := s.regs.write s.params r v }) ∧
    (∀ i : RegIndex, (1 ≤ i.toNat ∧ i.toNat < 0x0A) ∨ 0x14 < i.toNat → hostWrite i v s = .next s) ∧
    (∀ (p : Pins) (rest : List Pins), p.rst = true →
      step (s.setPins (p :: rest)) = .next (s.hardReset.setPins rest))

/-- 10_state.md R25: the fields of STATUS, each a view of the state it names; the numbers of the states
are those of R27, the numbers of the errors those of 60_exceptions.md R201. -/
def Obligations.StatusFieldsViewTheState : Prop :=
  (UnitSt.code .idle = 0 ∧ UnitSt.code .run = 1 ∧ UnitSt.code .drain = 2) ∧
  (Err.code .none = 0 ∧ Err.code .emptyInput = 1 ∧ Err.code .singleSymbolInput = 2 ∧
    Err.code .symbolNotFound = 3 ∧ Err.code .malformedStream = 4 ∧ Err.code .countOverflow = 5) ∧
  ∀ s : State,
    s.readReg .status = s.status ∧
    s.status.extractLsb' 0 2 = s.enc.ctl.st.code ∧ s.status.getLsbD 2 = s.enc.ctl.done ∧
    s.status.getLsbD 3 = s.enc.eoi ∧ s.status.extractLsb' 4 4 = s.enc.ctl.err.code ∧
    s.status.extractLsb' 8 2 = s.dec.ctl.st.code ∧ s.status.getLsbD 10 = s.dec.ctl.done ∧
    s.status.getLsbD 11 = s.dec.eoi ∧ s.status.extractLsb' 12 4 = s.dec.ctl.err.code ∧
    (s.params.hasFc = true →
      s.status.extractLsb' 16 2 = s.fc.ctl.st.code ∧ s.status.getLsbD 18 = s.fc.ctl.done ∧
      s.status.extractLsb' 20 4 = s.fc.ctl.err.code) ∧
    (s.params.hasFc = false →
      s.status.extractLsb' 16 2 = 0 ∧ s.status.getLsbD 18 = false ∧
      s.status.extractLsb' 20 4 = 0) ∧
    s.status.getLsbD 19 = s.dec.mid ∧ s.status.getLsbD 24 = s.cmdErr ∧
    s.status.extractLsb' 25 7 = 0 ∧ ∀ v, hostWrite Reg.status.index v s = .next s

/-- 10_state.md R43: the fields of PARAMS, and its value in the default build and in T8. -/
def Obligations.ParamsShowsTheBuild : Prop :=
  (∀ s : State, s.params.legal = true →
    let w := s.readReg .params
    (w.extractLsb' 0 6).toNat = s.params.symW ∧ (w.extractLsb' 6 6).toNat = s.params.nodeW ∧
    (w.extractLsb' 12 4).toNat = s.params.lenW ∧ (w.extractLsb' 16 6).toNat = s.params.cntW ∧
    w.getLsbD 22 = s.params.hasFc ∧ w.extractLsb' 23 9 = 0) ∧
  (∀ (s : State) (v : Word), hostWrite Reg.params.index v s = .next s) ∧
  (∀ s t : State, step s = .next t → t.readReg .params = s.readReg .params) ∧
  paramsWord .default = 0x00606595 ∧ paramsWord .t8 = 0x00484248

/-! ## Commands: the word of each, and that it completes, with its result and its frame -/

/-- 40_commands.md R110: NOP changes nothing, in every state. -/
def Obligations.NopChangesNothing : Prop :=
  decode 0x00000000#32 = .ok .nop ∧ ∀ s : State, exec .nop s = .next s

/-- 40_commands.md R111: after SOFT_RESET every register reads its reset value and every unit is as after
reset; the memories are what they were. -/
def Obligations.SoftResetClearsAllButMemories : Prop :=
  decode 0x00000001#32 = .ok .softReset ∧ ∀ s : State, ∃ t, exec .softReset s = .next t ∧
    t.enc = .reset ∧ t.dec = .reset ∧ t.fc = .reset ∧ t.regs = .reset ∧ t.root = 0 ∧
    t.cmdErr = false ∧ t.lut = s.lut ∧ t.rom = s.rom ∧ t.hist = s.hist ∧ t.params = s.params ∧
    t.pins = s.pins ∧ t.resets = s.resets ∧ t.status = 0 ∧
    (∀ r : Reg, r ≠ .params → t.readReg r = 0) ∧
    t.encOutValid = false ∧ t.decOutValid = false ∧ t.encInReady = false ∧ t.decInReady = false

/-- 40_commands.md R112: CLR_ERR clears CMD_ERR and touches nothing else, in every state. -/
def Obligations.ClrErrClearsOnlyCmdErr : Prop :=
  decode 0x00000002#32 = .ok .clrErr ∧ ∀ s : State, exec .clrErr s = .next { s with cmdErr := false }

/-- 40_commands.md R113: LUT_CLEAR makes every entry absent and changes nothing else; with the encoder busy
it is rejected. -/
def Obligations.LutClearMakesEveryEntryAbsent : Prop :=
  decode 0x00000003#32 = .ok .lutClear ∧ ∀ s : State,
    (s.enc.ctl.st = .idle → ∃ t, exec .lutClear s = .next t ∧
      (∀ a, t.readLut a = { len := 0, code := 0 }) ∧ t.setLut s.lut = s) ∧
    (s.enc.ctl.st ≠ .idle → exec .lutClear s = .next { s with cmdErr := true })

/-- 40_commands.md R114: LUT_WRITE stores the operands at LUT_ADDR, every other word of the LUT and
everything else is unchanged; with the encoder busy it is rejected. -/
def Obligations.LutWriteStoresOneEntry : Prop :=
  decode 0x00000004#32 = .ok .lutWrite ∧ ∀ s : State,
    (s.enc.ctl.st = .idle → ∃ t, exec .lutWrite s = .next t ∧
      (∀ a, s.symIndex a = s.symIndex s.regs.lutAddr →
        t.readLut a = { len := s.regs.lutLen, code := s.regs.lutCode }) ∧
      (∀ a, s.symIndex a ≠ s.symIndex s.regs.lutAddr → t.readLut a = s.readLut a) ∧
      t.setLut s.lut = s) ∧
    (s.enc.ctl.st ≠ .idle → exec .lutWrite s = .next { s with cmdErr := true })

/-- 40_commands.md R115: LUT_READ loads LUT_LEN and LUT_CODE with the word at LUT_ADDR and changes nothing
else; with the encoder busy it is rejected. -/
def Obligations.LutReadLoadsOperands : Prop :=
  decode 0x00000005#32 = .ok .lutRead ∧ ∀ s : State,
    (s.enc.ctl.st = .idle → exec .lutRead s = .next { s with
      regs := { s.regs with
        lutLen := (s.readLut s.regs.lutAddr).len, lutCode := (s.readLut s.regs.lutAddr).code } }) ∧
    (s.enc.ctl.st ≠ .idle → exec .lutRead s = .next { s with cmdErr := true })

/-- 40_commands.md R116: ROM_WRITE stores the four operands at ROM_ADDR, every other word of the ROM and
everything else is unchanged; with the decoder busy it is rejected. -/
def Obligations.RomWriteStoresOneNode : Prop :=
  decode 0x00000006#32 = .ok .romWrite ∧ ∀ s : State,
    (s.dec.ctl.st = .idle → ∃ t, exec .romWrite s = .next t ∧
      (∀ h, s.nodeIndex h = s.nodeIndex s.regs.romAddr →
        t.readRom h = { leaf := s.regs.romLeaf, sym := s.regs.romSym, left := s.regs.romLeft,
                        right := s.regs.romRight }) ∧
      (∀ h, s.nodeIndex h ≠ s.nodeIndex s.regs.romAddr → t.readRom h = s.readRom h) ∧
      t.setRom s.rom = s) ∧
    (s.dec.ctl.st ≠ .idle → exec .romWrite s = .next { s with cmdErr := true })

/-- 40_commands.md R117: ROM_READ loads the four data registers with the word at ROM_ADDR and changes
nothing else; with the decoder busy it is rejected. -/
def Obligations.RomReadLoadsOperands : Prop :=
  decode 0x00000007#32 = .ok .romRead ∧ ∀ s : State,
    (s.dec.ctl.st = .idle → exec .romRead s = .next { s with
      regs := { s.regs with
        romLeaf := (s.readRom s.regs.romAddr).leaf, romSym := (s.readRom s.regs.romAddr).sym,
        romLeft := (s.readRom s.regs.romAddr).left,
        romRight := (s.readRom s.regs.romAddr).right } }) ∧
    (s.dec.ctl.st ≠ .idle → exec .romRead s = .next { s with cmdErr := true })

/-- 40_commands.md R119: HIST_CLEAR makes every count and FC_TOTAL 0 and changes nothing else, FC_DONE,
FC_ERR and FC_ERRSYM among it; without a counter or with it busy it is rejected. -/
def Obligations.HistClearZeroesCounts : Prop :=
  decode 0x00000008#32 = .ok .histClear ∧ ∀ s : State,
    (s.params.hasFc = true → s.fc.ctl.st = .idle → ∃ t, exec .histClear s = .next t ∧
      (∀ a, t.readHist a = 0) ∧ t.fc = { s.fc with total := 0 } ∧
      (t.setHist s.hist).setFc s.fc = s) ∧
    (s.params.hasFc = false ∨ s.fc.ctl.st ≠ .idle →
      exec .histClear s = .next { s with cmdErr := true })

/-- 40_commands.md R120: HIST_READ loads HIST_DATA with the count at HIST_ADDR and changes nothing else;
without a counter or with it busy it is rejected. -/
def Obligations.HistReadLoadsOneCount : Prop :=
  decode 0x00000009#32 = .ok .histRead ∧ ∀ s : State,
    (s.params.hasFc = true → s.fc.ctl.st = .idle → exec .histRead s = .next { s with
      regs := { s.regs with histData := s.readHist s.regs.histAddr } }) ∧
    (s.params.hasFc = false ∨ s.fc.ctl.st ≠ .idle →
      exec .histRead s = .next { s with cmdErr := true })

/-- 41_frequency_counter.md R141: FC_START clears FC_DONE, FC_ERR and FC_ERRSYM and goes to RUN; HIST,
FC_TOTAL and everything else is unchanged; without a counter or with it busy it is rejected. -/
def Obligations.FcStartBeginsCounting : Prop :=
  decode 0x0000000A#32 = .ok .fcStart ∧ ∀ s : State,
    (s.params.hasFc = true → s.fc.ctl.st = .idle → exec .fcStart s = .next { s with
      fc := { ctl := { st := .run, done := false, err := .none }, errSym := 0,
              total := s.fc.total } }) ∧
    (s.params.hasFc = false ∨ s.fc.ctl.st ≠ .idle →
      exec .fcStart s = .next { s with cmdErr := true })

/-- 43_encoder.md R171: ENC_START clears the encoder's flags, error, counters and hidden state, goes to RUN
and changes nothing else; with the encoder busy it is rejected. -/
def Obligations.EncStartBeginsEncoding : Prop :=
  decode 0x0000000B#32 = .ok .encStart ∧ ∀ s : State,
    (s.enc.ctl.st = .idle → exec .encStart s = .next { s with
      enc := { ctl := { st := .run, done := false, err := .none }, eoi := false, sh := 0, n := 0,
               errSym := 0, symCnt := 0, bitCnt := 0 } }) ∧
    (s.enc.ctl.st ≠ .idle → exec .encStart s = .next { s with cmdErr := true })

/-- 44_decoder.md R186: DEC_START clears the decoder's flags, counters and output, sets DEC_CUR to ROOT,
and goes to RUN, or with a Leaf at ROOT to DRAIN with error 2; nothing else changes; with the decoder busy
it is rejected. -/
def Obligations.DecStartBeginsDecoding : Prop :=
  decode 0x0000000C#32 = .ok .decStart ∧ ∀ s : State,
    (s.dec.ctl.st = .idle → (s.readRom s.root).leaf = false → exec .decStart s = .next { s with
      dec := { ctl := { st := .run, done := false, err := .none }, eoi := false, mid := false,
               cur := s.root, outSym := 0, outV := false, bitCnt := 0, symCnt := 0 } }) ∧
    (s.dec.ctl.st = .idle → (s.readRom s.root).leaf = true → exec .decStart s = .next { s with
      dec := { ctl := { st := .drain, done := false, err := .singleSymbolInput }, eoi := false,
               mid := false, cur := s.root, outSym := 0, outV := false, bitCnt := 0,
               symCnt := 0 } }) ∧
    (s.dec.ctl.st ≠ .idle → exec .decStart s = .next { s with cmdErr := true })

/-- 40_commands.md R118: exactly the listed commands are rejected in exactly the listed states; a command
that is not rejected leaves CMD_ERR as it was, but for SOFT_RESET and CLR_ERR, which clear it. -/
def Obligations.AcceptanceCheckIsExact : Prop :=
  ∀ s : State,
    (∀ w : Word, w.extractLsb' 8 24 ≠ 0 ∨ 0x0C < (w.extractLsb' 0 8).toNat →
      command w s = .next s.reject) ∧
    (∀ i ∈ [Instr.lutClear, .lutWrite, .lutRead, .encStart],
      (s.enc.ctl.st ≠ .idle → exec i s = .next s.reject) ∧
      (s.enc.ctl.st = .idle → ∃ t, exec i s = .next t ∧ t.cmdErr = s.cmdErr)) ∧
    (∀ i ∈ [Instr.romWrite, .romRead, .decStart],
      (s.dec.ctl.st ≠ .idle → exec i s = .next s.reject) ∧
      (s.dec.ctl.st = .idle → ∃ t, exec i s = .next t ∧ t.cmdErr = s.cmdErr)) ∧
    (∀ i ∈ [Instr.histClear, .histRead, .fcStart],
      (s.params.hasFc = false ∨ s.fc.ctl.st ≠ .idle → exec i s = .next s.reject) ∧
      (s.params.hasFc = true → s.fc.ctl.st = .idle →
        ∃ t, exec i s = .next t ∧ t.cmdErr = s.cmdErr)) ∧
    (∃ t, exec .nop s = .next t ∧ t.cmdErr = s.cmdErr) ∧
    (∃ t, exec .softReset s = .next t ∧ t.cmdErr = false) ∧
    (∃ t, exec .clrErr s = .next t ∧ t.cmdErr = false)

/-! ## The edge -/

/-- 10_state.md R24, 20_memory.md R72: an edge at which the host writes a command to CMD runs that command
and then the transfers of the edge. At the edge of SOFT_RESET nothing but SOFT_RESET acts on HUFFCORE: its
transfers are erased, HIST increments among them (70_reset_and_hazards.md R231; for HIST this is the model's
choice, log entry 19). A word that `withFetchWord` presents runs alone (log entry 7). -/
def Obligations.StepRunsThePresentedCommand : Prop :=
  ∀ (s : State) (p : Pins) (rest : List Pins) (i : Instr),
    (p.rst = false → p.regWr = true → p.regAddr = 0 → decode p.regWdata = .ok i →
      (i ≠ .softReset →
        step (s.setPins (p :: rest)) =
          andThen (exec i (s.setPins rest)) (runEvents (transfers p s))) ∧
      (i = .softReset → step (s.setPins (p :: rest)) = exec i (s.setPins rest))) ∧
    step (s.withFetchWord 32 (encode i).toNat) = exec i s

/-- 60_exceptions.md R202: no edge stops the machine. Every step answers a next state, takes the coming
pins off the list and leaves the build as it is (the last two are the model's own, log entries 1
and 3). -/
def Obligations.EveryEdgeCompletes : Prop :=
  ∀ s : State, ∃ t, step s = .next t ∧ t.params = s.params ∧ t.pins = s.pins.tail

/-- 70_reset_and_hazards.md R230: at an edge with `rst` = 1 the next state is the reset state whatever else
was presented, and while `rst` is 1 every `ready` and `valid` is 0. -/
def Obligations.ResetWinsAtItsEdge : Prop :=
  ∀ (s : State) (p : Pins) (rest : List Pins), p.rst = true →
    (∃ t, step (s.setPins (p :: rest)) = .next t ∧
      t.enc = .reset ∧ t.dec = .reset ∧ t.fc = .reset ∧ t.regs = .reset ∧ t.root = 0 ∧
      t.cmdErr = false ∧ t.status = 0 ∧ (∀ r : Reg, r ≠ .params → t.readReg r = 0) ∧
      t.readReg .params = s.readReg .params ∧
      (∀ a, t.readLut a = fitLutWord s.params (Config.lutAfterRst (s.resets + 1) (s.symIndex a))) ∧
      (∀ h, t.readRom h = fitRomWord s.params (Config.romAfterRst (s.resets + 1) (s.nodeIndex h))) ∧
      (∀ a, t.readHist a =
        trunc s.params.cntW (Config.histAfterRst (s.resets + 1) (s.symIndex a)))) ∧
    (outputs p s).regRdata = s.readIndex p.regAddr ∧
    (outputs p s).fcInReady = false ∧ (outputs p s).encInReady = false ∧
    (outputs p s).encOutValid = false ∧ (outputs p s).decInReady = false ∧
    (outputs p s).decOutValid = false

/-- 20_memory.md R72: the transfers of one edge give the same state in any order. -/
def Obligations.TransfersOfAnEdgeCommute : Prop :=
  ∀ (s : State) (p : Pins) (l : List Event), l.Perm (transfers p s) →
    runEvents l s = runEvents (transfers p s) s

/-- 20_memory.md R71 (a), (b), (c): an output beat stays offered and unchanged until it is taken, an input
`ready` stays 1 until the transfer, at every edge without a reset; an idle unit offers and accepts
nothing. -/
def Obligations.HandshakeIsHeldUntilTransfer : Prop :=
  ∀ (s t : State) (p : Pins) (rest : List Pins), p.calm →
    step (s.setPins (p :: rest)) = .next t →
    (s.encOutValid = true → p.encOutReady = false → t.encOutValid = true ∧ t.encOut = s.encOut) ∧
    (s.decOutValid = true → p.decOutReady = false → t.decOutValid = true ∧ t.decOut = s.decOut) ∧
    (s.encInReady = true → p.encInValid = false → t.encInReady = true) ∧
    (s.decInReady = true → p.decInValid = false → t.decInReady = true) ∧
    (s.fcInReady = true → p.fcInValid = false → t.fcInReady = true) ∧
    (s.enc.ctl.st = .idle → s.encInReady = false ∧ s.encOutValid = false) ∧
    (s.dec.ctl.st = .idle → s.decInReady = false ∧ s.decOutValid = false) ∧
    (s.fc.ctl.st = .idle → s.fcInReady = false)

/-- 41_frequency_counter.md R144, 43_encoder.md R172, 44_decoder.md R187: the port functions, and that a
unit's input `ready` and output `valid` are never both 1. -/
def Obligations.PortFunctions : Prop :=
  ∀ s : State,
    (s.fcInReady = true ↔ s.fc.ctl.st ≠ .idle ∧ s.params.hasFc = true) ∧
    (s.encInReady = true ↔ s.enc.ctl.st ≠ .idle ∧ s.enc.eoi = false ∧ s.enc.n = 0) ∧
    (s.encOutValid = true ↔ s.enc.ctl.st ≠ .idle ∧ (s.enc.n ≠ 0 ∨ s.enc.eoi = true)) ∧
    (s.encOutValid = true → s.enc.n ≠ 0 →
      s.encOut = { bit := s.enc.sh.getLsbD (s.enc.n.toNat - 1), keep := true, last := false }) ∧
    (s.encOutValid = true → s.enc.n = 0 →
      s.encOut = { bit := false, keep := false, last := true }) ∧
    (s.encOutValid = false → s.encOut = { bit := false, keep := false, last := false }) ∧
    (s.decInReady = true ↔ s.dec.ctl.st ≠ .idle ∧ s.dec.eoi = false ∧ s.dec.outV = false) ∧
    (s.decOutValid = true ↔ s.dec.ctl.st ≠ .idle ∧ (s.dec.outV = true ∨ s.dec.eoi = true)) ∧
    (s.decOutValid = true → s.dec.outV = true →
      s.decOut = { sym := s.dec.outSym, keep := true, last := false }) ∧
    (s.decOutValid = true → s.dec.outV = false →
      s.decOut = { sym := 0, keep := false, last := true }) ∧
    (s.decOutValid = false → s.decOut = { sym := 0, keep := false, last := false }) ∧
    ¬ (s.encInReady = true ∧ s.encOutValid = true) ∧
    ¬ (s.decInReady = true ∧ s.decOutValid = true)

/-! ## The events of the three operations -/

/-- 41_frequency_counter.md R142, R143, R145: a beat taken by the counter. -/
def Obligations.CounterTakesABeat : Prop :=
  ∀ (s : State) (b : SymBeat), s.fcInReady = true → ∃ t, Event.apply (.takeFc b) s = .next t ∧
    (t.setFc s.fc).setHist s.hist = s ∧
    (s.fc.ctl.st = .run → b.keep = true → (s.readHist b.sym).toNat ≠ 2 ^ s.params.cntW - 1 →
      (∀ a, s.symIndex a = s.symIndex b.sym → t.readHist a = s.readHist b.sym + 1) ∧
      (∀ a, s.symIndex a ≠ s.symIndex b.sym → t.readHist a = s.readHist a) ∧
      t.fc.total = s.fc.total + 1 ∧ t.fc.errSym = s.fc.errSym ∧ t.fc.ctl.err = s.fc.ctl.err ∧
      t.fc.ctl.st = if b.last then .idle else .run) ∧
    (s.fc.ctl.st = .run → b.keep = true → (s.readHist b.sym).toNat = 2 ^ s.params.cntW - 1 →
      t.hist = s.hist ∧ t.fc.total = s.fc.total ∧ t.fc.errSym = trunc s.params.symW b.sym ∧
      t.fc.ctl.err = .countOverflow ∧ t.fc.ctl.st = if b.last then .idle else .drain) ∧
    (s.fc.ctl.st ≠ .run ∨ b.keep = false →
      t.hist = s.hist ∧ t.fc.total = s.fc.total ∧ t.fc.errSym = s.fc.errSym ∧
      t.fc.ctl.err = s.fc.ctl.err ∧ t.fc.ctl.st = if b.last then .idle else s.fc.ctl.st) ∧
    t.fc.ctl.done = if b.last then true else s.fc.ctl.done

/-- 43_encoder.md R173, R174: a beat taken by the encoder; a symbol without a code is SymbolNotFound. -/
def Obligations.EncoderTakesABeat : Prop :=
  ∀ (s : State) (b : SymBeat), s.encInReady = true → ∃ t, Event.apply (.takeEnc b) s = .next t ∧
    t.setEnc s.enc = s ∧
    (s.enc.ctl.st = .run → b.keep = true → (s.readLut b.sym).len ≠ 0 →
      t.enc = { s.enc with sh := (s.readLut b.sym).code, n := (s.readLut b.sym).len,
                           symCnt := s.enc.symCnt + 1, eoi := b.last }) ∧
    (s.enc.ctl.st = .run → b.keep = true → (s.readLut b.sym).len = 0 →
      t.enc = { s.enc with ctl := { st := .drain, done := s.enc.ctl.done, err := .symbolNotFound },
                           errSym := trunc s.params.symW b.sym, eoi := b.last }) ∧
    (s.enc.ctl.st ≠ .run ∨ b.keep = false → t.enc = { s.enc with eoi := b.last })

/-- 43_encoder.md R175, R176: what the encoder gives, and what giving it changes. -/
def Obligations.EncoderGivesABeat : Prop :=
  ∀ s : State, s.encOutValid = true → ∃ t, Event.apply .giveEnc s = .next t ∧
    t.setEnc s.enc = s ∧
    (s.enc.n ≠ 0 →
      s.encOut = { bit := s.enc.sh.getLsbD (s.enc.n.toNat - 1), keep := true, last := false } ∧
      t.enc = { s.enc with n := s.enc.n - 1, bitCnt := s.enc.bitCnt + 1 }) ∧
    (s.enc.n = 0 →
      s.encOut = { bit := false, keep := false, last := true } ∧
      t.enc = { s.enc with ctl := { st := .idle, done := true, err := s.enc.ctl.err },
                           eoi := false })

/-- 44_decoder.md R188, R189, R192: a beat taken by the decoder. -/
def Obligations.DecoderTakesABeat : Prop :=
  ∀ (s : State) (b : BitBeat), s.decInReady = true → ∃ t, Event.apply (.takeDec b) s = .next t ∧
    t.setDec s.dec = s ∧
    (∀ h, h = (if b.bit then (s.readRom s.dec.cur).right else (s.readRom s.dec.cur).left) →
      s.dec.ctl.st = .run → b.keep = true →
      ((s.readRom h).leaf = true →
        t.dec = { s.dec with bitCnt := s.dec.bitCnt + 1, outSym := (s.readRom h).sym, outV := true,
                             cur := s.root, mid := false, eoi := b.last }) ∧
      ((s.readRom h).leaf = false → b.last = false →
        t.dec = { s.dec with bitCnt := s.dec.bitCnt + 1, cur := h, mid := true }) ∧
      ((s.readRom h).leaf = false → b.last = true →
        t.dec = { s.dec with bitCnt := s.dec.bitCnt + 1, cur := h, mid := true, eoi := true,
                             ctl := { st := .drain, done := s.dec.ctl.done,
                                      err := .malformedStream } })) ∧
    (s.dec.ctl.st ≠ .run ∨ b.keep = false →
      (b.last = false → t = s) ∧
      (b.last = true → s.dec.ctl.st = .run → s.dec.mid = true →
        t.dec = { s.dec with eoi := true,
                             ctl := { st := .drain, done := s.dec.ctl.done,
                                      err := .malformedStream } }) ∧
      (b.last = true → s.dec.ctl.st ≠ .run ∨ s.dec.mid = false →
        t.dec = { s.dec with eoi := true }))

/-- 44_decoder.md R190, R191: what the decoder gives, and what giving it changes. -/
def Obligations.DecoderGivesABeat : Prop :=
  ∀ s : State, s.decOutValid = true → ∃ t, Event.apply .giveDec s = .next t ∧
    t.setDec s.dec = s ∧
    (s.dec.outV = true →
      s.decOut = { sym := s.dec.outSym, keep := true, last := false } ∧
      t.dec = { s.dec with outV := false, symCnt := s.dec.symCnt + 1 }) ∧
    (s.dec.outV = false →
      s.decOut = { sym := 0, keep := false, last := true } ∧
      t.dec = { s.dec with ctl := { st := .idle, done := true, err := s.dec.ctl.err },
                           eoi := false })

/-! ## Whole-machine rules -/

/-- 20_memory.md R74, R77: while a unit is busy no edge without `rst` changes its memory, and none but
SOFT_RESET changes ROOT while the decoder is busy; only the counter itself changes HIST while it is busy,
and at the edge of SOFT_RESET nothing does (70_reset_and_hazards.md R231; the model's choice, log entry
19). -/
def Obligations.BusyUnitsTablesAreConstant : Prop :=
  ∀ (s t : State) (p : Pins) (rest : List Pins), p.rst = false →
    step (s.setPins (p :: rest)) = .next t →
    (s.enc.ctl.st ≠ .idle → t.lut = s.lut) ∧
    (s.dec.ctl.st ≠ .idle → t.rom = s.rom ∧ (¬ p.commands .softReset → t.root = s.root)) ∧
    (s.fc.ctl.st ≠ .idle → p.fcInValid = false ∨ p.commands .softReset → t.hist = s.hist)

/-- 60_exceptions.md R209, R204: a rejected host write (each cause of R204) is judged on the state before
its edge, even when the unit's operation ends at that very edge. The next state is that of the same edge
without the host write, with CMD_ERR set: nothing is restarted, cleared, read or written. -/
def Obligations.CommandAtTheEndBeatIsRejected : Prop :=
  ∀ (s : State) (p : Pins) (rest : List Pins), p.rst = false → p.regWr = true →
    (p.regAddr = Reg.cmd.index ∧ (∀ i, p.regWdata ≠ encode i) ∨
     s.params.hasFc = false ∧ (∃ i ∈ [Instr.histClear, .histRead, .fcStart], p.commands i) ∨
     s.enc.ctl.st ≠ .idle ∧
       (∃ i ∈ [Instr.lutClear, .lutWrite, .lutRead, .encStart], p.commands i) ∨
     s.dec.ctl.st ≠ .idle ∧ (∃ i ∈ [Instr.romWrite, .romRead, .decStart], p.commands i) ∨
     s.fc.ctl.st ≠ .idle ∧ (∃ i ∈ [Instr.histClear, .histRead, .fcStart], p.commands i) ∨
     s.dec.ctl.st ≠ .idle ∧ p.regAddr = Reg.root.index) →
    ∃ u, step (s.setPins ({ p with regWr := false } :: rest)) = .next u ∧
      step (s.setPins (p :: rest)) = .next { u with cmdErr := true } ∧
      u.lut = s.lut ∧ u.rom = s.rom ∧ u.root = s.root ∧ u.regs = s.regs

/-- 10_state.md R27: the transitions of a unit's state over one edge. A unit leaves IDLE only by its START,
there is no way from DRAIN to RUN, a busy unit becomes IDLE only with the end beat of its operation (for
the counter, a last beat taken) and then shows DONE, and either reset makes every unit IDLE. -/
def Obligations.UnitStateTransitions : Prop :=
  ∀ (s t : State) (p : Pins) (rest : List Pins),
    step (s.setPins (p :: rest)) = .next t →
    (p.rst = true ∨ p.commands .softReset →
      t.enc.ctl.st = .idle ∧ t.dec.ctl.st = .idle ∧ t.fc.ctl.st = .idle) ∧
    (p.calm →
    (s.enc.ctl.st = .idle → t.enc.ctl.st = .idle ∨ p.commands .encStart) ∧
    (s.enc.ctl.st = .drain → t.enc.ctl.st ≠ .run) ∧
    (s.enc.ctl.st = .run → t.enc.ctl.st = .drain → t.enc.ctl.err = .symbolNotFound) ∧
    (s.dec.ctl.st = .idle → t.dec.ctl.st = .idle ∨ p.commands .decStart) ∧
    (s.dec.ctl.st = .drain → t.dec.ctl.st ≠ .run) ∧
    (s.dec.ctl.st = .run → t.dec.ctl.st = .drain → t.dec.ctl.err = .malformedStream) ∧
    (s.fc.ctl.st = .idle → t.fc.ctl.st = .idle ∨ p.commands .fcStart) ∧
    (s.fc.ctl.st = .drain → t.fc.ctl.st ≠ .run) ∧
    (s.fc.ctl.st = .run → t.fc.ctl.st = .drain → t.fc.ctl.err = .countOverflow) ∧
    (s.enc.ctl.st ≠ .idle → t.enc.ctl.st = .idle →
      s.encOutValid = true ∧ p.encOutReady = true ∧ s.encOut.last = true ∧
      t.enc.ctl.done = true) ∧
    (s.dec.ctl.st ≠ .idle → t.dec.ctl.st = .idle →
      s.decOutValid = true ∧ p.decOutReady = true ∧ s.decOut.last = true ∧
      t.dec.ctl.done = true) ∧
    (s.fc.ctl.st ≠ .idle → t.fc.ctl.st = .idle →
      s.fcInReady = true ∧ p.fcInValid = true ∧ p.fcIn.last = true ∧ t.fc.ctl.done = true))

/-- 60_exceptions.md R202: which event of an edge can raise which error, exhaustively. -/
def Obligations.OnlyTheListedEventsRaiseErrors : Prop :=
  ∀ (s t : State) (p : Pins) (rest : List Pins),
    step (s.setPins (p :: rest)) = .next t →
    (t.enc.ctl.err ≠ s.enc.ctl.err → t.enc.ctl.err ≠ .none →
      t.enc.ctl.err = .symbolNotFound ∧ s.enc.ctl.st = .run ∧ s.encInReady = true ∧
      p.encInValid = true ∧ p.encIn.keep = true ∧ (s.readLut p.encIn.sym).len = 0) ∧
    (t.dec.ctl.err ≠ s.dec.ctl.err → t.dec.ctl.err ≠ .none →
      (t.dec.ctl.err = .singleSymbolInput ∧ p.commands .decStart ∧ s.dec.ctl.st = .idle ∧
        (s.readRom s.root).leaf = true) ∨
      (t.dec.ctl.err = .malformedStream ∧ s.dec.ctl.st = .run ∧ s.decInReady = true ∧
        p.decInValid = true ∧ p.decIn.last = true)) ∧
    (t.fc.ctl.err ≠ s.fc.ctl.err → t.fc.ctl.err ≠ .none →
      t.fc.ctl.err = .countOverflow ∧ s.fc.ctl.st = .run ∧ s.fcInReady = true ∧
      p.fcInValid = true ∧ p.fcIn.keep = true ∧
      (s.readHist p.fcIn.sym).toNat = 2 ^ s.params.cntW - 1)

/-- 60_exceptions.md R211, R201: an error code and every value recorded with it stay until the unit's next
START or a reset. DEC_SYMCNT stays because no symbol waits for delivery when the decoder holds an error
(44_decoder.md R192), which the last clause of the decoder's says every such edge keeps, START among
them. -/
def Obligations.ErrorsLastUntilTheNextStart : Prop :=
  ∀ (s t : State) (p : Pins) (rest : List Pins), p.calm →
    step (s.setPins (p :: rest)) = .next t →
    (s.enc.coherent → s.enc.ctl.err ≠ .none → ¬ p.commands .encStart →
      t.enc.ctl.err = s.enc.ctl.err ∧ t.enc.errSym = s.enc.errSym ∧
      t.enc.symCnt = s.enc.symCnt) ∧
    (s.dec.coherent → s.dec.ctl.err ≠ .none → ¬ p.commands .decStart →
      t.dec.ctl.err = s.dec.ctl.err ∧ t.dec.cur = s.dec.cur ∧ t.dec.bitCnt = s.dec.bitCnt ∧
      (s.dec.outV = false → t.dec.symCnt = s.dec.symCnt)) ∧
    (s.dec.coherent → (s.dec.ctl.err ≠ .none → s.dec.outV = false) →
      t.dec.ctl.err ≠ .none → t.dec.outV = false) ∧
    (s.fc.coherent → s.fc.ctl.err ≠ .none → ¬ p.commands .fcStart →
      t.fc.ctl.err = s.fc.ctl.err ∧ t.fc.errSym = s.fc.errSym)

/-- 60_exceptions.md R204: CMD_ERR is sticky, cleared only by CLR_ERR, SOFT_RESET and `rst`, and it is set
only by one of the four causes. -/
def Obligations.CmdErrIsStickyAndOnlyRejectsSetIt : Prop :=
  ∀ (s t : State) (p : Pins) (rest : List Pins),
    step (s.setPins (p :: rest)) = .next t →
    (s.cmdErr = true → t.cmdErr = false →
      p.rst = true ∨ p.commands .clrErr ∨ p.commands .softReset) ∧
    (s.cmdErr = false → t.cmdErr = true → p.rst = false ∧ p.regWr = true ∧
      ((p.regAddr = Reg.cmd.index ∧ ∀ i, p.regWdata ≠ encode i) ∨
       (s.params.hasFc = false ∧ ∃ i ∈ [Instr.histClear, .histRead, .fcStart], p.commands i) ∨
       (s.enc.ctl.st ≠ .idle ∧
         ∃ i ∈ [Instr.lutClear, .lutWrite, .lutRead, .encStart], p.commands i) ∨
       (s.dec.ctl.st ≠ .idle ∧ ∃ i ∈ [Instr.romWrite, .romRead, .decStart], p.commands i) ∨
       (s.fc.ctl.st ≠ .idle ∧ ∃ i ∈ [Instr.histClear, .histRead, .fcStart], p.commands i) ∨
       (s.dec.ctl.st ≠ .idle ∧ p.regAddr = Reg.root.index)))

/-- 10_state.md R26: what sets and what clears each flag of a unit. -/
def Obligations.UnitFlagsChangeOnlyAsListed : Prop :=
  ∀ (s t : State) (p : Pins) (rest : List Pins), p.calm →
    step (s.setPins (p :: rest)) = .next t →
    (t.enc.ctl.done = true → s.enc.ctl.done = false →
      s.encOutValid = true ∧ p.encOutReady = true ∧ s.encOut.last = true) ∧
    (t.enc.ctl.done = false → s.enc.ctl.done = true → p.commands .encStart) ∧
    (t.enc.eoi = true → s.enc.eoi = false →
      s.encInReady = true ∧ p.encInValid = true ∧ p.encIn.last = true) ∧
    (t.enc.eoi = false → s.enc.eoi = true → p.commands .encStart ∨
      (s.encOutValid = true ∧ p.encOutReady = true ∧ s.encOut.last = true)) ∧
    (t.dec.ctl.done = true → s.dec.ctl.done = false →
      s.decOutValid = true ∧ p.decOutReady = true ∧ s.decOut.last = true) ∧
    (t.dec.ctl.done = false → s.dec.ctl.done = true → p.commands .decStart) ∧
    (t.dec.eoi = true → s.dec.eoi = false →
      s.decInReady = true ∧ p.decInValid = true ∧ p.decIn.last = true) ∧
    (t.dec.eoi = false → s.dec.eoi = true → p.commands .decStart ∨
      (s.decOutValid = true ∧ p.decOutReady = true ∧ s.decOut.last = true)) ∧
    (t.dec.mid = true → s.dec.mid = false →
      s.decInReady = true ∧ p.decInValid = true ∧ p.decIn.keep = true) ∧
    (t.dec.mid = false → s.dec.mid = true → p.commands .decStart ∨
      (s.decInReady = true ∧ p.decInValid = true ∧ p.decIn.keep = true ∧ t.dec.outV = true)) ∧
    (t.fc.ctl.done = true → s.fc.ctl.done = false →
      s.fcInReady = true ∧ p.fcInValid = true ∧ p.fcIn.last = true) ∧
    (t.fc.ctl.done = false → s.fc.ctl.done = true → p.commands .fcStart)

/-- 60_exceptions.md R216, 20_memory.md R78: what the other units and their environments do at an edge
does not reach a unit: with the host silent its next state is a function of itself, its memory and its own
pins. -/
def Obligations.UnitsAreIndependent : Prop :=
  ∀ (s s' t t' : State) (p p' : Pins) (rest rest' : List Pins),
    p.rst = false → p'.rst = false → p.regWr = false → p'.regWr = false → s.params = s'.params →
    step (s.setPins (p :: rest)) = .next t → step (s'.setPins (p' :: rest')) = .next t' →
    (s.enc = s'.enc → s.lut = s'.lut → p.encInValid = p'.encInValid → p.encIn = p'.encIn →
      p.encOutReady = p'.encOutReady → t.enc = t'.enc ∧ t.lut = t'.lut) ∧
    (s.dec = s'.dec → s.rom = s'.rom → s.root = s'.root → p.decInValid = p'.decInValid →
      p.decIn = p'.decIn → p.decOutReady = p'.decOutReady →
      t.dec = t'.dec ∧ t.rom = t'.rom ∧ t.root = t'.root) ∧
    (s.fc = s'.fc → s.hist = s'.hist → p.fcInValid = p'.fcInValid → p.fcIn = p'.fcIn →
      t.fc = t'.fc ∧ t.hist = t'.hist)

/-! ## Invariants -/

/-- 10_state.md R47: every step keeps the state invariants. -/
def Obligations.StepKeepsStateInvariants : Prop :=
  ∀ s t : State, s.Coherent → step s = .next t → t.Coherent

/-- 10_state.md R47: the state invariants hold after reset. -/
def Obligations.StateInvariantsHoldAfterReset : Prop := State.reset.Coherent

/-- 44_decoder.md R194: every step keeps that in RUN the decoder stands on an Internal node. -/
def Obligations.StepKeepsWalkOnInternalNodes : Prop :=
  ∀ s t : State, s.WalkInternal → step s = .next t → t.WalkInternal

/-- 10_state.md R23, 20_memory.md R61 to R63: every step keeps the widths of everything stored and the
canonical form of the memories (the form is the model's, log entry 5). -/
def Obligations.StepKeepsStoredWidths : Prop :=
  ∀ s t : State, s.Stored → step s = .next t → t.Stored

/-- 10_state.md R30, R38: ENC_ERRSYM and FC_ERRSYM are 0 while their unit has no error; every step keeps
this. -/
def Obligations.ErrorSymbolsAreZeroWithoutError : Prop :=
  ∀ s t : State, (s.enc.ctl.err = .none → s.enc.errSym = 0) →
    (s.fc.ctl.err = .none → s.fc.errSym = 0) → step s = .next t →
    (t.enc.ctl.err = .none → t.enc.errSym = 0) ∧ (t.fc.ctl.err = .none → t.fc.errSym = 0)

/-- 10_state.md R31, R32: in RUN with DEC_MID = 0 the decoder stands at ROOT; every step keeps this. -/
def Obligations.RunningDecoderIsMidCodeOrAtTheRoot : Prop :=
  ∀ s t : State, (s.dec.ctl.st = .run → s.dec.mid = false → s.dec.cur = s.root) →
    step s = .next t → t.dec.ctl.st = .run → t.dec.mid = false → t.dec.cur = t.root

/-- 44_decoder.md R194, 10_state.md R23, 20_memory.md R61 to R63: after reset the walk invariant, the widths
of everything stored and the canonical form of the memories hold (the form is the model's, log entry
5). -/
def Obligations.WalkAndWidthsHoldAfterReset : Prop :=
  State.reset.WalkInternal ∧ State.reset.Stored

/-! ## Operations: the machine against the functions of the source -/

/-- 43_encoder.md R180: an encode operation in an environment that always offers and accepts. It ends; one
frame is consumed and one produced; the output, the error and the counters are those of `encode`. The environment is
that of the bench (log entry 18). -/
def Obligations.EncodeOperationContract : Prop :=
  ∀ (b c : Bench) (frame rest : List SymBeat) (k : Nat) (y : List Bool),
    b.wired = false → b.st.enc.ctl.st = .idle → isFrame SymBeat.last frame = true →
    b.encQ = frame ++ rest → b.encGot = [] →
    y = codesOf b.st.readLut (encodable b.st.readLut (symPayload frame)) →
    frame.length + y.length + 1 ≤ k →
    c = (b.edge (Wish.write Reg.cmd.index (encode .encStart))).settle k →
    c.encQ = rest ∧ c.encGot = bitFrame y ∧ c.st.lut = b.st.lut ∧
    c.st.enc.ctl.st = .idle ∧ c.st.enc.ctl.done = true ∧
    c.st.enc.bitCnt = BitVec.ofNat 32 y.length ∧
    c.st.enc.symCnt =
      BitVec.ofNat 32 (encodable b.st.readLut (symPayload frame)).length ∧
    (∀ z, encodeSeq b.st.readLut (symPayload frame) = .ok z →
      y = z ∧ c.st.enc.ctl.err = .none ∧
      c.st.enc.symCnt = BitVec.ofNat 32 (symPayload frame).length) ∧
    (∀ x, encodeSeq b.st.readLut (symPayload frame) = .error x →
      c.st.enc.ctl.err = .symbolNotFound ∧ c.st.enc.errSym = trunc b.st.params.symW x)

/-- 44_decoder.md R195: a decode operation in an environment that always offers and accepts. It ends; one
frame is consumed and one produced; the output, the error, the counters, DEC_CUR and DEC_MID are those of
`decode`. The environment is that of the bench (log entry 18). -/
def Obligations.DecodeOperationContract : Prop :=
  ∀ (b c : Bench) (frame rest : List BitBeat) (k : Nat) (w : Walk),
    b.wired = false → b.st.dec.ctl.st = .idle → isFrame BitBeat.last frame = true →
    b.decQ = frame ++ rest → b.decGot = [] →
    w = walkBits b.st.readRom b.st.root (bitPayload frame) →
    frame.length + w.out.length + 1 ≤ k →
    c = (b.edge (Wish.write Reg.cmd.index (encode .decStart))).settle k →
    c.decQ = rest ∧ c.st.rom = b.st.rom ∧ c.st.root = b.st.root ∧
    c.st.dec.ctl.st = .idle ∧ c.st.dec.ctl.done = true ∧
    (∀ x, decodeSeq b.st.readRom b.st.root (bitPayload frame) = .ok x →
      c.decGot = symFrame x ∧ c.st.dec.ctl.err = .none ∧
      c.st.dec.bitCnt = BitVec.ofNat 32 (bitPayload frame).length ∧
      c.st.dec.symCnt = BitVec.ofNat 32 x.length ∧ c.st.dec.cur = b.st.root ∧
      c.st.dec.mid = false) ∧
    (decodeSeq b.st.readRom b.st.root (bitPayload frame) = .error .malformedStream →
      c.decGot = symFrame w.out ∧ c.st.dec.ctl.err = .malformedStream ∧
      c.st.dec.mid = true ∧ c.st.dec.cur = w.cur) ∧
    (decodeSeq b.st.readRom b.st.root (bitPayload frame) = .error .singleSymbolInput →
      c.decGot = symFrame [] ∧ c.st.dec.ctl.err = .singleSymbolInput ∧ c.st.dec.bitCnt = 0)

/-- 41_frequency_counter.md R147: a counting operation in an environment that always offers (that of the
bench, log entry 18). -/
def Obligations.CountOperationContract : Prop :=
  ∀ (b c : Bench) (frame rest : List SymBeat) (k : Nat) (xs : List Sym) (h : Sym → Nat),
    b.st.params.hasFc = true → b.st.fc.ctl.st = .idle → isFrame SymBeat.last frame = true →
    b.fcQ = frame ++ rest → (∀ x ∈ symPayload frame, fitsWidth b.st.params.symW x) →
    b.st.params.legal = true → b.st.Stored →
    xs = symPayload frame → h = (fun x => (b.st.readHist x).toNat) → frame.length ≤ k →
    c = (b.edge (Wish.write Reg.cmd.index (encode .fcStart))).settle k →
    c.fcQ = rest ∧ c.st.fc.ctl.st = .idle ∧ c.st.fc.ctl.done = true ∧
    ((∀ j, ¬ overflowsAt h (2 ^ b.st.params.cntW - 1) xs j) →
      c.st.fc.ctl.err = .none ∧
      (∀ x, fitsWidth b.st.params.symW x → (c.st.readHist x).toNat = h x + xs.count x) ∧
      c.st.fc.total = b.st.fc.total + BitVec.ofNat 32 xs.length) ∧
    (∀ j x, overflowsAt h (2 ^ b.st.params.cntW - 1) xs j →
      (∀ i, i < j → ¬ overflowsAt h (2 ^ b.st.params.cntW - 1) xs i) → xs[j]? = some x →
      c.st.fc.ctl.err = .countOverflow ∧ c.st.fc.errSym = x ∧
      (∀ z, fitsWidth b.st.params.symW z →
        (c.st.readHist z).toNat = h z + (xs.take j).count z) ∧
      c.st.fc.total = b.st.fc.total + BitVec.ofNat 32 j)

/-- 43_encoder.md R180, 70_reset_and_hazards.md R247: under any schedule of offers and acceptances, and
whatever else the host does short of a reset or a new ENC_START, what `enc_out` has carried is the front of
the one frame of the operation, and all of it once ENC_DONE is 1. An environment that changes a beat it
offers is not covered (log entry 18). -/
def Obligations.EncodeOutputUnderAnySchedule : Prop :=
  ∀ (b c : Bench) (w : Wish) (ws : List Wish) (frame rest : List SymBeat) (y : List Bool),
    b.wired = false → b.st.enc.ctl.st = .idle → isFrame SymBeat.last frame = true →
    b.encQ = frame ++ rest → b.encGot = [] →
    w.rst = false → w.host = some (Reg.cmd.index, encode .encStart) →
    (∀ v ∈ ws, v.rst = false ∧ v.host ≠ some (Reg.cmd.index, encode .softReset) ∧
      v.host ≠ some (Reg.cmd.index, encode .encStart)) →
    y = codesOf b.st.readLut (encodable b.st.readLut (symPayload frame)) →
    c = (b.edge w).run ws →
    c.encGot <+: bitFrame y ∧
    (c.st.enc.ctl.done = true → c.encGot = bitFrame y ∧ c.encQ = rest)

/-- 44_decoder.md R195, 70_reset_and_hazards.md R247: under any schedule of offers and acceptances, and
whatever else the host does short of a reset or a new DEC_START, what `dec_out` has carried is the front of
the one frame of the operation, and all of it once DEC_DONE is 1. An environment that changes a beat it
offers is not covered (log entry 18). -/
def Obligations.DecodeOutputUnderAnySchedule : Prop :=
  ∀ (b c : Bench) (w : Wish) (ws : List Wish) (frame rest : List BitBeat) (x : List Sym),
    b.wired = false → b.st.dec.ctl.st = .idle → isFrame BitBeat.last frame = true →
    b.decQ = frame ++ rest → b.decGot = [] →
    w.rst = false → w.host = some (Reg.cmd.index, encode .decStart) →
    (∀ v ∈ ws, v.rst = false ∧ v.host ≠ some (Reg.cmd.index, encode .softReset) ∧
      v.host ≠ some (Reg.cmd.index, encode .decStart)) →
    x = (if (b.st.readRom b.st.root).leaf then []
         else (walkBits b.st.readRom b.st.root (bitPayload frame)).out) →
    c = (b.edge w).run ws →
    c.decGot <+: symFrame x ∧
    (c.st.dec.ctl.done = true → c.decGot = symFrame x ∧ c.decQ = rest)

/-- 60_exceptions.md R207: the result of an operation is the value of the source's function if that has
one, and none if the operation met an error, whatever beats it or an operation before it left behind. The
counter's result is the FrequencyMap of its frame if it began from a cleared histogram
(41_frequency_counter.md R146). The environment is that of the bench (log entry 18). -/
def Obligations.ResultsAreThoseOfTheSource : Prop :=
  (∀ (b c : Bench) (frame rest : List SymBeat) (k : Nat),
    b.wired = false → b.st.enc.ctl.st = .idle → isFrame SymBeat.last frame = true →
    b.encQ = frame ++ rest →
    frame.length + (codesOf b.st.readLut (encodable b.st.readLut (symPayload frame))).length + 1 ≤ k →
    c = (b.edge (Wish.write Reg.cmd.index (encode .encStart))).settle k →
    c.encResult = (encodeSeq b.st.readLut (symPayload frame)).toOption) ∧
  (∀ (b c : Bench) (frame rest : List BitBeat) (k : Nat),
    b.wired = false → b.st.dec.ctl.st = .idle → isFrame BitBeat.last frame = true →
    b.decQ = frame ++ rest →
    frame.length + (walkBits b.st.readRom b.st.root (bitPayload frame)).out.length + 1 ≤ k →
    c = (b.edge (Wish.write Reg.cmd.index (encode .decStart))).settle k →
    c.decResult = (decodeSeq b.st.readRom b.st.root (bitPayload frame)).toOption) ∧
  (∀ (b c : Bench) (frame rest : List SymBeat) (k : Nat) (symbols : List Sym),
    b.st.params.hasFc = true → b.st.fc.ctl.st = .idle → isFrame SymBeat.last frame = true →
    b.fcQ = frame ++ rest → (∀ x ∈ symPayload frame, fitsWidth b.st.params.symW x) →
    b.st.params.legal = true → (∀ x, b.st.readHist x = 0) →
    (∀ x ∈ symbols, fitsWidth b.st.params.symW x) → frame.length ≤ k →
    c = (b.edge (Wish.write Reg.cmd.index (encode .fcStart))).settle k →
    ((∀ j, ¬ overflowsAt (fun _ => 0) (2 ^ b.st.params.cntW - 1) (symPayload frame) j) →
      c.st.fcResult symbols = some (countMap symbols (symPayload frame))) ∧
    (∀ j, overflowsAt (fun _ => 0) (2 ^ b.st.params.cntW - 1) (symPayload frame) j →
      c.st.fcResult symbols = none))

/-! ## Tables and trees -/

/-- 42_host_tree_and_table.md R163: over a matched pair, decoding what was encoded gives the sequence
back. -/
def Obligations.RoundTripOverAMatchedPair : Prop :=
  ∀ (isSym : Sym → Prop) (lut : Sym → LutWord) (rom : Handle → RomWord) (root : Handle)
    (x : List Sym),
    Matched isSym lut rom root → (∀ s ∈ x, isSym s ∧ hasCode lut s = true) →
    ∃ y, encodeSeq lut x = .ok y ∧ decodeSeq rom root y = .ok x

/-- 42_host_tree_and_table.md R162: a matched pair has a well-formed LUT. -/
def Obligations.MatchedPairHasPrefixFreeLut : Prop :=
  ∀ (isSym : Sym → Prop) (lut : Sym → LutWord) (rom : Handle → RomWord) (root : Handle),
    Matched isSym lut rom root → LutImageWf isSym lut

/-- 42_host_tree_and_table.md R151: buildTree fails on the empty map and on one key, and on nothing
else. -/
def Obligations.BuildTreeFailsOnlyOnFewKeys : Prop :=
  buildTree [] = .error .emptyInput ∧
  (∀ e, buildTree [e] = .error .singleSymbolInput) ∧
  (∀ f : FreqMap, 2 ≤ f.length → ∃ t, buildTree f = .ok t)

/-- 42_host_tree_and_table.md R155: the invariants of the tree built: weights add up, the root weighs the
sum of the counts, the leaves are exactly the keys with their counts. -/
def Obligations.BuiltTreeInvariants : Prop :=
  ∀ (f : FreqMap) (t : Tree), buildTree f = .ok t →
    t.weighed ∧ t.weight = (f.map Prod.snd).sum ∧ t.leaves.Perm f

/-- 42_host_tree_and_table.md R156: the code table of a tree with two leaves or more and distinct symbols
has one row for each leaf, no empty code, and is prefix-free. -/
def Obligations.CodeTableIsPrefixFree : Prop :=
  ∀ t : Tree, 2 ≤ t.leaves.length → (t.leaves.map Prod.fst).Nodup →
    (buildCodeTable t).map Prod.fst = t.leaves.map Prod.fst ∧
    (∀ r ∈ buildCodeTable t, 1 ≤ r.2.length) ∧
    (∀ r ∈ buildCodeTable t, ∀ q ∈ buildCodeTable t, r.1 ≠ q.1 → ¬ r.2 <+: q.2)

/-- 42_host_tree_and_table.md R162: the images built from one FrequencyMap that fits the build are a
matched pair. -/
def Obligations.BuiltImagesAreMatched : Prop :=
  ∀ (p : Params) (f : FreqMap) (b : Built) (others : Handle → RomWord),
    p.legal = true → f.wf → build f = .ok b → capacity p b = .ok () →
    Matched (fitsWidth p.symW) (lutImage (buildCodeTable b.tree)) (romImage others b.rom)
      (BitVec.ofNat 32 b.root)
end

