-- ==== Sys2Proof/Laws/Decode.lean ====
section
/-! SUPPORT. The fields of a command word and the one opcode map, for decoding and encoding. -/

namespace Sys2Proof

theorem lookup_opcodeMap (o : BitVec 8) (i : Instr) :
    opcodeMap.lookup o = some i ↔ o = opcode i := by
  constructor
  · intro h
    simp only [opcodeMap, List.lookup] at h
    repeat' split at h
    all_goals first
      | (simp at h; done)
      | (simp only [Option.some.injEq] at h; subst h; rename_i hh; simpa [opcode] using hh)
  · rintro rfl; cases i <;> rfl

theorem cmdZ_append_cmdOp (w : Word) : cmdZ w ++ cmdOp w = w := by
  simp only [cmdZ, cmdOp]
  apply BitVec.eq_of_getLsbD_eq
  intro i hi
  rw [BitVec.getLsbD_append]
  split
  · simp [BitVec.getLsbD_extractLsb']; omega
  · simp [BitVec.getLsbD_extractLsb', show 8 + (i - 8) = i by omega]; omega

@[simp] theorem cmdZ_encode (i : Instr) : cmdZ (encode i) = 0 := by cases i <;> rfl

@[simp] theorem cmdOp_encode (i : Instr) : cmdOp (encode i) = opcode i := by cases i <;> rfl

theorem opcode_injective {i j : Instr} (h : opcode i = opcode j) : i = j := by
  have := (lookup_opcodeMap (opcode i) i).2 rfl
  rw [h, (lookup_opcodeMap (opcode j) j).2 rfl] at this
  exact (Option.some.inj this).symm

theorem encode_injective {i j : Instr} (h : encode i = encode j) : i = j :=
  opcode_injective (by rw [← cmdOp_encode, ← cmdOp_encode, h])

@[simp] theorem decode_encode (i : Instr) : decode (encode i) = .ok i := by cases i <;> rfl

/-- A decoded word is the word of its command. -/
theorem decode_sound {w : Word} {i : Instr} (h : decode w = .ok i) : w = encode i := by
  unfold decode at h
  split at h
  · simp at h
  · rename_i hz
    split at h
    · rename_i j hj
      simp only [Except.ok.injEq] at h
      subst h
      rw [lookup_opcodeMap] at hj
      simp only [ne_eq, Decidable.not_not] at hz
      rw [← cmdZ_append_cmdOp w, hz, hj]
      rfl
    · simp at h

end Sys2Proof
end

