-- ==== Sys2Proof/Laws/State.lean ====
section
/-! SUPPORT. Each update of the state, field by field, so that no proof unfolds a record update. -/

namespace Sys2Proof.Machine

section
variable (s : State) (e : Encoder)

@[simp] theorem State.setEnc_params : (s.setEnc e).params = s.params := rfl
@[simp] theorem State.setEnc_resets : (s.setEnc e).resets = s.resets := rfl
@[simp] theorem State.setEnc_pins : (s.setEnc e).pins = s.pins := rfl
@[simp] theorem State.setEnc_enc : (s.setEnc e).enc = e := rfl
@[simp] theorem State.setEnc_dec : (s.setEnc e).dec = s.dec := rfl
@[simp] theorem State.setEnc_fc : (s.setEnc e).fc = s.fc := rfl
@[simp] theorem State.setEnc_regs : (s.setEnc e).regs = s.regs := rfl
@[simp] theorem State.setEnc_root : (s.setEnc e).root = s.root := rfl
@[simp] theorem State.setEnc_cmdErr : (s.setEnc e).cmdErr = s.cmdErr := rfl
@[simp] theorem State.setEnc_lut : (s.setEnc e).lut = s.lut := rfl
@[simp] theorem State.setEnc_rom : (s.setEnc e).rom = s.rom := rfl
@[simp] theorem State.setEnc_hist : (s.setEnc e).hist = s.hist := rfl

theorem State.setEnc_self : s.setEnc s.enc = s := rfl
@[simp] theorem State.setEnc_setEnc (e' : Encoder) : (s.setEnc e).setEnc e' = s.setEnc e' := rfl

end

section
variable (s : State) (d : Decoder)

@[simp] theorem State.setDec_params : (s.setDec d).params = s.params := rfl
@[simp] theorem State.setDec_resets : (s.setDec d).resets = s.resets := rfl
@[simp] theorem State.setDec_pins : (s.setDec d).pins = s.pins := rfl
@[simp] theorem State.setDec_enc : (s.setDec d).enc = s.enc := rfl
@[simp] theorem State.setDec_dec : (s.setDec d).dec = d := rfl
@[simp] theorem State.setDec_fc : (s.setDec d).fc = s.fc := rfl
@[simp] theorem State.setDec_regs : (s.setDec d).regs = s.regs := rfl
@[simp] theorem State.setDec_root : (s.setDec d).root = s.root := rfl
@[simp] theorem State.setDec_cmdErr : (s.setDec d).cmdErr = s.cmdErr := rfl
@[simp] theorem State.setDec_lut : (s.setDec d).lut = s.lut := rfl
@[simp] theorem State.setDec_rom : (s.setDec d).rom = s.rom := rfl
@[simp] theorem State.setDec_hist : (s.setDec d).hist = s.hist := rfl

theorem State.setDec_self : s.setDec s.dec = s := rfl
@[simp] theorem State.setDec_setDec (d' : Decoder) : (s.setDec d).setDec d' = s.setDec d' := rfl

end

section
variable (s : State) (c : Counter)

@[simp] theorem State.setFc_params : (s.setFc c).params = s.params := rfl
@[simp] theorem State.setFc_resets : (s.setFc c).resets = s.resets := rfl
@[simp] theorem State.setFc_pins : (s.setFc c).pins = s.pins := rfl
@[simp] theorem State.setFc_enc : (s.setFc c).enc = s.enc := rfl
@[simp] theorem State.setFc_dec : (s.setFc c).dec = s.dec := rfl
@[simp] theorem State.setFc_fc : (s.setFc c).fc = c := rfl
@[simp] theorem State.setFc_regs : (s.setFc c).regs = s.regs := rfl
@[simp] theorem State.setFc_root : (s.setFc c).root = s.root := rfl
@[simp] theorem State.setFc_cmdErr : (s.setFc c).cmdErr = s.cmdErr := rfl
@[simp] theorem State.setFc_lut : (s.setFc c).lut = s.lut := rfl
@[simp] theorem State.setFc_rom : (s.setFc c).rom = s.rom := rfl
@[simp] theorem State.setFc_hist : (s.setFc c).hist = s.hist := rfl

theorem State.setFc_self : s.setFc s.fc = s := rfl
@[simp] theorem State.setFc_setFc (c' : Counter) : (s.setFc c).setFc c' = s.setFc c' := rfl

end

section
variable (s : State) (r : Operands)

@[simp] theorem State.setRegs_params : (s.setRegs r).params = s.params := rfl
@[simp] theorem State.setRegs_resets : (s.setRegs r).resets = s.resets := rfl
@[simp] theorem State.setRegs_pins : (s.setRegs r).pins = s.pins := rfl
@[simp] theorem State.setRegs_enc : (s.setRegs r).enc = s.enc := rfl
@[simp] theorem State.setRegs_dec : (s.setRegs r).dec = s.dec := rfl
@[simp] theorem State.setRegs_fc : (s.setRegs r).fc = s.fc := rfl
@[simp] theorem State.setRegs_regs : (s.setRegs r).regs = r := rfl
@[simp] theorem State.setRegs_root : (s.setRegs r).root = s.root := rfl
@[simp] theorem State.setRegs_cmdErr : (s.setRegs r).cmdErr = s.cmdErr := rfl
@[simp] theorem State.setRegs_lut : (s.setRegs r).lut = s.lut := rfl
@[simp] theorem State.setRegs_rom : (s.setRegs r).rom = s.rom := rfl
@[simp] theorem State.setRegs_hist : (s.setRegs r).hist = s.hist := rfl

theorem State.setRegs_self : s.setRegs s.regs = s := rfl
@[simp] theorem State.setRegs_setRegs (r' : Operands) : (s.setRegs r).setRegs r' = s.setRegs r' := rfl

end

section
variable (s : State) (h : Handle)

@[simp] theorem State.setRoot_params : (s.setRoot h).params = s.params := rfl
@[simp] theorem State.setRoot_resets : (s.setRoot h).resets = s.resets := rfl
@[simp] theorem State.setRoot_pins : (s.setRoot h).pins = s.pins := rfl
@[simp] theorem State.setRoot_enc : (s.setRoot h).enc = s.enc := rfl
@[simp] theorem State.setRoot_dec : (s.setRoot h).dec = s.dec := rfl
@[simp] theorem State.setRoot_fc : (s.setRoot h).fc = s.fc := rfl
@[simp] theorem State.setRoot_regs : (s.setRoot h).regs = s.regs := rfl
@[simp] theorem State.setRoot_root : (s.setRoot h).root = h := rfl
@[simp] theorem State.setRoot_cmdErr : (s.setRoot h).cmdErr = s.cmdErr := rfl
@[simp] theorem State.setRoot_lut : (s.setRoot h).lut = s.lut := rfl
@[simp] theorem State.setRoot_rom : (s.setRoot h).rom = s.rom := rfl
@[simp] theorem State.setRoot_hist : (s.setRoot h).hist = s.hist := rfl

theorem State.setRoot_self : s.setRoot s.root = s := rfl
@[simp] theorem State.setRoot_setRoot (h' : Handle) : (s.setRoot h).setRoot h' = s.setRoot h' := rfl

end

section
variable (s : State) (b : Bool)

@[simp] theorem State.setCmdErr_params : (s.setCmdErr b).params = s.params := rfl
@[simp] theorem State.setCmdErr_resets : (s.setCmdErr b).resets = s.resets := rfl
@[simp] theorem State.setCmdErr_pins : (s.setCmdErr b).pins = s.pins := rfl
@[simp] theorem State.setCmdErr_enc : (s.setCmdErr b).enc = s.enc := rfl
@[simp] theorem State.setCmdErr_dec : (s.setCmdErr b).dec = s.dec := rfl
@[simp] theorem State.setCmdErr_fc : (s.setCmdErr b).fc = s.fc := rfl
@[simp] theorem State.setCmdErr_regs : (s.setCmdErr b).regs = s.regs := rfl
@[simp] theorem State.setCmdErr_root : (s.setCmdErr b).root = s.root := rfl
@[simp] theorem State.setCmdErr_cmdErr : (s.setCmdErr b).cmdErr = b := rfl
@[simp] theorem State.setCmdErr_lut : (s.setCmdErr b).lut = s.lut := rfl
@[simp] theorem State.setCmdErr_rom : (s.setCmdErr b).rom = s.rom := rfl
@[simp] theorem State.setCmdErr_hist : (s.setCmdErr b).hist = s.hist := rfl

theorem State.setCmdErr_self : s.setCmdErr s.cmdErr = s := rfl
@[simp] theorem State.setCmdErr_setCmdErr (b' : Bool) : (s.setCmdErr b).setCmdErr b' = s.setCmdErr b' := rfl

end

section
variable (s : State) (m : Memory LutWord)

@[simp] theorem State.setLut_params : (s.setLut m).params = s.params := rfl
@[simp] theorem State.setLut_resets : (s.setLut m).resets = s.resets := rfl
@[simp] theorem State.setLut_pins : (s.setLut m).pins = s.pins := rfl
@[simp] theorem State.setLut_enc : (s.setLut m).enc = s.enc := rfl
@[simp] theorem State.setLut_dec : (s.setLut m).dec = s.dec := rfl
@[simp] theorem State.setLut_fc : (s.setLut m).fc = s.fc := rfl
@[simp] theorem State.setLut_regs : (s.setLut m).regs = s.regs := rfl
@[simp] theorem State.setLut_root : (s.setLut m).root = s.root := rfl
@[simp] theorem State.setLut_cmdErr : (s.setLut m).cmdErr = s.cmdErr := rfl
@[simp] theorem State.setLut_lut : (s.setLut m).lut = m := rfl
@[simp] theorem State.setLut_rom : (s.setLut m).rom = s.rom := rfl
@[simp] theorem State.setLut_hist : (s.setLut m).hist = s.hist := rfl

theorem State.setLut_self : s.setLut s.lut = s := rfl
@[simp] theorem State.setLut_setLut (m' : Memory LutWord) : (s.setLut m).setLut m' = s.setLut m' := rfl

end

section
variable (s : State) (m : Memory RomWord)

@[simp] theorem State.setRom_params : (s.setRom m).params = s.params := rfl
@[simp] theorem State.setRom_resets : (s.setRom m).resets = s.resets := rfl
@[simp] theorem State.setRom_pins : (s.setRom m).pins = s.pins := rfl
@[simp] theorem State.setRom_enc : (s.setRom m).enc = s.enc := rfl
@[simp] theorem State.setRom_dec : (s.setRom m).dec = s.dec := rfl
@[simp] theorem State.setRom_fc : (s.setRom m).fc = s.fc := rfl
@[simp] theorem State.setRom_regs : (s.setRom m).regs = s.regs := rfl
@[simp] theorem State.setRom_root : (s.setRom m).root = s.root := rfl
@[simp] theorem State.setRom_cmdErr : (s.setRom m).cmdErr = s.cmdErr := rfl
@[simp] theorem State.setRom_lut : (s.setRom m).lut = s.lut := rfl
@[simp] theorem State.setRom_rom : (s.setRom m).rom = m := rfl
@[simp] theorem State.setRom_hist : (s.setRom m).hist = s.hist := rfl

theorem State.setRom_self : s.setRom s.rom = s := rfl
@[simp] theorem State.setRom_setRom (m' : Memory RomWord) : (s.setRom m).setRom m' = s.setRom m' := rfl

end

section
variable (s : State) (m : Memory Word)

@[simp] theorem State.setHist_params : (s.setHist m).params = s.params := rfl
@[simp] theorem State.setHist_resets : (s.setHist m).resets = s.resets := rfl
@[simp] theorem State.setHist_pins : (s.setHist m).pins = s.pins := rfl
@[simp] theorem State.setHist_enc : (s.setHist m).enc = s.enc := rfl
@[simp] theorem State.setHist_dec : (s.setHist m).dec = s.dec := rfl
@[simp] theorem State.setHist_fc : (s.setHist m).fc = s.fc := rfl
@[simp] theorem State.setHist_regs : (s.setHist m).regs = s.regs := rfl
@[simp] theorem State.setHist_root : (s.setHist m).root = s.root := rfl
@[simp] theorem State.setHist_cmdErr : (s.setHist m).cmdErr = s.cmdErr := rfl
@[simp] theorem State.setHist_lut : (s.setHist m).lut = s.lut := rfl
@[simp] theorem State.setHist_rom : (s.setHist m).rom = s.rom := rfl
@[simp] theorem State.setHist_hist : (s.setHist m).hist = m := rfl

theorem State.setHist_self : s.setHist s.hist = s := rfl
@[simp] theorem State.setHist_setHist (m' : Memory Word) : (s.setHist m).setHist m' = s.setHist m' := rfl

end

section
variable (s : State) (ps : List Pins)

@[simp] theorem State.setPins_params : (s.setPins ps).params = s.params := rfl
@[simp] theorem State.setPins_resets : (s.setPins ps).resets = s.resets := rfl
@[simp] theorem State.setPins_pins : (s.setPins ps).pins = ps := rfl
@[simp] theorem State.setPins_enc : (s.setPins ps).enc = s.enc := rfl
@[simp] theorem State.setPins_dec : (s.setPins ps).dec = s.dec := rfl
@[simp] theorem State.setPins_fc : (s.setPins ps).fc = s.fc := rfl
@[simp] theorem State.setPins_regs : (s.setPins ps).regs = s.regs := rfl
@[simp] theorem State.setPins_root : (s.setPins ps).root = s.root := rfl
@[simp] theorem State.setPins_cmdErr : (s.setPins ps).cmdErr = s.cmdErr := rfl
@[simp] theorem State.setPins_lut : (s.setPins ps).lut = s.lut := rfl
@[simp] theorem State.setPins_rom : (s.setPins ps).rom = s.rom := rfl
@[simp] theorem State.setPins_hist : (s.setPins ps).hist = s.hist := rfl

theorem State.setPins_self : s.setPins s.pins = s := rfl
@[simp] theorem State.setPins_setPins (ps' : List Pins) : (s.setPins ps).setPins ps' = s.setPins ps' := rfl

end

section
variable (s : State)

@[simp] theorem State.reject_params : s.reject.params = s.params := rfl
@[simp] theorem State.reject_resets : s.reject.resets = s.resets := rfl
@[simp] theorem State.reject_pins : s.reject.pins = s.pins := rfl
@[simp] theorem State.reject_enc : s.reject.enc = s.enc := rfl
@[simp] theorem State.reject_dec : s.reject.dec = s.dec := rfl
@[simp] theorem State.reject_fc : s.reject.fc = s.fc := rfl
@[simp] theorem State.reject_regs : s.reject.regs = s.regs := rfl
@[simp] theorem State.reject_root : s.reject.root = s.root := rfl
@[simp] theorem State.reject_cmdErr : s.reject.cmdErr = true := rfl
@[simp] theorem State.reject_lut : s.reject.lut = s.lut := rfl
@[simp] theorem State.reject_rom : s.reject.rom = s.rom := rfl
@[simp] theorem State.reject_hist : s.reject.hist = s.hist := rfl

@[simp] theorem State.softReset_params : s.softReset.params = s.params := rfl
@[simp] theorem State.softReset_resets : s.softReset.resets = s.resets := rfl
@[simp] theorem State.softReset_pins : s.softReset.pins = s.pins := rfl
@[simp] theorem State.softReset_enc : s.softReset.enc = .reset := rfl
@[simp] theorem State.softReset_dec : s.softReset.dec = .reset := rfl
@[simp] theorem State.softReset_fc : s.softReset.fc = .reset := rfl
@[simp] theorem State.softReset_regs : s.softReset.regs = .reset := rfl
@[simp] theorem State.softReset_root : s.softReset.root = 0 := rfl
@[simp] theorem State.softReset_cmdErr : s.softReset.cmdErr = false := rfl
@[simp] theorem State.softReset_lut : s.softReset.lut = s.lut := rfl
@[simp] theorem State.softReset_rom : s.softReset.rom = s.rom := rfl
@[simp] theorem State.softReset_hist : s.softReset.hist = s.hist := rfl

@[simp] theorem State.hardReset_params : s.hardReset.params = s.params := rfl
@[simp] theorem State.hardReset_resets : s.hardReset.resets = s.resets + 1 := rfl
@[simp] theorem State.hardReset_pins : s.hardReset.pins = s.pins := rfl
@[simp] theorem State.hardReset_enc : s.hardReset.enc = .reset := rfl
@[simp] theorem State.hardReset_dec : s.hardReset.dec = .reset := rfl
@[simp] theorem State.hardReset_fc : s.hardReset.fc = .reset := rfl
@[simp] theorem State.hardReset_regs : s.hardReset.regs = .reset := rfl
@[simp] theorem State.hardReset_root : s.hardReset.root = 0 := rfl
@[simp] theorem State.hardReset_cmdErr : s.hardReset.cmdErr = false := rfl
@[simp] theorem State.hardReset_lut : s.hardReset.lut = .unspecified LutWord (s.resets + 1) := rfl
@[simp] theorem State.hardReset_rom : s.hardReset.rom = .unspecified RomWord (s.resets + 1) := rfl
@[simp] theorem State.hardReset_hist : s.hardReset.hist = .unspecified Word (s.resets + 1) := rfl

end

end Sys2Proof.Machine
end

