-- ==== Sys2Proof/Laws/Memory.lean ====
section
/-! SUPPORT. What the memory operations do and that they keep the canonical form. -/

namespace Sys2Proof.Machine

variable {W : Type}

theorem cellAt_putCell (a b : Nat) (w : W) (l : List (Nat × W)) :
    cellAt b (putCell a w l) = if a = b then some w else cellAt b l := by
  induction l with
  | nil => simp [putCell, cellAt]
  | cons c rest ih =>
    obtain ⟨i, v⟩ := c
    simp only [putCell]
    split
    · simp [cellAt]
    · split
      · subst_vars; simp only [cellAt]; split <;> rfl
      · simp only [cellAt, ih]
        split
        · split
          · omega
          · rfl
        · rfl

theorem cellAt_dropCell (a b : Nat) (l : List (Nat × W)) :
    cellAt b (dropCell a l) = if a = b then none else cellAt b l := by
  induction l with
  | nil => simp [dropCell, cellAt]
  | cons c rest ih =>
    obtain ⟨i, v⟩ := c
    simp only [dropCell]
    split
    · subst_vars; rw [ih]; simp only [cellAt]; split <;> rfl
    · simp only [cellAt, ih]
      split
      · split
        · omega
        · rfl
      · rfl

/-- A read after a write gives the written word at its index and what was there elsewhere. -/
theorem Memory.read_write [DecidableEq W] (free : Nat → Nat → W) (m : Memory W) (a b : Nat)
    (w : W) : (m.write a w).read free b = if a = b then w else m.read free b := by
  unfold Memory.write
  split
  · rename_i h
    simp only [Memory.read, Memory.unlisted, cellAt_dropCell]
    by_cases hab : a = b
    · simp [hab, h]
    · simp [hab]
  · simp only [Memory.read, Memory.unlisted, cellAt_putCell]
    by_cases hab : a = b <;> simp [hab]

@[simp] theorem Memory.read_clear (free : Nat → Nat → W) (w : W) (a : Nat) :
    (Memory.clear w).read free a = w := rfl

@[simp] theorem Memory.read_unspecified (free : Nat → Nat → W) (n a : Nat) :
    (Memory.unspecified W n).read free a = free n a := rfl

@[simp] theorem Memory.write_fill [DecidableEq W] (m : Memory W) (a : Nat) (w : W) :
    (m.write a w).fill = m.fill := by
  unfold Memory.write; split <;> rfl

theorem rising_cons_iff (c : Nat × W) (l : List (Nat × W)) :
    Memory.rising (c :: l) = true ↔
      (∀ d ∈ l.head?, c.1 < d.1) ∧ Memory.rising l = true := by
  cases l with
  | nil => simp [Memory.rising]
  | cons d rest => obtain ⟨a, v⟩ := c; obtain ⟨b, w⟩ := d; simp [Memory.rising]

theorem rising_iff_pairwise (l : List (Nat × W)) :
    Memory.rising l = true ↔ l.Pairwise (fun c d => c.1 < d.1) := by
  induction l with
  | nil => simp [Memory.rising]
  | cons c rest ih =>
    rw [rising_cons_iff, List.pairwise_cons, ih]
    constructor
    · rintro ⟨h, hp⟩
      refine ⟨?_, hp⟩
      cases rest with
      | nil => simp
      | cons d rest' =>
        have h1 : c.1 < d.1 := h d (by simp)
        intro e he
        rcases List.mem_cons.1 he with rfl | he
        · exact h1
        · exact lt_trans h1 ((List.pairwise_cons.1 hp).1 e he)
    · rintro ⟨h, hp⟩
      exact ⟨fun d hd => h d (List.mem_of_mem_head? hd), hp⟩

theorem mem_putCell {a : Nat} {w : W} {l : List (Nat × W)} {c : Nat × W}
    (h : c ∈ putCell a w l) : c = (a, w) ∨ c ∈ l := by
  induction l with
  | nil => simpa [putCell] using h
  | cons d rest ih =>
    obtain ⟨i, v⟩ := d
    simp only [putCell] at h
    split at h
    · simpa using h
    · split at h
      · rcases List.mem_cons.1 h with h | h
        · exact .inl h
        · exact .inr (List.mem_cons_of_mem _ h)
      · rcases List.mem_cons.1 h with h | h
        · exact .inr (by simp [h])
        · exact (ih h).imp id (List.mem_cons_of_mem _)

theorem mem_dropCell {a : Nat} {l : List (Nat × W)} {c : Nat × W}
    (h : c ∈ dropCell a l) : c ∈ l := by
  induction l with
  | nil => simp [dropCell] at h
  | cons d rest ih =>
    obtain ⟨i, v⟩ := d
    simp only [dropCell] at h
    split at h
    · exact List.mem_cons_of_mem _ (ih h)
    · rcases List.mem_cons.1 h with h | h
      · simp [h]
      · exact List.mem_cons_of_mem _ (ih h)

theorem putCell_pairwise {a : Nat} {w : W} {l : List (Nat × W)}
    (h : l.Pairwise (fun c d => c.1 < d.1)) :
    (putCell a w l).Pairwise (fun c d => c.1 < d.1) := by
  induction l with
  | nil => simp [putCell]
  | cons d rest ih =>
    obtain ⟨i, v⟩ := d
    obtain ⟨h1, h2⟩ := List.pairwise_cons.1 h
    simp only [putCell]
    split
    · rename_i hlt
      refine List.pairwise_cons.2 ⟨?_, h⟩
      intro e he
      rcases List.mem_cons.1 he with rfl | he
      · exact hlt
      · exact lt_trans hlt (h1 e he)
    · split
      · rename_i heq
        exact List.pairwise_cons.2 ⟨fun e he => by simpa [heq] using h1 e he, h2⟩
      · refine List.pairwise_cons.2 ⟨?_, ih h2⟩
        intro e he
        rcases mem_putCell he with rfl | he
        · simp only; omega
        · exact h1 e he

theorem dropCell_pairwise {a : Nat} {l : List (Nat × W)}
    (h : l.Pairwise (fun c d => c.1 < d.1)) :
    (dropCell a l).Pairwise (fun c d => c.1 < d.1) := by
  induction l with
  | nil => simp [dropCell]
  | cons d rest ih =>
    obtain ⟨i, v⟩ := d
    obtain ⟨h1, h2⟩ := List.pairwise_cons.1 h
    simp only [dropCell]
    split
    · exact ih h2
    · exact List.pairwise_cons.2 ⟨fun e he => h1 e (mem_dropCell he), ih h2⟩

/-- The canonical form, said of the cells. -/
theorem Memory.wf_iff [DecidableEq W] (m : Memory W) :
    m.wf = true ↔
      m.cells.Pairwise (fun c d => c.1 < d.1) ∧ ∀ c ∈ m.cells, m.fill ≠ .all c.2 := by
  simp [Memory.wf, rising_iff_pairwise]

/-- A write keeps the canonical form. -/
theorem Memory.wf_write [DecidableEq W] {m : Memory W} (h : m.wf = true) (a : Nat) (w : W) :
    (m.write a w).wf = true := by
  rw [Memory.wf_iff] at h ⊢
  obtain ⟨hp, hv⟩ := h
  unfold Memory.write
  split
  · exact ⟨dropCell_pairwise hp, fun c hc => hv c (mem_dropCell hc)⟩
  · rename_i hne
    refine ⟨putCell_pairwise hp, fun c hc => ?_⟩
    rcases mem_putCell hc with rfl | hc
    · exact hne
    · exact hv c hc

@[simp] theorem Memory.wf_clear [DecidableEq W] (w : W) : (Memory.clear w).wf = true := by
  simp [Memory.wf, Memory.clear, Memory.rising]

@[simp] theorem Memory.wf_unspecified [DecidableEq W] (n : Nat) :
    (Memory.unspecified W n).wf = true := by
  simp [Memory.wf, Memory.unspecified, Memory.rising]

/-- In canonical form equal memories are equal data: the cells are fixed by what each index holds. -/
theorem cells_eq_of_cellAt {l k : List (Nat × W)}
    (hl : l.Pairwise (fun c d => c.1 < d.1)) (hk : k.Pairwise (fun c d => c.1 < d.1))
    (h : ∀ a, cellAt a l = cellAt a k) : l = k := by
  have none_of : ∀ (a : Nat) (m : List (Nat × W)), (∀ e ∈ m, a < e.1) → cellAt a m = none := by
    intro a m hm
    induction m with
    | nil => rfl
    | cons e m ih =>
      have := hm e (by simp)
      simp only [cellAt]
      rw [if_neg (by omega)]
      exact ih fun f hf => hm f (by simp [hf])
  induction l generalizing k with
  | nil =>
    cases k with
    | nil => rfl
    | cons d k => have := h d.1; simp [cellAt] at this
  | cons c l ih =>
    obtain ⟨hc, hl⟩ := List.pairwise_cons.1 hl
    cases k with
    | nil => have := h c.1; simp [cellAt] at this
    | cons d k =>
      obtain ⟨hd, hk'⟩ := List.pairwise_cons.1 hk
      have h1 : c.1 = d.1 := by
        rcases lt_trichotomy c.1 d.1 with hlt | heq | hgt
        · have h2 := h c.1
          simp only [cellAt, if_pos] at h2
          rw [if_neg (by omega)] at h2
          rw [none_of c.1 k fun e he => lt_trans hlt (hd e he)] at h2
          simp at h2
        · exact heq
        · have h2 := h d.1
          simp only [cellAt, if_pos] at h2
          rw [if_neg (by omega), none_of d.1 l fun e he => lt_trans hgt (hc e he)] at h2
          simp at h2
      have h2 : c.2 = d.2 := by
        have := h c.1
        simpa [cellAt, h1] using this
      have hcd : c = d := Prod.ext h1 h2
      subst hcd
      congr 1
      refine ih hl hk' fun a => ?_
      have h3 := h a
      simp only [cellAt] at h3
      by_cases hac : c.1 = a
      · subst hac; rw [none_of c.1 l hc, none_of c.1 k hd]
      · simpa [hac] using h3

end Sys2Proof.Machine
end

