-- ==== Sys2Proof/Laws/Ops.lean ====
section
/-! SUPPORT. One lemma for each shared operation: truncation, access to the three memories, acceptance,
and the sequencing of events. -/

namespace Sys2Proof.Machine

/-! ## Truncation -/

theorem toNat_trunc {n : Nat} (w : Nat) (v : BitVec n) : (trunc w v).toNat = v.toNat % 2 ^ w := by
  simp only [trunc, BitVec.toNat_setWidth]
  exact Nat.mod_eq_of_lt (lt_of_le_of_lt (Nat.mod_le _ _) v.isLt)

theorem fitsWidth_trunc {n : Nat} (w : Nat) (v : BitVec n) : fitsWidth w (trunc w v) := by
  rw [fitsWidth, toNat_trunc]
  exact Nat.mod_lt _ (Nat.two_pow_pos w)

theorem trunc_of_fits {n w : Nat} {v : BitVec n} (h : fitsWidth w v) : trunc w v = v :=
  BitVec.eq_of_toNat_eq (by rw [toNat_trunc, Nat.mod_eq_of_lt h])

@[simp] theorem trunc_trunc {n : Nat} (w : Nat) (v : BitVec n) : trunc w (trunc w v) = trunc w v :=
  trunc_of_fits (fitsWidth_trunc w v)

@[simp] theorem trunc_zero {n : Nat} (w : Nat) : trunc w 0#n = 0#n :=
  BitVec.eq_of_toNat_eq (by simp [toNat_trunc])

theorem fitsWidth_zero {n : Nat} (w : Nat) : fitsWidth w (0 : BitVec n) := by
  simp [fitsWidth]

theorem trunc_of_le {n w : Nat} (h : n ≤ w) (v : BitVec n) : trunc w v = v :=
  trunc_of_fits (lt_of_lt_of_le v.isLt (Nat.pow_le_pow_right (by omega) h))

/-! ## Indices and memory access -/

theorem State.symIndex_lt (s : State) (a : Sym) : s.symIndex a < 2 ^ s.params.symW :=
  fitsWidth_trunc _ _

theorem State.nodeIndex_lt (s : State) (h : Handle) : s.nodeIndex h < 2 ^ s.params.nodeW :=
  fitsWidth_trunc _ _

@[simp] theorem State.readLut_writeLut (s : State) (a b : Sym) (w : LutWord) :
    (s.writeLut a w).readLut b = if s.symIndex a = s.symIndex b then w else s.readLut b :=
  Memory.read_write _ _ _ _ _

@[simp] theorem State.readRom_writeRom (s : State) (g h : Handle) (w : RomWord) :
    (s.writeRom g w).readRom h = if s.nodeIndex g = s.nodeIndex h then w else s.readRom h :=
  Memory.read_write _ _ _ _ _

@[simp] theorem State.readHist_writeHist (s : State) (a b : Sym) (w : Word) :
    (s.writeHist a w).readHist b = if s.symIndex a = s.symIndex b then w else s.readHist b :=
  Memory.read_write _ _ _ _ _

/-- A LUT read depends on the LUT and the build alone. -/
theorem State.readLut_congr {s t : State} (hp : t.params = s.params) (hm : t.lut = s.lut) :
    t.readLut = s.readLut := by
  funext a; simp [State.readLut, State.symIndex, hp, hm]

/-- A ROM read depends on the ROM and the build alone. -/
theorem State.readRom_congr {s t : State} (hp : t.params = s.params) (hm : t.rom = s.rom) :
    t.readRom = s.readRom := by
  funext a; simp [State.readRom, State.nodeIndex, hp, hm]

/-- A HIST read depends on HIST and the build alone. -/
theorem State.readHist_congr {s t : State} (hp : t.params = s.params) (hm : t.hist = s.hist) :
    t.readHist = s.readHist := by
  funext a; simp [State.readHist, State.symIndex, hp, hm]

theorem State.writeLut_frame (s : State) (a : Sym) (w : LutWord) :
    (s.writeLut a w).setLut s.lut = s := rfl

theorem State.writeRom_frame (s : State) (h : Handle) (w : RomWord) :
    (s.writeRom h w).setRom s.rom = s := rfl

theorem State.writeHist_frame (s : State) (a : Sym) (w : Word) :
    (s.writeHist a w).setHist s.hist = s := rfl

/-! ## Acceptance -/

theorem issue_locked (s : State) (f : State → State) : issue s true f = .next s.reject := rfl

theorem issue_free (s : State) (f : State → State) : issue s false f = .next (f s) := rfl

/-- Everything the acceptance check can do. -/
theorem issue_cases {s t : State} {locked : Bool} {f : State → State}
    (h : issue s locked f = .next t) :
    (locked = true ∧ t = s.reject) ∨ (locked = false ∧ t = f s) := by
  cases locked
  · exact .inr ⟨rfl, by simpa [issue] using h.symm⟩
  · exact .inl ⟨rfl, by simpa [issue] using h.symm⟩

/-- The next state of a command, without the outcome around it. -/
theorem exec_next (i : Instr) (s : State) : ∃ t, exec i s = .next t := by
  cases i <;> exact ⟨_, rfl⟩

theorem command_next (w : Word) (s : State) : ∃ t, command w s = .next t := by
  unfold command
  cases decode w with
  | ok i => exact exec_next i s
  | error e => exact ⟨_, rfl⟩

theorem hostWrite_next (i : RegIndex) (v : Word) (s : State) : ∃ t, hostWrite i v s = .next t := by
  unfold hostWrite
  split
  · exact command_next v s
  all_goals exact ⟨_, rfl⟩

theorem Event.apply_next (e : Event) (s : State) : ∃ t, e.apply s = .next t := by
  cases e with
  | write i v => exact hostWrite_next i v s
  | _ => exact ⟨_, rfl⟩

@[simp] theorem andThen_next (s : State) (f : State → Host.Outcome State Fault Refusal) :
    andThen (.next s) f = f s := rfl

theorem runEvents_append (l k : List Event) (s : State) :
    runEvents (l ++ k) s = andThen (runEvents l s) (runEvents k) := by
  induction l generalizing s with
  | nil => rfl
  | cons e l ih =>
    obtain ⟨t, ht⟩ := e.apply_next s
    simp only [List.cons_append, runEvents, ht, andThen_next]
    exact ih t

theorem runEvents_next (l : List Event) (s : State) : ∃ t, runEvents l s = .next t := by
  induction l generalizing s with
  | nil => exact ⟨s, rfl⟩
  | cons e l ih =>
    obtain ⟨t, ht⟩ := e.apply_next s
    simp only [runEvents, ht, andThen_next]
    exact ih t

/-- What an event list keeps, if each of its events keeps it. -/
theorem runEvents_keeps {P : State → Prop} {l : List Event} {s t : State}
    (he : ∀ e ∈ l, ∀ u v, P u → e.apply u = .next v → P v) (hs : P s)
    (h : runEvents l s = .next t) : P t := by
  induction l generalizing s with
  | nil => simp only [runEvents, Host.Outcome.next.injEq] at h; exact h ▸ hs
  | cons e l ih =>
    obtain ⟨u, hu⟩ := e.apply_next s
    simp only [runEvents, hu, andThen_next] at h
    exact ih (fun f hf => he f (List.mem_cons_of_mem _ hf)) (he e (by simp) s u hs hu) h

end Sys2Proof.Machine
end

