-- ==== Sys2Proof/Laws/Reads.lean ====
section
/-! SUPPORT. What a memory read, a port function and a lock depend on: an update of another part of the
state does not reach them. -/

namespace Sys2Proof.Machine

variable (s : State)

@[simp] theorem State.setEnc_readLut (e : Encoder) : (s.setEnc e).readLut = s.readLut := rfl
@[simp] theorem State.setDec_readLut (d : Decoder) : (s.setDec d).readLut = s.readLut := rfl
@[simp] theorem State.setFc_readLut (c : Counter) : (s.setFc c).readLut = s.readLut := rfl
@[simp] theorem State.setRegs_readLut (r : Operands) : (s.setRegs r).readLut = s.readLut := rfl
@[simp] theorem State.setRoot_readLut (h : Handle) : (s.setRoot h).readLut = s.readLut := rfl
@[simp] theorem State.setCmdErr_readLut (b : Bool) : (s.setCmdErr b).readLut = s.readLut := rfl
@[simp] theorem State.setRom_readLut (m : Memory RomWord) : (s.setRom m).readLut = s.readLut := rfl
@[simp] theorem State.setHist_readLut (m : Memory Word) : (s.setHist m).readLut = s.readLut := rfl
@[simp] theorem State.setPins_readLut (ps : List Pins) : (s.setPins ps).readLut = s.readLut := rfl

@[simp] theorem State.setEnc_readRom (e : Encoder) : (s.setEnc e).readRom = s.readRom := rfl
@[simp] theorem State.setDec_readRom (d : Decoder) : (s.setDec d).readRom = s.readRom := rfl
@[simp] theorem State.setFc_readRom (c : Counter) : (s.setFc c).readRom = s.readRom := rfl
@[simp] theorem State.setRegs_readRom (r : Operands) : (s.setRegs r).readRom = s.readRom := rfl
@[simp] theorem State.setRoot_readRom (h : Handle) : (s.setRoot h).readRom = s.readRom := rfl
@[simp] theorem State.setCmdErr_readRom (b : Bool) : (s.setCmdErr b).readRom = s.readRom := rfl
@[simp] theorem State.setLut_readRom (m : Memory LutWord) : (s.setLut m).readRom = s.readRom := rfl
@[simp] theorem State.setHist_readRom (m : Memory Word) : (s.setHist m).readRom = s.readRom := rfl
@[simp] theorem State.setPins_readRom (ps : List Pins) : (s.setPins ps).readRom = s.readRom := rfl

@[simp] theorem State.setEnc_readHist (e : Encoder) : (s.setEnc e).readHist = s.readHist := rfl
@[simp] theorem State.setDec_readHist (d : Decoder) : (s.setDec d).readHist = s.readHist := rfl
@[simp] theorem State.setFc_readHist (c : Counter) : (s.setFc c).readHist = s.readHist := rfl
@[simp] theorem State.setRegs_readHist (r : Operands) : (s.setRegs r).readHist = s.readHist := rfl
@[simp] theorem State.setRoot_readHist (h : Handle) : (s.setRoot h).readHist = s.readHist := rfl
@[simp] theorem State.setCmdErr_readHist (b : Bool) : (s.setCmdErr b).readHist = s.readHist := rfl
@[simp] theorem State.setLut_readHist (m : Memory LutWord) : (s.setLut m).readHist = s.readHist := rfl
@[simp] theorem State.setRom_readHist (m : Memory RomWord) : (s.setRom m).readHist = s.readHist := rfl
@[simp] theorem State.setPins_readHist (ps : List Pins) : (s.setPins ps).readHist = s.readHist := rfl

@[simp] theorem State.setDec_encInReady (d : Decoder) : (s.setDec d).encInReady = s.encInReady := rfl
@[simp] theorem State.setFc_encInReady (c : Counter) : (s.setFc c).encInReady = s.encInReady := rfl
@[simp] theorem State.setRegs_encInReady (r : Operands) : (s.setRegs r).encInReady = s.encInReady := rfl
@[simp] theorem State.setRoot_encInReady (h : Handle) : (s.setRoot h).encInReady = s.encInReady := rfl
@[simp] theorem State.setCmdErr_encInReady (b : Bool) : (s.setCmdErr b).encInReady = s.encInReady := rfl
@[simp] theorem State.setLut_encInReady (m : Memory LutWord) : (s.setLut m).encInReady = s.encInReady := rfl
@[simp] theorem State.setRom_encInReady (m : Memory RomWord) : (s.setRom m).encInReady = s.encInReady := rfl
@[simp] theorem State.setHist_encInReady (m : Memory Word) : (s.setHist m).encInReady = s.encInReady := rfl
@[simp] theorem State.setPins_encInReady (ps : List Pins) : (s.setPins ps).encInReady = s.encInReady := rfl

@[simp] theorem State.setDec_encOutValid (d : Decoder) : (s.setDec d).encOutValid = s.encOutValid := rfl
@[simp] theorem State.setFc_encOutValid (c : Counter) : (s.setFc c).encOutValid = s.encOutValid := rfl
@[simp] theorem State.setRegs_encOutValid (r : Operands) : (s.setRegs r).encOutValid = s.encOutValid := rfl
@[simp] theorem State.setRoot_encOutValid (h : Handle) : (s.setRoot h).encOutValid = s.encOutValid := rfl
@[simp] theorem State.setCmdErr_encOutValid (b : Bool) : (s.setCmdErr b).encOutValid = s.encOutValid := rfl
@[simp] theorem State.setLut_encOutValid (m : Memory LutWord) : (s.setLut m).encOutValid = s.encOutValid := rfl
@[simp] theorem State.setRom_encOutValid (m : Memory RomWord) : (s.setRom m).encOutValid = s.encOutValid := rfl
@[simp] theorem State.setHist_encOutValid (m : Memory Word) : (s.setHist m).encOutValid = s.encOutValid := rfl
@[simp] theorem State.setPins_encOutValid (ps : List Pins) : (s.setPins ps).encOutValid = s.encOutValid := rfl

@[simp] theorem State.setDec_encOut (d : Decoder) : (s.setDec d).encOut = s.encOut := rfl
@[simp] theorem State.setFc_encOut (c : Counter) : (s.setFc c).encOut = s.encOut := rfl
@[simp] theorem State.setRegs_encOut (r : Operands) : (s.setRegs r).encOut = s.encOut := rfl
@[simp] theorem State.setRoot_encOut (h : Handle) : (s.setRoot h).encOut = s.encOut := rfl
@[simp] theorem State.setCmdErr_encOut (b : Bool) : (s.setCmdErr b).encOut = s.encOut := rfl
@[simp] theorem State.setLut_encOut (m : Memory LutWord) : (s.setLut m).encOut = s.encOut := rfl
@[simp] theorem State.setRom_encOut (m : Memory RomWord) : (s.setRom m).encOut = s.encOut := rfl
@[simp] theorem State.setHist_encOut (m : Memory Word) : (s.setHist m).encOut = s.encOut := rfl
@[simp] theorem State.setPins_encOut (ps : List Pins) : (s.setPins ps).encOut = s.encOut := rfl

@[simp] theorem State.setDec_encLocked (d : Decoder) : (s.setDec d).encLocked = s.encLocked := rfl
@[simp] theorem State.setFc_encLocked (c : Counter) : (s.setFc c).encLocked = s.encLocked := rfl
@[simp] theorem State.setRegs_encLocked (r : Operands) : (s.setRegs r).encLocked = s.encLocked := rfl
@[simp] theorem State.setRoot_encLocked (h : Handle) : (s.setRoot h).encLocked = s.encLocked := rfl
@[simp] theorem State.setCmdErr_encLocked (b : Bool) : (s.setCmdErr b).encLocked = s.encLocked := rfl
@[simp] theorem State.setLut_encLocked (m : Memory LutWord) : (s.setLut m).encLocked = s.encLocked := rfl
@[simp] theorem State.setRom_encLocked (m : Memory RomWord) : (s.setRom m).encLocked = s.encLocked := rfl
@[simp] theorem State.setHist_encLocked (m : Memory Word) : (s.setHist m).encLocked = s.encLocked := rfl
@[simp] theorem State.setPins_encLocked (ps : List Pins) : (s.setPins ps).encLocked = s.encLocked := rfl

@[simp] theorem State.setEnc_decInReady (e : Encoder) : (s.setEnc e).decInReady = s.decInReady := rfl
@[simp] theorem State.setFc_decInReady (c : Counter) : (s.setFc c).decInReady = s.decInReady := rfl
@[simp] theorem State.setRegs_decInReady (r : Operands) : (s.setRegs r).decInReady = s.decInReady := rfl
@[simp] theorem State.setRoot_decInReady (h : Handle) : (s.setRoot h).decInReady = s.decInReady := rfl
@[simp] theorem State.setCmdErr_decInReady (b : Bool) : (s.setCmdErr b).decInReady = s.decInReady := rfl
@[simp] theorem State.setLut_decInReady (m : Memory LutWord) : (s.setLut m).decInReady = s.decInReady := rfl
@[simp] theorem State.setRom_decInReady (m : Memory RomWord) : (s.setRom m).decInReady = s.decInReady := rfl
@[simp] theorem State.setHist_decInReady (m : Memory Word) : (s.setHist m).decInReady = s.decInReady := rfl
@[simp] theorem State.setPins_decInReady (ps : List Pins) : (s.setPins ps).decInReady = s.decInReady := rfl

@[simp] theorem State.setEnc_decOutValid (e : Encoder) : (s.setEnc e).decOutValid = s.decOutValid := rfl
@[simp] theorem State.setFc_decOutValid (c : Counter) : (s.setFc c).decOutValid = s.decOutValid := rfl
@[simp] theorem State.setRegs_decOutValid (r : Operands) : (s.setRegs r).decOutValid = s.decOutValid := rfl
@[simp] theorem State.setRoot_decOutValid (h : Handle) : (s.setRoot h).decOutValid = s.decOutValid := rfl
@[simp] theorem State.setCmdErr_decOutValid (b : Bool) : (s.setCmdErr b).decOutValid = s.decOutValid := rfl
@[simp] theorem State.setLut_decOutValid (m : Memory LutWord) : (s.setLut m).decOutValid = s.decOutValid := rfl
@[simp] theorem State.setRom_decOutValid (m : Memory RomWord) : (s.setRom m).decOutValid = s.decOutValid := rfl
@[simp] theorem State.setHist_decOutValid (m : Memory Word) : (s.setHist m).decOutValid = s.decOutValid := rfl
@[simp] theorem State.setPins_decOutValid (ps : List Pins) : (s.setPins ps).decOutValid = s.decOutValid := rfl

@[simp] theorem State.setEnc_decOut (e : Encoder) : (s.setEnc e).decOut = s.decOut := rfl
@[simp] theorem State.setFc_decOut (c : Counter) : (s.setFc c).decOut = s.decOut := rfl
@[simp] theorem State.setRegs_decOut (r : Operands) : (s.setRegs r).decOut = s.decOut := rfl
@[simp] theorem State.setRoot_decOut (h : Handle) : (s.setRoot h).decOut = s.decOut := rfl
@[simp] theorem State.setCmdErr_decOut (b : Bool) : (s.setCmdErr b).decOut = s.decOut := rfl
@[simp] theorem State.setLut_decOut (m : Memory LutWord) : (s.setLut m).decOut = s.decOut := rfl
@[simp] theorem State.setRom_decOut (m : Memory RomWord) : (s.setRom m).decOut = s.decOut := rfl
@[simp] theorem State.setHist_decOut (m : Memory Word) : (s.setHist m).decOut = s.decOut := rfl
@[simp] theorem State.setPins_decOut (ps : List Pins) : (s.setPins ps).decOut = s.decOut := rfl

@[simp] theorem State.setEnc_decLocked (e : Encoder) : (s.setEnc e).decLocked = s.decLocked := rfl
@[simp] theorem State.setFc_decLocked (c : Counter) : (s.setFc c).decLocked = s.decLocked := rfl
@[simp] theorem State.setRegs_decLocked (r : Operands) : (s.setRegs r).decLocked = s.decLocked := rfl
@[simp] theorem State.setRoot_decLocked (h : Handle) : (s.setRoot h).decLocked = s.decLocked := rfl
@[simp] theorem State.setCmdErr_decLocked (b : Bool) : (s.setCmdErr b).decLocked = s.decLocked := rfl
@[simp] theorem State.setLut_decLocked (m : Memory LutWord) : (s.setLut m).decLocked = s.decLocked := rfl
@[simp] theorem State.setRom_decLocked (m : Memory RomWord) : (s.setRom m).decLocked = s.decLocked := rfl
@[simp] theorem State.setHist_decLocked (m : Memory Word) : (s.setHist m).decLocked = s.decLocked := rfl
@[simp] theorem State.setPins_decLocked (ps : List Pins) : (s.setPins ps).decLocked = s.decLocked := rfl

@[simp] theorem State.setEnc_fcInReady (e : Encoder) : (s.setEnc e).fcInReady = s.fcInReady := rfl
@[simp] theorem State.setDec_fcInReady (d : Decoder) : (s.setDec d).fcInReady = s.fcInReady := rfl
@[simp] theorem State.setRegs_fcInReady (r : Operands) : (s.setRegs r).fcInReady = s.fcInReady := rfl
@[simp] theorem State.setRoot_fcInReady (h : Handle) : (s.setRoot h).fcInReady = s.fcInReady := rfl
@[simp] theorem State.setCmdErr_fcInReady (b : Bool) : (s.setCmdErr b).fcInReady = s.fcInReady := rfl
@[simp] theorem State.setLut_fcInReady (m : Memory LutWord) : (s.setLut m).fcInReady = s.fcInReady := rfl
@[simp] theorem State.setRom_fcInReady (m : Memory RomWord) : (s.setRom m).fcInReady = s.fcInReady := rfl
@[simp] theorem State.setHist_fcInReady (m : Memory Word) : (s.setHist m).fcInReady = s.fcInReady := rfl
@[simp] theorem State.setPins_fcInReady (ps : List Pins) : (s.setPins ps).fcInReady = s.fcInReady := rfl

@[simp] theorem State.setEnc_fcLocked (e : Encoder) : (s.setEnc e).fcLocked = s.fcLocked := rfl
@[simp] theorem State.setDec_fcLocked (d : Decoder) : (s.setDec d).fcLocked = s.fcLocked := rfl
@[simp] theorem State.setRegs_fcLocked (r : Operands) : (s.setRegs r).fcLocked = s.fcLocked := rfl
@[simp] theorem State.setRoot_fcLocked (h : Handle) : (s.setRoot h).fcLocked = s.fcLocked := rfl
@[simp] theorem State.setCmdErr_fcLocked (b : Bool) : (s.setCmdErr b).fcLocked = s.fcLocked := rfl
@[simp] theorem State.setLut_fcLocked (m : Memory LutWord) : (s.setLut m).fcLocked = s.fcLocked := rfl
@[simp] theorem State.setRom_fcLocked (m : Memory RomWord) : (s.setRom m).fcLocked = s.fcLocked := rfl
@[simp] theorem State.setHist_fcLocked (m : Memory Word) : (s.setHist m).fcLocked = s.fcLocked := rfl
@[simp] theorem State.setPins_fcLocked (ps : List Pins) : (s.setPins ps).fcLocked = s.fcLocked := rfl

@[simp] theorem State.setEnc_symIndex (e : Encoder) : (s.setEnc e).symIndex = s.symIndex := rfl
@[simp] theorem State.setEnc_nodeIndex (e : Encoder) : (s.setEnc e).nodeIndex = s.nodeIndex := rfl
@[simp] theorem State.setDec_symIndex (d : Decoder) : (s.setDec d).symIndex = s.symIndex := rfl
@[simp] theorem State.setDec_nodeIndex (d : Decoder) : (s.setDec d).nodeIndex = s.nodeIndex := rfl
@[simp] theorem State.setFc_symIndex (c : Counter) : (s.setFc c).symIndex = s.symIndex := rfl
@[simp] theorem State.setFc_nodeIndex (c : Counter) : (s.setFc c).nodeIndex = s.nodeIndex := rfl
@[simp] theorem State.setRegs_symIndex (r : Operands) : (s.setRegs r).symIndex = s.symIndex := rfl
@[simp] theorem State.setRegs_nodeIndex (r : Operands) : (s.setRegs r).nodeIndex = s.nodeIndex := rfl
@[simp] theorem State.setRoot_symIndex (h : Handle) : (s.setRoot h).symIndex = s.symIndex := rfl
@[simp] theorem State.setRoot_nodeIndex (h : Handle) : (s.setRoot h).nodeIndex = s.nodeIndex := rfl
@[simp] theorem State.setCmdErr_symIndex (b : Bool) : (s.setCmdErr b).symIndex = s.symIndex := rfl
@[simp] theorem State.setCmdErr_nodeIndex (b : Bool) : (s.setCmdErr b).nodeIndex = s.nodeIndex := rfl
@[simp] theorem State.setLut_symIndex (m : Memory LutWord) : (s.setLut m).symIndex = s.symIndex := rfl
@[simp] theorem State.setLut_nodeIndex (m : Memory LutWord) : (s.setLut m).nodeIndex = s.nodeIndex := rfl
@[simp] theorem State.setRom_symIndex (m : Memory RomWord) : (s.setRom m).symIndex = s.symIndex := rfl
@[simp] theorem State.setRom_nodeIndex (m : Memory RomWord) : (s.setRom m).nodeIndex = s.nodeIndex := rfl
@[simp] theorem State.setHist_symIndex (m : Memory Word) : (s.setHist m).symIndex = s.symIndex := rfl
@[simp] theorem State.setHist_nodeIndex (m : Memory Word) : (s.setHist m).nodeIndex = s.nodeIndex := rfl
@[simp] theorem State.setPins_symIndex (ps : List Pins) : (s.setPins ps).symIndex = s.symIndex := rfl
@[simp] theorem State.setPins_nodeIndex (ps : List Pins) : (s.setPins ps).nodeIndex = s.nodeIndex := rfl

@[simp] theorem State.wireBeat_keep (b : SymBeat) : (s.wireBeat b).keep = b.keep := rfl
@[simp] theorem State.wireBeat_last (b : SymBeat) : (s.wireBeat b).last = b.last := rfl
@[simp] theorem State.wireBeat_sym (b : SymBeat) :
    (s.wireBeat b).sym = trunc s.params.symW b.sym := rfl

end Sys2Proof.Machine
end

