-- ==== Sys2Proof/Laws/Edge.lean ====
section
/-! SUPPORT. What an edge can do, said once: what the host write can do to each part of the state, what
the transfers do to each unit, and what a step is when its pins are known. -/

namespace Sys2Proof.Machine

/-! ## Locks -/

theorem UnitCtl.busy_iff (c : UnitCtl) : c.busy = true ↔ c.st ≠ .idle := by simp [UnitCtl.busy]

theorem UnitCtl.busy_eq_false_iff (c : UnitCtl) : c.busy = false ↔ c.st = .idle := by
  simp [UnitCtl.busy]

theorem State.encLocked_iff (s : State) : s.encLocked = true ↔ s.enc.ctl.st ≠ .idle :=
  UnitCtl.busy_iff _

theorem State.encLocked_eq_false_iff (s : State) : s.encLocked = false ↔ s.enc.ctl.st = .idle :=
  UnitCtl.busy_eq_false_iff _

theorem State.decLocked_iff (s : State) : s.decLocked = true ↔ s.dec.ctl.st ≠ .idle :=
  UnitCtl.busy_iff _

theorem State.decLocked_eq_false_iff (s : State) : s.decLocked = false ↔ s.dec.ctl.st = .idle :=
  UnitCtl.busy_eq_false_iff _

theorem State.fcLocked_iff (s : State) :
    s.fcLocked = true ↔ s.params.hasFc = false ∨ s.fc.ctl.st ≠ .idle := by
  simp [State.fcLocked, UnitCtl.busy]

theorem State.fcLocked_eq_false_iff (s : State) :
    s.fcLocked = false ↔ s.params.hasFc = true ∧ s.fc.ctl.st = .idle := by
  simp [State.fcLocked, UnitCtl.busy]

/-- The encoder never accepts and offers at once. -/
theorem State.enc_exclusive {s : State} (h : s.encInReady = true) : s.encOutValid = false := by
  simp only [State.encInReady, Bool.and_eq_true, Bool.not_eq_true', decide_eq_true_eq] at h
  simp [State.encOutValid, h.1.2, h.2]

/-- The decoder never accepts and offers at once. -/
theorem State.dec_exclusive {s : State} (h : s.decInReady = true) : s.decOutValid = false := by
  simp only [State.decInReady, Bool.and_eq_true, Bool.not_eq_true'] at h
  simp [State.decOutValid, h.1.2, h.2]

theorem State.enc_busy_of_ready {s : State} (h : s.encInReady = true) : s.enc.ctl.st ≠ .idle := by
  simp only [State.encInReady, Bool.and_eq_true] at h; exact (UnitCtl.busy_iff _).1 h.1.1

theorem State.enc_busy_of_valid {s : State} (h : s.encOutValid = true) : s.enc.ctl.st ≠ .idle := by
  simp only [State.encOutValid, Bool.and_eq_true] at h; exact (UnitCtl.busy_iff _).1 h.1

theorem State.dec_busy_of_ready {s : State} (h : s.decInReady = true) : s.dec.ctl.st ≠ .idle := by
  simp only [State.decInReady, Bool.and_eq_true] at h; exact (UnitCtl.busy_iff _).1 h.1.1

theorem State.dec_busy_of_valid {s : State} (h : s.decOutValid = true) : s.dec.ctl.st ≠ .idle := by
  simp only [State.decOutValid, Bool.and_eq_true] at h; exact (UnitCtl.busy_iff _).1 h.1

theorem State.fc_busy_of_ready {s : State} (h : s.fcInReady = true) : s.fc.ctl.st ≠ .idle := by
  simp only [State.fcInReady, Bool.and_eq_true] at h; exact (UnitCtl.busy_iff _).1 h.2

/-! ## Register indices -/

@[simp] theorem Reg.ofIndex_index (r : Reg) : Reg.ofIndex r.index = some r := by cases r <;> rfl

theorem Reg.ofIndex_some {i : RegIndex} {r : Reg} (h : Reg.ofIndex i = some r) : i = r.index := by
  revert i r; decide +revert

theorem Reg.index_injective {r q : Reg} (h : r.index = q.index) : r = q := by
  have := Reg.ofIndex_index r
  rw [h, Reg.ofIndex_index] at this
  exact (Option.some.inj this).symm

/-! ## What the host write can do -/

/-- What a command write can do: a command's effect, or a rejection. -/
theorem command_cases {w : Word} {s u : State} (h : command w s = .next u) :
    (∃ i, w = encode i ∧ exec i s = .next u) ∨ ((∀ i, w ≠ encode i) ∧ u = s.reject) := by
  unfold command at h
  split at h
  · exact .inl ⟨_, decode_sound ‹_›, h⟩
  · rename_i e he
    refine .inr ⟨?_, by simpa using h.symm⟩
    rintro i rfl
    simp at he

/-- What a host write can do: a command, ROOT, an operand register, or nothing. -/
theorem hostWrite_cases {i : RegIndex} {v : Word} {s u : State} (h : hostWrite i v s = .next u) :
    (i = Reg.cmd.index ∧ command v s = .next u) ∨ (i = Reg.root.index ∧ u = s.writeRoot v) ∨
    (i ≠ Reg.cmd.index ∧ i ≠ Reg.root.index ∧ ∃ o, u = s.setRegs o) := by
  unfold hostWrite at h
  split at h
  · exact .inl ⟨Reg.ofIndex_some ‹_›, h⟩
  · exact .inr (.inl ⟨Reg.ofIndex_some ‹_›, by simpa using h.symm⟩)
  · rename_i r h0 h1 hr
    refine .inr (.inr ⟨?_, ?_, _, by simpa using h.symm⟩)
    · rintro rfl; simp at hr; exact h0 hr.symm
    · rintro rfl; simp at hr; exact h1 hr.symm
  · rename_i hr
    refine .inr (.inr ⟨?_, ?_, s.regs, (Host.Outcome.next.inj h).symm⟩)
    · rintro rfl; simp at hr
    · rintro rfl; simp at hr

/-- The encoder right after ENC_START (43_encoder.md R171). -/
def Encoder.started : Encoder :=
  { ctl := .start, eoi := false, sh := 0, n := 0, errSym := 0, symCnt := 0, bitCnt := 0 }

/-- The decoder right after DEC_START (44_decoder.md R186). -/
def State.decStarted (s : State) : Decoder :=
  { ctl := if (s.readRom s.root).leaf then UnitCtl.start.errorEntry .singleSymbolInput else .start
    eoi := false, mid := false, cur := s.root, outSym := 0, outV := false, bitCnt := 0, symCnt := 0 }

/-- What a command other than SOFT_RESET can do to each part of the state. -/
structure Commanded (i : Instr) (s u : State) : Prop where
  params : u.params = s.params
  resets : u.resets = s.resets
  pins : u.pins = s.pins
  root : u.root = s.root
  enc : u.enc = s.enc ∨ i = .encStart ∧ s.encLocked = false ∧ u.enc = .started
  dec : u.dec = s.dec ∨ i = .decStart ∧ s.decLocked = false ∧ u.dec = s.decStarted
  counter : u.fc = s.fc ∧ u.hist = s.hist ∨ s.fcLocked = false ∧
    (i = .fcStart ∧ u.fc = { s.fc with ctl := .start, errSym := 0 } ∧ u.hist = s.hist ∨
     i = .histClear ∧ u.fc = { s.fc with total := 0 } ∧ u.hist = .clear 0)
  lut : u.lut = s.lut ∨ s.encLocked = false ∧
    (i = .lutClear ∧ u.lut = .clear .absent ∨
     i = .lutWrite ∧ u.lut = s.lut.write (s.symIndex s.regs.lutAddr)
       { len := s.regs.lutLen, code := s.regs.lutCode })
  rom : u.rom = s.rom ∨ s.decLocked = false ∧ i = .romWrite ∧
    u.rom = s.rom.write (s.nodeIndex s.regs.romAddr)
      { leaf := s.regs.romLeaf, sym := s.regs.romSym, left := s.regs.romLeft,
        right := s.regs.romRight }
  regs : u.regs = s.regs ∨
    s.encLocked = false ∧ i = .lutRead ∧ u.regs = { s.regs with
      lutLen := (s.readLut s.regs.lutAddr).len, lutCode := (s.readLut s.regs.lutAddr).code } ∨
    s.decLocked = false ∧ i = .romRead ∧ u.regs = { s.regs with
      romLeaf := (s.readRom s.regs.romAddr).leaf, romSym := (s.readRom s.regs.romAddr).sym,
      romLeft := (s.readRom s.regs.romAddr).left, romRight := (s.readRom s.regs.romAddr).right } ∨
    s.fcLocked = false ∧ i = .histRead ∧
      u.regs = { s.regs with histData := s.readHist s.regs.histAddr }
  cmdErr : u.cmdErr = s.cmdErr ∨ i = .clrErr ∧ u.cmdErr = false ∨ u = s.reject ∧
    (s.encLocked = true ∧ i ∈ [Instr.lutClear, .lutWrite, .lutRead, .encStart] ∨
     s.decLocked = true ∧ i ∈ [Instr.romWrite, .romRead, .decStart] ∨
     s.fcLocked = true ∧ i ∈ [Instr.histClear, .histRead, .fcStart])

/-- Every command but SOFT_RESET does what `Commanded` lists and nothing else. -/
theorem exec_commanded {i : Instr} {s u : State} (hi : i ≠ .softReset)
    (h : exec i s = .next u) : Commanded i s u := by
  cases i
  case softReset => exact absurd rfl hi
  all_goals
    simp only [exec, execNop, execClrErr, execLutClear, execLutWrite, execLutRead, execRomWrite,
      execRomRead, execHistClear, execHistRead, execFcStart, execEncStart, execDecStart] at h
    obtain ⟨hl, rfl⟩ | ⟨hl, rfl⟩ := issue_cases h
  all_goals constructor
  all_goals first
    | (exact absurd hl (by decide))
    | (simp [hl, State.reject, State.writeLut, State.writeRom, Encoder.started]; done)
    | (refine .inr ⟨rfl, hl, ?_⟩
       simp only [State.setDec_dec, State.decStarted]
       split <;> rfl)

/-! ## What the transfers do -/

/-- The transfers of an edge, decided by the state `s` before it and done to `u`. -/
def State.afterTransfers (p : Pins) (s u : State) : State :=
  let u := if p.fcInValid && s.fcInReady then u.takeFc p.fcIn else u
  let u := if p.encInValid && s.encInReady then u.takeEnc p.encIn else u
  let u := if p.encOutReady && s.encOutValid then u.giveEnc else u
  let u := if p.decInValid && s.decInReady then u.takeDec p.decIn else u
  if p.decOutReady && s.decOutValid then u.giveDec else u

theorem runEvents_transfers (p : Pins) (s u : State) :
    runEvents (transfers p s) u = .next (State.afterTransfers p s u) := by
  unfold transfers State.afterTransfers
  cases p.fcInValid && s.fcInReady <;> cases p.encInValid && s.encInReady <;>
    cases p.encOutReady && s.encOutValid <;> cases p.decInValid && s.decInReady <;>
    cases p.decOutReady && s.decOutValid <;> rfl

section
variable (p : Pins) (s u : State)

theorem State.afterTransfers_fc : (State.afterTransfers p s u).fc =
    if p.fcInValid && s.fcInReady then
      u.fc.take (u.readHist p.fcIn.sym) u.countLimit (u.wireBeat p.fcIn) else u.fc := by
  unfold State.afterTransfers
  cases p.fcInValid && s.fcInReady <;> cases p.encInValid && s.encInReady <;>
    cases p.encOutReady && s.encOutValid <;> cases p.decInValid && s.decInReady <;>
    cases p.decOutReady && s.decOutValid <;> rfl

theorem State.afterTransfers_hist : (State.afterTransfers p s u).hist =
    if p.fcInValid && s.fcInReady then
      if u.counts p.fcIn then
        u.hist.write (u.symIndex p.fcIn.sym) (u.readHist p.fcIn.sym + 1) else u.hist
    else u.hist := by
  unfold State.afterTransfers
  cases p.fcInValid && s.fcInReady <;> cases p.encInValid && s.encInReady <;>
    cases p.encOutReady && s.encOutValid <;> cases p.decInValid && s.decInReady <;>
    cases p.decOutReady && s.decOutValid <;> rfl

theorem State.afterTransfers_enc : (State.afterTransfers p s u).enc =
    if p.encInValid && s.encInReady then
      u.enc.take (u.readLut p.encIn.sym) (u.wireBeat p.encIn)
    else if p.encOutReady && s.encOutValid then u.enc.give else u.enc := by
  unfold State.afterTransfers
  cases hi : p.encInValid && s.encInReady
  · cases p.fcInValid && s.fcInReady <;>
      cases p.encOutReady && s.encOutValid <;> cases p.decInValid && s.decInReady <;>
      cases p.decOutReady && s.decOutValid <;> rfl
  · simp only [Bool.and_eq_true] at hi
    simp only [State.enc_exclusive hi.2, Bool.and_false]
    cases p.fcInValid && s.fcInReady <;> cases p.decInValid && s.decInReady <;>
      cases p.decOutReady && s.decOutValid <;> rfl

theorem State.afterTransfers_dec : (State.afterTransfers p s u).dec =
    if p.decInValid && s.decInReady then u.dec.take u.readRom u.root p.decIn
    else if p.decOutReady && s.decOutValid then u.dec.give else u.dec := by
  unfold State.afterTransfers
  cases hi : p.decInValid && s.decInReady
  · cases p.fcInValid && s.fcInReady <;>
      cases p.encOutReady && s.encOutValid <;> cases p.encInValid && s.encInReady <;>
      cases p.decOutReady && s.decOutValid <;> rfl
  · simp only [Bool.and_eq_true] at hi
    simp only [State.dec_exclusive hi.2, Bool.and_false]
    cases p.fcInValid && s.fcInReady <;> cases p.encInValid && s.encInReady <;>
      cases p.encOutReady && s.encOutValid <;> rfl

@[simp] theorem State.afterTransfers_params :
    (State.afterTransfers p s u).params = u.params := by
  simp only [State.afterTransfers, State.takeFc, State.takeEnc, State.giveEnc, State.takeDec,
    State.giveDec, apply_ite State.params, State.setFc_params, State.setHist_params, State.setEnc_params,
    State.setDec_params, ite_self]

@[simp] theorem State.afterTransfers_resets :
    (State.afterTransfers p s u).resets = u.resets := by
  simp only [State.afterTransfers, State.takeFc, State.takeEnc, State.giveEnc, State.takeDec,
    State.giveDec, apply_ite State.resets, State.setFc_resets, State.setHist_resets, State.setEnc_resets,
    State.setDec_resets, ite_self]

@[simp] theorem State.afterTransfers_pins :
    (State.afterTransfers p s u).pins = u.pins := by
  simp only [State.afterTransfers, State.takeFc, State.takeEnc, State.giveEnc, State.takeDec,
    State.giveDec, apply_ite State.pins, State.setFc_pins, State.setHist_pins, State.setEnc_pins,
    State.setDec_pins, ite_self]

@[simp] theorem State.afterTransfers_regs :
    (State.afterTransfers p s u).regs = u.regs := by
  simp only [State.afterTransfers, State.takeFc, State.takeEnc, State.giveEnc, State.takeDec,
    State.giveDec, apply_ite State.regs, State.setFc_regs, State.setHist_regs, State.setEnc_regs,
    State.setDec_regs, ite_self]

@[simp] theorem State.afterTransfers_root :
    (State.afterTransfers p s u).root = u.root := by
  simp only [State.afterTransfers, State.takeFc, State.takeEnc, State.giveEnc, State.takeDec,
    State.giveDec, apply_ite State.root, State.setFc_root, State.setHist_root, State.setEnc_root,
    State.setDec_root, ite_self]

@[simp] theorem State.afterTransfers_cmdErr :
    (State.afterTransfers p s u).cmdErr = u.cmdErr := by
  simp only [State.afterTransfers, State.takeFc, State.takeEnc, State.giveEnc, State.takeDec,
    State.giveDec, apply_ite State.cmdErr, State.setFc_cmdErr, State.setHist_cmdErr, State.setEnc_cmdErr,
    State.setDec_cmdErr, ite_self]

@[simp] theorem State.afterTransfers_lut :
    (State.afterTransfers p s u).lut = u.lut := by
  simp only [State.afterTransfers, State.takeFc, State.takeEnc, State.giveEnc, State.takeDec,
    State.giveDec, apply_ite State.lut, State.setFc_lut, State.setHist_lut, State.setEnc_lut,
    State.setDec_lut, ite_self]

@[simp] theorem State.afterTransfers_rom :
    (State.afterTransfers p s u).rom = u.rom := by
  simp only [State.afterTransfers, State.takeFc, State.takeEnc, State.giveEnc, State.takeDec,
    State.giveDec, apply_ite State.rom, State.setFc_rom, State.setHist_rom, State.setEnc_rom,
    State.setDec_rom, ite_self]

/-- The transfers neither read nor write CMD_ERR, so a rejection goes before or after them. -/
theorem State.afterTransfers_reject :
    State.afterTransfers p s u.reject = (State.afterTransfers p s u).reject := by
  unfold State.afterTransfers
  cases p.fcInValid && s.fcInReady <;> cases p.encInValid && s.encInReady <;>
    cases p.encOutReady && s.encOutValid <;> cases p.decInValid && s.decInReady <;>
    cases p.decOutReady && s.decOutValid <;> rfl

end

/-! ## What a step does -/

theorem Pins.isCommand_iff (p : Pins) (i : Instr) : p.isCommand i = true ↔ p.commands i := by
  have : Reg.ofIndex p.regAddr = some .cmd ↔ p.regAddr = Reg.cmd.index :=
    ⟨Reg.ofIndex_some, fun h => by rw [h]; rfl⟩
  simp [Pins.isCommand, Pins.commands, this, and_assoc]

theorem isSoftReset_iff (p : Pins) : isSoftReset p = true ↔ p.commands .softReset :=
  p.isCommand_iff _

/-- A step at an edge whose pins are `p`. -/
theorem step_setPins (s : State) (p : Pins) (rest : List Pins) :
    step (s.setPins (p :: rest)) = runEvents (edgeEvents p s) (s.setPins rest) := rfl

/-- A step of any state is the step at its coming pins. -/
theorem step_coming (s : State) :
    step s = runEvents (edgeEvents s.coming.1 s) (s.setPins s.coming.2) := rfl

/-- A step of any state is one at known pins. -/
theorem step_eq_setPins (s : State) : step s = step (s.setPins (s.coming.1 :: s.coming.2)) := rfl

/-- Reset is the only event of its edge. -/
theorem step_rst {p : Pins} (hr : p.rst = true) (s : State) (rest : List Pins) :
    step (s.setPins (p :: rest)) = .next (s.hardReset.setPins rest) := by
  rw [step_setPins, edgeEvents, if_pos hr]; rfl

/-- SOFT_RESET erases the transfers of its edge. -/
theorem step_softReset {p : Pins} (hr : p.rst = false) (hc : p.commands .softReset) (s : State)
    (rest : List Pins) : step (s.setPins (p :: rest)) =
      .next (s.setPins rest).softReset := by
  rw [step_setPins, edgeEvents, if_neg (by simp [hr]), if_pos ((isSoftReset_iff p).2 hc)]
  obtain ⟨hw, ha, hd⟩ := hc
  simp only [hostEvents, hw, ha, hd]
  rfl

/-- Without a host write only the transfers happen. -/
theorem step_silent {p : Pins} (hr : p.rst = false) (hw : p.regWr = false) (s : State)
    (rest : List Pins) : step (s.setPins (p :: rest)) =
      .next (State.afterTransfers p s (s.setPins rest)) := by
  rw [step_setPins, edgeEvents, if_neg (by simp [hr]), if_neg (by simp [isSoftReset, Pins.isCommand, hw]),
    hostEvents, if_neg (by simp [hw]), List.nil_append, runEvents_transfers]

/-- A host write other than SOFT_RESET goes before the transfers of its edge. -/
theorem step_write {p : Pins} (hc : p.calm) (hw : p.regWr = true) {s t : State} {rest : List Pins}
    (h : step (s.setPins (p :: rest)) = .next t) :
    ∃ u, hostWrite p.regAddr p.regWdata (s.setPins rest) = .next u ∧
      t = State.afterTransfers p s u := by
  rw [step_setPins, edgeEvents, if_neg (by simp [hc.1]),
    if_neg (mt (isSoftReset_iff p).1 hc.2), hostEvents, if_pos hw, runEvents_append] at h
  obtain ⟨u, hu⟩ := hostWrite_next p.regAddr p.regWdata (s.setPins rest)
  refine ⟨u, hu, ?_⟩
  simp only [runEvents, Event.apply, hu, andThen_next, runEvents_transfers,
    Host.Outcome.next.injEq] at h
  exact h.symm

/-- What the host can do to each part of the state at an edge without a reset, when the state is `s`. -/
structure HostEffect (p : Pins) (s u : State) : Prop where
  params : u.params = s.params
  resets : u.resets = s.resets
  pins : u.pins = s.pins
  root : u.root = s.root ∨ s.decLocked = false ∧ p.regAddr = Reg.root.index ∧
    u.root = trunc s.params.nodeW p.regWdata
  enc : u.enc = s.enc ∨ p.commands .encStart ∧ s.encLocked = false ∧ u.enc = .started
  dec : u.dec = s.dec ∨ p.commands .decStart ∧ s.decLocked = false ∧ u.dec = s.decStarted
  counter : u.fc = s.fc ∧ u.hist = s.hist ∨ s.fcLocked = false ∧
    (p.commands .fcStart ∧ u.fc = { s.fc with ctl := .start, errSym := 0 } ∧ u.hist = s.hist ∨
     p.commands .histClear ∧ u.fc = { s.fc with total := 0 } ∧ u.hist = .clear 0)
  lut : u.lut = s.lut ∨ s.encLocked = false ∧
    (p.commands .lutClear ∧ u.lut = .clear .absent ∨
     p.commands .lutWrite ∧ u.lut = s.lut.write (s.symIndex s.regs.lutAddr)
       { len := s.regs.lutLen, code := s.regs.lutCode })
  rom : u.rom = s.rom ∨ s.decLocked = false ∧ p.commands .romWrite ∧
    u.rom = s.rom.write (s.nodeIndex s.regs.romAddr)
      { leaf := s.regs.romLeaf, sym := s.regs.romSym, left := s.regs.romLeft,
        right := s.regs.romRight }
  regs : u.regs = s.regs ∨ (∃ r, u.regs = s.regs.write s.params r p.regWdata) ∨
    s.encLocked = false ∧ p.commands .lutRead ∧ u.regs = { s.regs with
      lutLen := (s.readLut s.regs.lutAddr).len, lutCode := (s.readLut s.regs.lutAddr).code } ∨
    s.decLocked = false ∧ p.commands .romRead ∧ u.regs = { s.regs with
      romLeaf := (s.readRom s.regs.romAddr).leaf, romSym := (s.readRom s.regs.romAddr).sym,
      romLeft := (s.readRom s.regs.romAddr).left, romRight := (s.readRom s.regs.romAddr).right } ∨
    s.fcLocked = false ∧ p.commands .histRead ∧
      u.regs = { s.regs with histData := s.readHist s.regs.histAddr }
  cmdErr : u.cmdErr = s.cmdErr ∨ p.commands .clrErr ∧ u.cmdErr = false ∨ u = s.reject ∧ p.regWr = true ∧
    (p.regAddr = Reg.cmd.index ∧ (∀ i, p.regWdata ≠ encode i) ∨
     s.decLocked = true ∧ p.regAddr = Reg.root.index ∨
     s.encLocked = true ∧ (∃ i ∈ [Instr.lutClear, .lutWrite, .lutRead, .encStart], p.commands i) ∨
     s.decLocked = true ∧ (∃ i ∈ [Instr.romWrite, .romRead, .decStart], p.commands i) ∨
     s.fcLocked = true ∧ (∃ i ∈ [Instr.histClear, .histRead, .fcStart], p.commands i))

theorem HostEffect.refl (p : Pins) (s : State) : HostEffect p s s := by
  constructor <;> first | rfl | exact .inl rfl | exact .inl ⟨rfl, rfl⟩

theorem HostEffect.of_command {p : Pins} {i : Instr} {s u : State} (hi : p.commands i)
    (h : Commanded i s u) : HostEffect p s u where
  params := h.params
  resets := h.resets
  pins := h.pins
  root := .inl h.root
  enc := h.enc.imp id fun ⟨e, l, x⟩ => ⟨e ▸ hi, l, x⟩
  dec := h.dec.imp id fun ⟨e, l, x⟩ => ⟨e ▸ hi, l, x⟩
  counter := h.counter.imp id fun ⟨l, x⟩ => ⟨l, x.imp (fun ⟨e, y⟩ => ⟨e ▸ hi, y⟩) fun ⟨e, y⟩ => ⟨e ▸ hi, y⟩⟩
  lut := h.lut.imp id fun ⟨l, x⟩ => ⟨l, x.imp (fun ⟨e, y⟩ => ⟨e ▸ hi, y⟩) fun ⟨e, y⟩ => ⟨e ▸ hi, y⟩⟩
  rom := h.rom.imp id fun ⟨l, e, x⟩ => ⟨l, e ▸ hi, x⟩
  regs := h.regs.imp id fun x => .inr (x.imp (fun ⟨l, e, y⟩ => ⟨l, e ▸ hi, y⟩)
    (Or.imp (fun ⟨l, e, y⟩ => ⟨l, e ▸ hi, y⟩) fun ⟨l, e, y⟩ => ⟨l, e ▸ hi, y⟩))
  cmdErr := h.cmdErr.imp id (Or.imp (fun ⟨e, y⟩ => ⟨e ▸ hi, y⟩) fun ⟨e, x⟩ => ⟨e, hi.1,
    .inr (.inr (x.imp (fun ⟨l, y⟩ => ⟨l, i, y, hi⟩)
      (Or.imp (fun ⟨l, y⟩ => ⟨l, i, y, hi⟩) fun ⟨l, y⟩ => ⟨l, i, y, hi⟩)))⟩)

theorem HostEffect.of_write {p : Pins} {s u : State} (hc : p.calm) (hw : p.regWr = true)
    (h : hostWrite p.regAddr p.regWdata s = .next u) : HostEffect p s u := by
  have h' := h
  unfold hostWrite at h
  split at h
  · have ha := Reg.ofIndex_some ‹Reg.ofIndex p.regAddr = some .cmd›
    obtain ⟨i, hi, he⟩ | ⟨hn, rfl⟩ := command_cases h
    · have hp : p.commands i := ⟨hw, ha, hi⟩
      exact .of_command hp (exec_commanded (by rintro rfl; exact hc.2 hp) he)
    · constructor
      all_goals first
        | rfl
        | exact .inl rfl
        | exact .inl ⟨rfl, rfl⟩
        | exact .inr (.inr ⟨rfl, hw, .inl ⟨ha, hn⟩⟩)
  · have ha := Reg.ofIndex_some ‹Reg.ofIndex p.regAddr = some .root›
    obtain rfl := Host.Outcome.next.inj h
    unfold State.writeRoot
    cases hl : s.decLocked
    · constructor
      all_goals first
        | rfl
        | exact .inl rfl
        | exact .inl ⟨rfl, rfl⟩
        | exact .inr ⟨hl, ha, rfl⟩
    · constructor
      all_goals first
        | rfl
        | exact .inl rfl
        | exact .inl ⟨rfl, rfl⟩
        | exact .inr (.inr ⟨rfl, hw, .inr (.inl ⟨hl, ha⟩)⟩)
  · obtain rfl := Host.Outcome.next.inj h
    constructor
    all_goals first
      | rfl
      | exact .inl rfl
        | exact .inl ⟨rfl, rfl⟩
      | exact .inr (.inl ⟨_, rfl⟩)
  · obtain rfl := Host.Outcome.next.inj h
    exact .refl p s

/-- Everything an edge without a reset can do: the host's part, then the transfers. -/
theorem step_calm {p : Pins} (hc : p.calm) {s t : State} {rest : List Pins}
    (h : step (s.setPins (p :: rest)) = .next t) :
    ∃ u, HostEffect p (s.setPins rest) u ∧ t = State.afterTransfers p s u := by
  cases hw : p.regWr
  · rw [step_silent hc.1 hw] at h
    exact ⟨_, .refl p _, (Host.Outcome.next.inj h).symm⟩
  · obtain ⟨u, hu, rfl⟩ := step_write hc hw h
    exact ⟨u, .of_write hc hw hu, rfl⟩

/-- The three kinds of edge. -/
theorem edge_kinds (p : Pins) : p.rst = true ∨ (p.rst = false ∧ p.commands .softReset) ∨ p.calm := by
  cases hr : p.rst
  · by_cases hc : p.commands .softReset
    · exact .inr (.inl ⟨rfl, hc⟩)
    · exact .inr (.inr ⟨hr, hc⟩)
  · exact .inl rfl

/-- Everything a calm edge can do to the encoder: start, take, give or nothing. -/
theorem step_calm_enc {p : Pins} (hc : p.calm) {s t : State} {rest : List Pins}
    (h : step (s.setPins (p :: rest)) = .next t) :
    (s.enc.ctl.st = .idle ∧ p.commands .encStart ∧ t.enc = .started) ∨
    (p.encInValid = true ∧ s.encInReady = true ∧
      t.enc = s.enc.take (s.readLut p.encIn.sym) (s.wireBeat p.encIn)) ∨
    (p.encOutReady = true ∧ s.encOutValid = true ∧ t.enc = s.enc.give) ∨
    ((p.encInValid && s.encInReady) = false ∧ (p.encOutReady && s.encOutValid) = false ∧
      t.enc = s.enc) := by
  obtain ⟨u, hu, rfl⟩ := step_calm hc h
  rw [State.afterTransfers_enc]
  by_cases hi : s.enc.ctl.st = .idle
  · have hn : s.encInReady = false := by
      cases hx : s.encInReady with
      | false => rfl
      | true => exact absurd hi (State.enc_busy_of_ready hx)
    have ho : s.encOutValid = false := by
      cases hx : s.encOutValid with
      | false => rfl
      | true => exact absurd hi (State.enc_busy_of_valid hx)
    simp only [hn, ho, Bool.and_false, Bool.false_eq_true, if_false]
    rcases hu.enc with he | ⟨hp, -, he⟩
    · exact .inr (.inr (.inr ⟨trivial, trivial, he⟩))
    · exact .inl ⟨hi, hp, he⟩
  · have hl : s.encLocked = true := (State.encLocked_iff s).2 hi
    have he : u.enc = s.enc := hu.enc.resolve_right fun hx => by simp [hl] at hx
    have hm : u.lut = s.lut := hu.lut.resolve_right fun hx => by simp [hl] at hx
    have hr : u.readLut = s.readLut := State.readLut_congr hu.params hm
    have hb : u.wireBeat p.encIn = s.wireBeat p.encIn := by
      simp only [State.wireBeat, hu.params, State.setPins_params]
    rw [he, hr, hb]
    split
    · rename_i hx; rw [Bool.and_eq_true] at hx; exact .inr (.inl ⟨hx.1, hx.2, rfl⟩)
    · rename_i hx
      split
      · rename_i hy; rw [Bool.and_eq_true] at hy; exact .inr (.inr (.inl ⟨hy.1, hy.2, rfl⟩))
      · rename_i hy; exact .inr (.inr (.inr ⟨by simpa using hx, by simpa using hy, rfl⟩))

/-- Everything a calm edge can do to the decoder: start, take, give or nothing. -/
theorem step_calm_dec {p : Pins} (hc : p.calm) {s t : State} {rest : List Pins}
    (h : step (s.setPins (p :: rest)) = .next t) :
    (s.dec.ctl.st = .idle ∧ p.commands .decStart ∧ t.dec = s.decStarted) ∨
    (p.decInValid = true ∧ s.decInReady = true ∧
      t.dec = s.dec.take s.readRom s.root p.decIn) ∨
    (p.decOutReady = true ∧ s.decOutValid = true ∧ t.dec = s.dec.give) ∨
    ((p.decInValid && s.decInReady) = false ∧ (p.decOutReady && s.decOutValid) = false ∧
      t.dec = s.dec) := by
  obtain ⟨u, hu, rfl⟩ := step_calm hc h
  rw [State.afterTransfers_dec]
  by_cases hi : s.dec.ctl.st = .idle
  · have hn : s.decInReady = false := by
      cases hx : s.decInReady with
      | false => rfl
      | true => exact absurd hi (State.dec_busy_of_ready hx)
    have ho : s.decOutValid = false := by
      cases hx : s.decOutValid with
      | false => rfl
      | true => exact absurd hi (State.dec_busy_of_valid hx)
    simp only [hn, ho, Bool.and_false, Bool.false_eq_true, if_false]
    rcases hu.dec with he | ⟨hp, -, he⟩
    · exact .inr (.inr (.inr ⟨trivial, trivial, he⟩))
    · exact .inl ⟨hi, hp, he⟩
  · have hl : s.decLocked = true := (State.decLocked_iff s).2 hi
    have he : u.dec = s.dec := hu.dec.resolve_right fun hx => by simp [hl] at hx
    have hm : u.rom = s.rom := hu.rom.resolve_right fun hx => by simp [hl] at hx
    have hr : u.readRom = s.readRom := State.readRom_congr hu.params hm
    have hb : u.root = s.root := hu.root.resolve_right fun hx => by simp [hl] at hx
    rw [he, hr, hb]
    split
    · rename_i hx; rw [Bool.and_eq_true] at hx; exact .inr (.inl ⟨hx.1, hx.2, rfl⟩)
    · rename_i hx
      split
      · rename_i hy; rw [Bool.and_eq_true] at hy; exact .inr (.inr (.inl ⟨hy.1, hy.2, rfl⟩))
      · rename_i hy; exact .inr (.inr (.inr ⟨by simpa using hx, by simpa using hy, rfl⟩))

/-- Everything a calm edge can do to the counter and HIST: start, clear, take or nothing. -/
theorem step_calm_fc {p : Pins} (hc : p.calm) {s t : State} {rest : List Pins}
    (h : step (s.setPins (p :: rest)) = .next t) :
    (s.params.hasFc = true ∧ s.fc.ctl.st = .idle ∧ p.commands .fcStart ∧ t.hist = s.hist ∧
      t.fc = { s.fc with ctl := .start, errSym := 0 }) ∨
    (s.params.hasFc = true ∧ s.fc.ctl.st = .idle ∧ p.commands .histClear ∧ t.hist = .clear 0 ∧
      t.fc = { s.fc with total := 0 }) ∨
    (p.fcInValid = true ∧ s.fcInReady = true ∧
      t.fc = s.fc.take (s.readHist p.fcIn.sym) s.countLimit (s.wireBeat p.fcIn) ∧
      t.hist = if s.counts p.fcIn then
        s.hist.write (s.symIndex p.fcIn.sym) (s.readHist p.fcIn.sym + 1) else s.hist) ∨
    ((p.fcInValid && s.fcInReady) = false ∧ t.fc = s.fc ∧ t.hist = s.hist) := by
  obtain ⟨u, hu, rfl⟩ := step_calm hc h
  rw [State.afterTransfers_fc, State.afterTransfers_hist]
  have key : s.fcInReady = true → u.fc = s.fc ∧ u.hist = s.hist := fun hr =>
    hu.counter.resolve_right fun hx =>
      State.fc_busy_of_ready hr ((State.fcLocked_eq_false_iff _).1 hx.1).2
  cases hi : s.fcInReady
  · simp only [Bool.and_false, Bool.false_eq_true, if_false]
    rcases hu.counter with ⟨he, hh⟩ | ⟨hl, hx⟩
    · exact .inr (.inr (.inr ⟨trivial, he, hh⟩))
    · obtain ⟨hf, hs⟩ := (State.fcLocked_eq_false_iff _).1 hl
      rcases hx with ⟨hp, he, hh⟩ | ⟨hp, he, hh⟩
      · exact .inl ⟨hf, hs, hp, hh, he⟩
      · exact .inr (.inl ⟨hf, hs, hp, hh, he⟩)
  · obtain ⟨he, hh⟩ := key hi
    have hr : u.readHist = s.readHist := State.readHist_congr hu.params hh
    have hb : u.wireBeat p.fcIn = s.wireBeat p.fcIn := by
      simp only [State.wireBeat, hu.params, State.setPins_params]
    have hx : u.symIndex = s.symIndex := by
      funext a; simp only [State.symIndex, hu.params, State.setPins_params]
    have hm : u.countLimit = s.countLimit := by
      simp only [State.countLimit, hu.params, State.setPins_params]
    have hc : u.counts p.fcIn = s.counts p.fcIn := by simp only [State.counts, he, hr, hm]
    rw [he, hr, hb, hx, hm, hc, hh]
    cases hv : p.fcInValid
    · exact .inr (.inr (.inr ⟨rfl, rfl, rfl⟩))
    · exact .inr (.inr (.inl ⟨rfl, rfl, rfl, rfl⟩))

/-- What a calm edge can do to the LUT. -/
theorem step_calm_lut {p : Pins} (hc : p.calm) {s t : State} {rest : List Pins}
    (h : step (s.setPins (p :: rest)) = .next t) :
    t.lut = s.lut ∨ s.enc.ctl.st = .idle ∧
      (p.commands .lutClear ∧ t.lut = .clear .absent ∨
       p.commands .lutWrite ∧ t.lut = s.lut.write (s.symIndex s.regs.lutAddr)
         { len := s.regs.lutLen, code := s.regs.lutCode }) := by
  obtain ⟨u, hu, rfl⟩ := step_calm hc h
  rw [State.afterTransfers_lut]
  exact hu.lut.imp id fun ⟨hl, hx⟩ => ⟨(State.encLocked_eq_false_iff _).1 hl, hx⟩

/-- What a calm edge can do to the ROM and to ROOT. -/
theorem step_calm_rom {p : Pins} (hc : p.calm) {s t : State} {rest : List Pins}
    (h : step (s.setPins (p :: rest)) = .next t) :
    (t.rom = s.rom ∨ s.dec.ctl.st = .idle ∧ p.commands .romWrite ∧
      t.rom = s.rom.write (s.nodeIndex s.regs.romAddr)
        { leaf := s.regs.romLeaf, sym := s.regs.romSym, left := s.regs.romLeft,
          right := s.regs.romRight }) ∧
    (t.root = s.root ∨ s.dec.ctl.st = .idle ∧ t.root = trunc s.params.nodeW p.regWdata) := by
  obtain ⟨u, hu, rfl⟩ := step_calm hc h
  rw [State.afterTransfers_rom, State.afterTransfers_root]
  exact ⟨hu.rom.imp id fun ⟨hl, hx⟩ => ⟨(State.decLocked_eq_false_iff _).1 hl, hx⟩,
    hu.root.imp id fun ⟨hl, _, hx⟩ => ⟨(State.decLocked_eq_false_iff _).1 hl, hx⟩⟩

/-- No edge changes the build, and every edge takes its pins off the list. -/
theorem step_frame {s t : State} {p : Pins} {rest : List Pins}
    (h : step (s.setPins (p :: rest)) = .next t) : t.params = s.params ∧ t.pins = rest := by
  rcases edge_kinds p with hr | ⟨hr, hc⟩ | hc
  · rw [step_rst hr] at h; obtain rfl := Host.Outcome.next.inj h; exact ⟨rfl, rfl⟩
  · rw [step_softReset hr hc] at h
    obtain rfl := Host.Outcome.next.inj h
    simp
  · obtain ⟨u, hu, rfl⟩ := step_calm hc h
    rw [State.afterTransfers_params, State.afterTransfers_pins, hu.params, hu.pins]
    exact ⟨rfl, rfl⟩

end Sys2Proof.Machine
end

