-- ==== Sys2Proof/Laws/Host.lean ====
section
/-! SUPPORT. What the host procedures can answer: a load or its refusal, a result or none. -/

namespace Sys2Proof.Machine

/-- What the capacity check lets pass: every symbol, the tree and every code fit the build. -/
theorem capacity_ok_iff (p : Params) (b : Built) : capacity p b = .ok () ↔
    (∀ e ∈ b.tree.leaves, e.1.toNat < 2 ^ p.symW) ∧ b.rom.length ≤ 2 ^ p.nodeW ∧
    ∀ r ∈ buildCodeTable b.tree, r.2.length ≤ p.maxLen := by
  unfold capacity
  split
  · rename_i h
    simp only [List.any_eq_true, decide_eq_true_eq] at h
    obtain ⟨e, he, hl⟩ := h
    exact ⟨fun h => by simp at h, fun ⟨h, _⟩ => absurd (h e he) (by omega)⟩
  · rename_i h1
    split
    · rename_i h
      exact ⟨fun h => by simp at h, fun ⟨_, h', _⟩ => by omega⟩
    · rename_i h2
      split
      · rename_i h
        simp only [List.any_eq_true, decide_eq_true_eq] at h
        obtain ⟨r, hr, hl⟩ := h
        exact ⟨fun h => by simp at h, fun ⟨_, _, h⟩ => absurd (h r hr) (by omega)⟩
      · rename_i h3
        simp only [List.any_eq_true, decide_eq_true_eq, not_exists, not_and, Nat.not_le,
          Nat.not_lt] at h1 h2 h3
        exact ⟨fun _ => ⟨h1, h2, h3⟩, fun _ => rfl⟩

/-- What a load can be: the lines of a tree and table that fit, or the failure of the capacity check. -/
theorem loadScript_cases (p : Params) (b : Built) :
    (capacity p b = .ok () ∧ loadScript p b = .ok (loadLines p b)) ∨
    ∃ e, capacity p b = .error e ∧ loadScript p b = .error e := by
  unfold loadScript
  cases h : capacity p b with
  | ok u => exact .inl ⟨rfl, rfl⟩
  | error e => exact .inr ⟨e, rfl, rfl⟩

/-- A unit has a result exactly when it is idle with DONE and without an error. -/
theorem UnitCtl.result_eq_some_iff {R : Type} (c : UnitCtl) (x y : R) :
    c.result x = some y ↔ c = { st := .idle, done := true, err := .none } ∧ x = y := by
  obtain ⟨st, done, err⟩ := c
  cases st <;> cases done <;> cases err <;> simp [UnitCtl.result, UnitCtl.succeeded]

/-- An operation that met an error has no result. -/
theorem UnitCtl.result_of_err {R : Type} {c : UnitCtl} (h : c.err ≠ .none) (x : R) :
    c.result x = none := by
  simp [UnitCtl.result, UnitCtl.succeeded, h]

/-! ## Scripts -/

/-- Where LUT_CODE_HI has no bits its write does nothing, so `lutw` may leave it out. -/
theorem hostWrite_lutCodeHi_narrow {s : State} (h : s.params.maxLen ≤ 32) (v : Word) :
    hostWrite Reg.lutCodeHi.index v s = .next s := by
  have hw : Reg.lutCodeHi.width s.params = 0 := Nat.sub_eq_zero_of_le h
  have ho : Reg.ofIndex Reg.lutCodeHi.index = some .lutCodeHi := rfl
  simp [hostWrite, ho, Operands.write, hw, State.setRegs]

/-- What `takeFrame` takes is one frame, from the front. -/
theorem takeFrame_some {B : Type} {ends : B → Bool} {got f rest : List B}
    (h : takeFrame ends got = some (f, rest)) : isFrame ends f = true ∧ got = f ++ rest := by
  induction got generalizing f with
  | nil => simp [takeFrame] at h
  | cons b bs ih =>
    unfold takeFrame at h
    split at h
    · simp only [Option.some.injEq, Prod.mk.injEq] at h
      obtain ⟨rfl, rfl⟩ := h
      exact ⟨by simpa [isFrame], rfl⟩
    · rename_i hb
      simp only [Option.map_eq_some_iff, Prod.mk.injEq] at h
      obtain ⟨⟨g, r⟩, hg, rfl, rfl⟩ := h
      obtain ⟨hf, rfl⟩ := ih hg
      cases g with
      | nil => simp [isFrame] at hf
      | cons c g => exact ⟨by simp [isFrame, hb, hf], rfl⟩

/-- A frame at the front is taken, whatever follows it. -/
theorem takeFrame_frame {B : Type} {ends : B → Bool} {f : List B} (h : isFrame ends f = true)
    (rest : List B) : takeFrame ends (f ++ rest) = some (f, rest) := by
  induction f with
  | nil => simp [isFrame] at h
  | cons b g ih =>
    cases g with
    | nil =>
      have hb : ends b = true := by simpa [isFrame] using h
      simp [takeFrame, hb]
    | cons c g =>
      have hb : ends b = false ∧ isFrame ends (c :: g) = true := by simpa [isFrame] using h
      rw [List.cons_append, takeFrame, if_neg (by simp [hb.1]), ih hb.2]
      rfl

/-- A `recv` line whose frame has come ends; it is met exactly if the frame is what it expects. -/
theorem receive_frame {B : Type} [DecidableEq B] {ends : B → Bool} {f : List B}
    (h : isFrame ends f = true) (w rest : List B) (ws : List (List B)) :
    receive ends (w :: ws) (f ++ rest) =
      { receive ends ws rest with met := decide (f = w) && (receive ends ws rest).met } := by
  simp only [receive, takeFrame_frame h]

/-- A `recv` line whose end beat has not come stays open and takes nothing. -/
theorem receive_open {B : Type} [DecidableEq B] {ends : B → Bool} {got : List B}
    (h : takeFrame ends got = none) (w : List B) (ws : List (List B)) :
    receive ends (w :: ws) got = { pending := w :: ws, rest := got, met := true } := by
  simp only [receive, h]

@[simp] theorem State.unitCtl_enc (s : State) : s.unitCtl .enc = s.enc.ctl := rfl
@[simp] theorem State.unitCtl_dec (s : State) : s.unitCtl .dec = s.dec.ctl := rfl
@[simp] theorem State.unitCtl_fc (s : State) : s.unitCtl .fc = s.fcView := rfl

end Sys2Proof.Machine
end

