-- ==== Sys2Proof/Laws/PerInstr.lean ====
section
/-! SUPPORT. Statements about every command as syntax, one lemma for each constructor. -/

namespace Sys2Proof

/-- The table word of the command is its opcode with a zero Z field (30_encoding.md R91), and decoding it
gives the command back. -/
def Laws.CommandWord.Statement (i : Instr) : Prop :=
  i.wf = true ∧ (encode i).toNat = (opcode i).toNat ∧ (opcode i).toNat < 13 ∧
    decodeTableWord 32 (encode i).toNat = some i

theorem Laws.CommandWord.nop : Laws.CommandWord.Statement .nop := by
  unfold Laws.CommandWord.Statement; decide

theorem Laws.CommandWord.softReset : Laws.CommandWord.Statement .softReset := by
  unfold Laws.CommandWord.Statement; decide

theorem Laws.CommandWord.clrErr : Laws.CommandWord.Statement .clrErr := by
  unfold Laws.CommandWord.Statement; decide

theorem Laws.CommandWord.lutClear : Laws.CommandWord.Statement .lutClear := by
  unfold Laws.CommandWord.Statement; decide

theorem Laws.CommandWord.lutWrite : Laws.CommandWord.Statement .lutWrite := by
  unfold Laws.CommandWord.Statement; decide

theorem Laws.CommandWord.lutRead : Laws.CommandWord.Statement .lutRead := by
  unfold Laws.CommandWord.Statement; decide

theorem Laws.CommandWord.romWrite : Laws.CommandWord.Statement .romWrite := by
  unfold Laws.CommandWord.Statement; decide

theorem Laws.CommandWord.romRead : Laws.CommandWord.Statement .romRead := by
  unfold Laws.CommandWord.Statement; decide

theorem Laws.CommandWord.histClear : Laws.CommandWord.Statement .histClear := by
  unfold Laws.CommandWord.Statement; decide

theorem Laws.CommandWord.histRead : Laws.CommandWord.Statement .histRead := by
  unfold Laws.CommandWord.Statement; decide

theorem Laws.CommandWord.fcStart : Laws.CommandWord.Statement .fcStart := by
  unfold Laws.CommandWord.Statement; decide

theorem Laws.CommandWord.encStart : Laws.CommandWord.Statement .encStart := by
  unfold Laws.CommandWord.Statement; decide

theorem Laws.CommandWord.decStart : Laws.CommandWord.Statement .decStart := by
  unfold Laws.CommandWord.Statement; decide

end Sys2Proof
end

