-- ==== Sys2Proof/Laws/Units.lean ====
section
/-! SUPPORT. What a beat does to each unit, field by field. -/

namespace Sys2Proof.Machine

/-! ## Encoder -/

section
variable (e : Encoder) (w : LutWord) (b : SymBeat)

theorem Encoder.take_ctl : (e.take w b).ctl =
    if e.ctl.st = .run ∧ b.keep = true ∧ w.len = 0 then e.ctl.errorEntry .symbolNotFound
    else e.ctl := by
  simp only [Encoder.take]
  split <;> split <;> (try split) <;> simp_all [Encoder.raiseSymbolNotFound]

theorem Encoder.take_eoi : (e.take w b).eoi = (b.last || e.eoi) := by
  simp only [Encoder.take]
  cases b.last <;> simp <;> split <;> (try split) <;> rfl

theorem Encoder.take_errSym : (e.take w b).errSym =
    if e.ctl.st = .run ∧ b.keep = true ∧ w.len = 0 then b.sym else e.errSym := by
  simp only [Encoder.take]
  split <;> split <;> (try split) <;> simp_all [Encoder.raiseSymbolNotFound]

theorem Encoder.take_n : (e.take w b).n =
    if e.ctl.st = .run ∧ b.keep = true ∧ w.len ≠ 0 then w.len else e.n := by
  simp only [Encoder.take]
  split <;> split <;> (try split) <;> simp_all [Encoder.raiseSymbolNotFound]

theorem Encoder.take_sh : (e.take w b).sh =
    if e.ctl.st = .run ∧ b.keep = true ∧ w.len ≠ 0 then w.code else e.sh := by
  simp only [Encoder.take]
  split <;> split <;> (try split) <;> simp_all [Encoder.raiseSymbolNotFound]

theorem Encoder.take_symCnt : (e.take w b).symCnt =
    if e.ctl.st = .run ∧ b.keep = true ∧ w.len ≠ 0 then e.symCnt + 1 else e.symCnt := by
  simp only [Encoder.take]
  split <;> split <;> (try split) <;> simp_all [Encoder.raiseSymbolNotFound]

theorem Encoder.take_bitCnt : (e.take w b).bitCnt = e.bitCnt := by
  simp only [Encoder.take]
  split <;> split <;> (try split) <;> simp_all [Encoder.raiseSymbolNotFound]

theorem Encoder.give_ctl : e.give.ctl = if e.n = 0 then e.ctl.finish else e.ctl := by
  simp only [Encoder.give]; split <;> simp_all

theorem Encoder.give_errSym : e.give.errSym = e.errSym := by
  simp only [Encoder.give]; split <;> rfl

theorem Encoder.give_sh : e.give.sh = e.sh := by
  simp only [Encoder.give]; split <;> rfl

theorem Encoder.give_eoi : e.give.eoi = if e.n = 0 then false else e.eoi := by
  simp only [Encoder.give]; split <;> simp_all

theorem Encoder.give_n : e.give.n = if e.n = 0 then 0 else e.n - 1 := by
  simp only [Encoder.give]; split <;> simp_all

end

/-! ## Decoder -/

section
variable (d : Decoder) (rom : Handle → RomWord) (root : Handle)

theorem Decoder.walkBit_ctl (bit : Bool) : (d.walkBit rom root bit).ctl = d.ctl := by
  simp only [Decoder.walkBit]; split <;> rfl

theorem Decoder.walkBit_eoi (bit : Bool) : (d.walkBit rom root bit).eoi = d.eoi := by
  simp only [Decoder.walkBit]; split <;> rfl

theorem Decoder.walkBit_symCnt (bit : Bool) : (d.walkBit rom root bit).symCnt = d.symCnt := by
  simp only [Decoder.walkBit]; split <;> rfl

/-- The walk position and the symbol a beat leaves: those of the payload, `last` changes none. -/
theorem Decoder.take_walk (b : BitBeat) :
    let k := if d.ctl.st = .run ∧ b.keep = true then d.walkBit rom root b.bit else d
    (d.take rom root b).cur = k.cur ∧ (d.take rom root b).mid = k.mid ∧
      (d.take rom root b).outSym = k.outSym ∧ (d.take rom root b).outV = k.outV ∧
      (d.take rom root b).bitCnt = k.bitCnt ∧ (d.take rom root b).symCnt = k.symCnt := by
  simp only [Decoder.take, Decoder.endOfInput]
  split <;> split <;> (try split) <;> simp [Decoder.raise]

theorem Decoder.take_ctl (b : BitBeat) :
    (d.take rom root b).ctl =
      if d.ctl.st = .run ∧ b.last = true ∧ (d.take rom root b).mid = true then
        d.ctl.errorEntry .malformedStream else d.ctl := by
  rw [(d.take_walk rom root b).2.1]
  simp only [Decoder.take, Decoder.endOfInput]
  split <;> split <;> (try split) <;> simp_all [Decoder.walkBit_ctl, Decoder.raise]

theorem Decoder.take_eoi (b : BitBeat) : (d.take rom root b).eoi = (b.last || d.eoi) := by
  simp only [Decoder.take, Decoder.endOfInput]
  split <;> split <;> (try split) <;> simp_all [Decoder.walkBit_eoi, Decoder.raise]

/-- Outside RUN a beat can only be the last one. -/
theorem Decoder.take_drain (b : BitBeat) (h : d.ctl.st ≠ .run) :
    d.take rom root b = { d with eoi := b.last || d.eoi } := by
  simp only [Decoder.take, Decoder.endOfInput]
  split <;> split <;> (try split) <;> simp_all

theorem Decoder.give_ctl : d.give.ctl = if d.outV then d.ctl else d.ctl.finish := by
  simp only [Decoder.give]; split <;> simp_all

theorem Decoder.give_eoi : d.give.eoi = if d.outV then d.eoi else false := by
  simp only [Decoder.give]; split <;> simp_all

theorem Decoder.give_outV : d.give.outV = false := by
  simp only [Decoder.give]; split <;> simp_all

theorem Decoder.give_walk :
    d.give.cur = d.cur ∧ d.give.mid = d.mid ∧ d.give.outSym = d.outSym ∧ d.give.bitCnt = d.bitCnt := by
  simp only [Decoder.give]; split <;> simp

end

/-! ## Counter -/

section
variable (c : Counter) (h : Word) (limit : Nat) (b : SymBeat)

theorem Counter.take_ctl : (c.take h limit b).ctl =
    let k := if c.ctl.st = .run ∧ b.keep = true ∧ h.toNat = limit then
      c.ctl.errorEntry .countOverflow else c.ctl
    if b.last then k.finish else k := by
  simp only [Counter.take]
  split <;> split <;> (try split) <;> simp_all [Counter.raiseCountOverflow]

theorem Counter.take_errSym : (c.take h limit b).errSym =
    if c.ctl.st = .run ∧ b.keep = true ∧ h.toNat = limit then b.sym else c.errSym := by
  simp only [Counter.take]
  split <;> split <;> (try split) <;> simp_all [Counter.raiseCountOverflow]

theorem Counter.take_total : (c.take h limit b).total =
    if c.ctl.st = .run ∧ b.keep = true ∧ h.toNat ≠ limit then c.total + 1 else c.total := by
  simp only [Counter.take]
  split <;> split <;> (try split) <;> simp_all [Counter.raiseCountOverflow]

end

end Sys2Proof.Machine
end

