-- ==== Sys2Proof/Laws/Widths.lean ====
section
/-! SUPPORT. Stored widths: what the memory operations, the truncations and the writes of operand
registers keep. -/

namespace Sys2Proof.Machine

/-! ## Memories -/

section
variable {W : Type} [DecidableEq W] {depth : Nat} {fits : W → Prop}

theorem Memory.Good.write {m : Memory W} (h : m.Good depth fits) {a : Nat} {w : W}
    (ha : a < depth) (hw : fits w) : (m.write a w).Good depth fits := by
  obtain ⟨h1, h2, h3⟩ := h
  refine ⟨Memory.wf_write h1 a w, fun c hc => ?_, fun v hv => h3 v (by simpa using hv)⟩
  unfold Memory.write at hc
  split at hc
  · exact h2 c (mem_dropCell hc)
  · rcases mem_putCell hc with rfl | hc
    · exact ⟨ha, hw⟩
    · exact h2 c hc

theorem Memory.Good.clear {w : W} (hw : fits w) : (Memory.clear w).Good depth fits :=
  ⟨Memory.wf_clear w, fun c hc => by simp [Memory.clear] at hc,
    fun v hv => by simp only [Memory.clear, Fill.all.injEq] at hv; exact hv ▸ hw⟩

theorem Memory.Good.unspecified (n : Nat) : (Memory.unspecified W n).Good depth fits :=
  ⟨Memory.wf_unspecified n, fun c hc => by simp [Memory.unspecified] at hc,
    fun v hv => by simp [Memory.unspecified] at hv⟩

omit [DecidableEq W] in
theorem mem_of_cellAt {a : Nat} {w : W} {l : List (Nat × W)} (h : cellAt a l = some w) :
    (a, w) ∈ l := by
  induction l with
  | nil => simp [cellAt] at h
  | cons c l ih =>
    obtain ⟨b, v⟩ := c
    simp only [cellAt] at h
    split at h
    · simp_all
    · exact List.mem_cons_of_mem _ (ih h)

theorem Memory.Good.read {m : Memory W} (h : m.Good depth fits) {free : Nat → Nat → W}
    (hf : ∀ n a, fits (free n a)) (a : Nat) : fits (m.read free a) := by
  obtain ⟨-, h2, h3⟩ := h
  unfold Memory.read
  split
  · exact (h2 _ (mem_of_cellAt ‹_›)).2
  · unfold Memory.unlisted
    split
    · exact hf _ _
    · exact h3 _ ‹_›

end

/-! ## Words -/

theorem fitsWidth_setWidth {n k w : Nat} {v : BitVec n} (h : fitsWidth w v) :
    fitsWidth w (v.setWidth k) := by
  unfold fitsWidth at h ⊢
  rw [BitVec.toNat_setWidth]
  exact lt_of_le_of_lt (Nat.mod_le _ _) h

theorem fitsWidth_trunc_of_le {n w k : Nat} (h : w ≤ k) (v : BitVec n) :
    fitsWidth k (trunc w v) :=
  lt_of_lt_of_le (fitsWidth_trunc w v) (Nat.pow_le_pow_right (by omega) h)

theorem LutWord.fits_fit (p : Params) (w : LutWord) : LutWord.fits p (fitLutWord p w) :=
  ⟨fitsWidth_trunc _ _, fitsWidth_trunc _ _⟩

theorem RomWord.fits_fit (p : Params) (w : RomWord) : RomWord.fits p (fitRomWord p w) :=
  ⟨fitsWidth_trunc _ _, fitsWidth_trunc _ _, fitsWidth_trunc _ _⟩

theorem LutWord.fits_absent (p : Params) : LutWord.fits p LutWord.absent :=
  ⟨fitsWidth_zero _, fitsWidth_zero _⟩

theorem toNat_codeOf (hi lo : Word) :
    (codeOf hi lo).toNat = (hi.toNat % 2 ^ 31) * 2 ^ 32 + lo.toNat := by
  have e : codeOf hi lo = (hi.setWidth 31 ++ lo).setWidth 63 := by
    apply BitVec.eq_of_getLsbD_eq
    intro i hi'
    simp only [codeOf, BitVec.getLsbD_or, BitVec.getLsbD_shiftLeft, BitVec.getLsbD_setWidth,
      BitVec.getLsbD_append]
    by_cases h : i < 32
    · simp [h, hi']
    · simp [h, hi', show i - 32 < 31 by omega, show i - 32 < 63 by omega]
      intro hh
      have := BitVec.lt_of_getLsbD hh
      omega
  rw [e, BitVec.toNat_setWidth, BitVec.toNat_append, BitVec.toNat_setWidth,
    ← Nat.shiftLeft_add_eq_or_of_lt lo.isLt, Nat.shiftLeft_eq]
  have := lo.isLt
  have := Nat.mod_lt hi.toNat (Nat.two_pow_pos 31)
  omega

theorem toNat_codeLo (c : CodeVal) : (codeLo c).toNat = c.toNat % 2 ^ 32 := by
  simp [codeLo]

theorem toNat_codeHi (c : CodeVal) : (codeHi c).toNat = c.toNat / 2 ^ 32 := by
  have := c.isLt
  simp only [codeHi, BitVec.extractLsb'_toNat, Nat.shiftRight_eq_div_pow]
  omega

/-- The two halves of a code make the code. -/
theorem codeOf_halves (c : CodeVal) : codeOf (codeHi c) (codeLo c) = c := by
  apply BitVec.eq_of_toNat_eq
  have := c.isLt
  rw [toNat_codeOf, toNat_codeHi, toNat_codeLo]
  omega

theorem codeLo_codeOf (hi lo : Word) : codeLo (codeOf hi lo) = lo := by
  apply BitVec.eq_of_toNat_eq
  have := lo.isLt
  rw [toNat_codeLo, toNat_codeOf]
  omega

end Sys2Proof.Machine
end

