-- ==== Sys2Proof/Tests/Slice0.lean ====
section
/-! SUPPORT. Small tests with expected results from spec/ (95_test_vectors.md and the worked traces), and
for every statement of Obligations.lean one state and operands that meet its hypotheses. -/

namespace Sys2Proof.Machine

/-! ## Well-formed terms -/

theorem test_wf_command : Instr.wf .lutWrite = true := by decide
theorem test_wf_params_builds : Params.default.legal = true ∧ Params.t8.legal = true := by decide
theorem test_wf_params_symW :
    Params.legal { Params.t8 with symW := 0 } = false ∧
    Params.legal { Params.t8 with symW := 33 } = false := by decide
theorem test_wf_params_nodeW :
    Params.legal { Params.t8 with nodeW := 0 } = false ∧
    Params.legal { Params.t8 with nodeW := 33 } = false := by decide
theorem test_wf_params_lenW :
    Params.legal { Params.t8 with lenW := 0 } = false ∧
    Params.legal { Params.t8 with lenW := 7 } = false := by decide
theorem test_wf_params_cntW :
    Params.legal { Params.t8 with cntW := 0 } = false ∧
    Params.legal { Params.t8 with cntW := 33 } = false := by decide

/-! ## Decoding: the words of 30_encoding.md R92, bit by bit -/

theorem test_decode_nop :
    decode 0b00000000_00000000_00000000_00000000#32 = .ok .nop := by decide
theorem test_decode_softReset :
    decode 0b00000000_00000000_00000000_00000001#32 = .ok .softReset := by decide
theorem test_decode_clrErr :
    decode 0b00000000_00000000_00000000_00000010#32 = .ok .clrErr := by decide
theorem test_decode_lutClear :
    decode 0b00000000_00000000_00000000_00000011#32 = .ok .lutClear := by decide
theorem test_decode_lutWrite :
    decode 0b00000000_00000000_00000000_00000100#32 = .ok .lutWrite := by decide
theorem test_decode_lutRead :
    decode 0b00000000_00000000_00000000_00000101#32 = .ok .lutRead := by decide
theorem test_decode_romWrite :
    decode 0b00000000_00000000_00000000_00000110#32 = .ok .romWrite := by decide
theorem test_decode_romRead :
    decode 0b00000000_00000000_00000000_00000111#32 = .ok .romRead := by decide
theorem test_decode_histClear :
    decode 0b00000000_00000000_00000000_00001000#32 = .ok .histClear := by decide
theorem test_decode_histRead :
    decode 0b00000000_00000000_00000000_00001001#32 = .ok .histRead := by decide
theorem test_decode_fcStart :
    decode 0b00000000_00000000_00000000_00001010#32 = .ok .fcStart := by decide
theorem test_decode_encStart :
    decode 0b00000000_00000000_00000000_00001011#32 = .ok .encStart := by decide
theorem test_decode_decStart :
    decode 0b00000000_00000000_00000000_00001100#32 = .ok .decStart := by decide

/-- The reserved words of vector A5. -/
theorem test_decode_reserved :
    [0x0D, 0xFF, 0x100, 0x10B, 0x8000000B].map (decodeTableWord 32) =
      [none, none, none, none, none] := by decide

/-! ## States and edges to test on -/

/-- The outcome as a state; a stop gives the state before it. -/
def after (o : Host.Outcome State Fault Refusal) (s : State) : State :=
  match o with
  | .next t => t
  | .fault _ => s
  | .refused _ => s

/-- After `rst`, the tables cleared, in the build `p`. -/
def blank (p : Params) : State :=
  { State.reset with
    params := p, lut := .clear .absent, hist := .clear 0,
    rom := .clear { leaf := false, sym := 0, left := 0, right := 0 } }

/-- The images of 95_test_vectors.md section 2.1 in T8: a is 0, b is 1, the root is word 2. -/
def abab : State :=
  ((((((blank .t8).writeLut 0x61 { len := 1, code := 0 }).writeLut 0x62
    { len := 1, code := 1 }).writeRom 0 (leafWord 0x61)).writeRom 1
    (leafWord 0x62)).writeRom 2 (nodeWord 0 1)).setRoot 2

/-- A busy unit in RUN. -/
def running : UnitCtl := { st := .run, done := false, err := .none }

/-- `abab` with the encoder in RUN, `n` bits of the code `1…1` waiting. -/
def encoding (n : CodeLen) (eoi : Bool) : State :=
  abab.setEnc { Encoder.reset with ctl := running, n := n, sh := 0b11, eoi := eoi }

/-- `abab` with the encoder in DRAIN after SymbolNotFound. -/
def encDraining : State :=
  abab.setEnc { Encoder.reset with
    ctl := { st := .drain, done := false, err := .symbolNotFound }, errSym := 0x78 }

/-- `abab` with the decoder in RUN at the root, a symbol waiting or not. -/
def decoding (v eoi : Bool) : State :=
  abab.setDec { Decoder.reset with ctl := running, cur := 2, outSym := 0x61, outV := v, eoi := eoi }

/-- A decoder in RUN, one bit into a code of the tree `4 = node(3, 0)`, `3 = node(1, 2)`. -/
def decodingMid : State :=
  ((abab.writeRom 3 (nodeWord 1 2)).writeRom 4 (nodeWord 3 0)).setDec
    { Decoder.reset with ctl := running, cur := 3, mid := true }

/-- `abab` with the decoder in DRAIN after MalformedStream. -/
def decDraining : State :=
  abab.setDec { Decoder.reset with
    ctl := { st := .drain, done := false, err := .malformedStream }, cur := 2, mid := true }

/-- `abab` with the counter in RUN and `n` counted of 'a'. -/
def counting (n : Word) : State :=
  (abab.writeHist 0x61 n).setFc { Counter.reset with ctl := running }

/-- `abab` with the counter in DRAIN. -/
def fcDraining : State :=
  abab.setFc { Counter.reset with
    ctl := { st := .drain, done := false, err := .countOverflow }, errSym := 0x61 }

/-- A payload beat. -/
def pay (x : Sym) : SymBeat := { sym := x, keep := true, last := false }

/-- A payload beat that also ends its frame. -/
def payLast (x : Sym) : SymBeat := { sym := x, keep := true, last := true }

/-- A bare end beat. -/
def endBeat : SymBeat := { sym := 0, keep := false, last := true }

/-- A bit beat. -/
def bit (b last : Bool) : BitBeat := { bit := b, keep := true, last := last }

/-- A bare end beat of a bit frame. -/
def bitEnd : BitBeat := { bit := false, keep := false, last := true }

/-- An edge that writes the command and accepts on both outputs. -/
def cmdPins (i : Instr) : Pins :=
  { Pins.write Reg.cmd.index (encode i) with encOutReady := true, decOutReady := true }

/-! ## Commands, one step each -/

theorem test_nop : after (step (abab.withFetchWord 32 0)) (blank .default) = abab := by decide
/-- Vector A6. -/
theorem test_clrErr :
    (after (step ((abab.setCmdErr true).withFetchWord 32 2)) abab).status = 0 := by decide
/-- Vectors A7 and L5: the registers are gone, the LUT stays. -/
theorem test_softReset : let t := after (step ((encoding 2 false).withFetchWord 32 1)) abab
    t.status = 0 ∧ t.root = 0 ∧ t.encOutValid = false ∧
      t.readLut 0x62 = { len := 1, code := 1 } := by decide
/-- 70_reset_and_hazards.md R231: a counted beat at the edge of SOFT_RESET leaves HIST as it was. -/
theorem test_softReset_erases_count :
    let t := after (step ((counting 2).setPins
      [{ cmdPins .softReset with fcInValid := true, fcIn := pay 0x61 }])) abab
    t.readHist 0x61 = 2 ∧ t.status = 0 ∧ t.readReg .fcTotal = 0 := by decide
/-- Vector M1. -/
theorem test_lutClear :
    (after (step (abab.withFetchWord 32 3)) abab).readLut 0x62 = { len := 0, code := 0 } := by decide
/-- Vector M4: T8 truncates the address, the length and the code. -/
theorem test_lutWrite_truncates :
    let s := after (hostWrite 0x0B 0x141 abab) abab
    let s := after (hostWrite 0x0C 0x1F s) abab
    let s := after (hostWrite 0x0D 0xFFFF s) abab
    (after (exec .lutWrite s) abab).readLut 0x41 = { len := 15, code := 0x7FFF } := by decide
/-- Vector E3: rejected with the encoder busy. -/
theorem test_lutWrite_locked :
    (after (exec .lutWrite encDraining) abab).status = 0x01000032 := by decide
/-- Vector M2. -/
theorem test_lutRead :
    let s := after (hostWrite 0x0B 0x62 abab) abab
    let t := after (exec .lutRead s) abab
    t.readReg .lutLen = 1 ∧ t.readReg .lutCodeLo = 1 ∧ t.readReg .lutCodeHi = 0 := by decide
/-- Vector M7: ignored fields are stored. -/
theorem test_romWrite :
    let s := abab.setRegs { Operands.reset with
      romAddr := 9, romLeaf := true, romSym := 0x7A, romLeft := 5, romRight := 6 }
    (after (exec .romWrite s) abab).readRom 9 =
      { leaf := true, sym := 0x7A, left := 5, right := 6 } := by decide
/-- Vector M6. -/
theorem test_romRead :
    let s := abab.setRegs { Operands.reset with romAddr := 2, romLeft := 7, romLeaf := true }
    let t := after (exec .romRead s) abab
    t.readReg .romLeaf = 0 ∧ t.readReg .romSym = 0 ∧ t.readReg .romLeft = 0 ∧
      t.readReg .romRight = 1 := by decide
/-- Vector M8; FC_DONE stays (program P4). -/
theorem test_histClear :
    let s := (counting 7).setFc
      { ctl := { st := .idle, done := true, err := .countOverflow }, errSym := 0x61, total := 9 }
    let t := after (exec .histClear s) abab
    t.readHist 0x61 = 0 ∧ t.readReg .fcTotal = 0 ∧ t.status = 0x00540000 := by decide
/-- Vector F8: rejected without a counter. -/
theorem test_histClear_noCounter :
    (after (exec .histClear (blank { Params.t8 with hasFc := false })) abab).status =
      0x01000000 := by decide
/-- Vector F1. -/
theorem test_histRead :
    let s := (abab.writeHist 0x61 2).setRegs { Operands.reset with histAddr := 0x61 }
    (after (exec .histRead s) abab).readReg .histData = 2 := by decide
/-- Vector F9. -/
theorem test_histRead_locked :
    (after (exec .histRead (counting 0)) abab).status = 0x01010000 := by decide
/-- Vector F7. -/
theorem test_fcStart :
    let s := abab.setFc
      { ctl := { st := .idle, done := true, err := .countOverflow }, errSym := 0x61, total := 9 }
    let t := after (exec .fcStart s) abab
    t.status = 0x00010000 ∧ t.readReg .fcErrSym = 0 ∧ t.readReg .fcTotal = 9 := by decide
/-- Vectors E1 and L4: no beat is taken at the edge of ENC_START. -/
theorem test_encStart :
    let p := { cmdPins .encStart with encInValid := true, encIn := pay 0x61 }
    let t := after (step (abab.setPins [p])) abab
    t.status = 0x00000001 ∧ t.readReg .encSymCnt = 0 ∧ t.encInReady = true := by decide
/-- Vector D10: the root is an Internal node. -/
theorem test_decStart :
    let t := after (exec .decStart abab) abab
    t.status = 0x00000100 ∧ t.readReg .decCur = 2 := by decide
/-- Vector D8: the root is a Leaf. -/
theorem test_decStart_leaf :
    let t := after (exec .decStart (abab.setRoot 0)) abab
    t.status = 0x00002200 ∧ t.readReg .decCur = 0 := by decide

/-! ## Registers -/

/-- Vector A3, T8. -/
theorem test_truncation_t8 :
    ([0x0A, 0x0B, 0x0C, 0x0D, 0x0E, 0x10, 0x14].map fun i =>
      (after (hostWrite i 0xFFFFFFFF abab) abab).readIndex i) =
    [0x1FF, 0xFF, 0xF, 0x7FFF, 0, 1, 0xFF] := by decide
/-- Vector A2, defaults. -/
theorem test_truncation_default :
    ([0x0A, 0x0C, 0x0D, 0x0E, 0x11, 0x13].map fun i =>
      (after (hostWrite i 0xFFFFFFFF (blank .default)) abab).readIndex i) =
    [0x3FFFFF, 0x3F, 0xFFFFFFFF, 0x7FFFFFFF, 0x1FFFFF, 0x3FFFFF] := by decide
/-- Vector A1: PARAMS of the two builds. -/
theorem test_params : (blank .default).readIndex 0x16 = 0x00606595 ∧
    abab.readIndex 0x16 = 0x00484248 := by decide

/-! ## Transfers -/

/-- 43_encoder.md R181: take 'b' whose code is one bit 1, then give it. -/
theorem test_encoder_take : let s := (encoding 0 false).takeEnc (pay 0x62)
    s.enc.n = 1 ∧ s.enc.sh = 1 ∧ s.enc.symCnt = 1 ∧
      s.encOut = { bit := true, keep := true, last := false } := by decide
/-- Vector E2: 'x' has no code. -/
theorem test_encoder_symbolNotFound : let s := (encoding 0 false).takeEnc (pay 0x78)
    s.status = 0x00000032 ∧ s.readReg .encErrSym = 0x78 := by decide
/-- 60_exceptions.md R209: ENC_START at the edge of the end beat starts nothing. -/
theorem test_endBeat_and_encStart :
    (after (step ((encoding 0 true).setPins [cmdPins .encStart])) abab).status = 0x01000004 := by
  decide
/-- Vector L3: LUT_WRITE at the edge of the end beat is rejected. -/
theorem test_endBeat_and_lutWrite :
    let t := after (step ((encoding 0 true).setPins [cmdPins .lutWrite])) abab
    t.status = 0x01000004 ∧ t.lut = abab.lut := by decide
/-- 44_decoder.md R198: bit 1 is right, the leaf 'b'. -/
theorem test_decoder_take : let s := (decoding false false).takeDec (bit true false)
    s.dec.outSym = 0x62 ∧ s.dec.outV = true ∧ s.dec.cur = 2 ∧ s.dec.bitCnt = 1 := by decide
/-- Vector D2: the input ends inside a code. -/
theorem test_decoder_malformed :
    ((decodingMid.takeDec bitEnd).giveDec).status = 0x00084400 := by decide
/-- Vector F6: the count of 'a' stands at 255. -/
theorem test_counter_overflow : let s := (counting 255).takeFc (pay 0x61)
    s.status = 0x00520000 ∧ s.readReg .fcErrSym = 0x61 ∧ s.readHist 0x61 = 255 := by decide
/-- Vector F2: a payload beat that ends the frame is counted. -/
theorem test_counter_last : let s := (counting 2).takeFc (payLast 0x61)
    s.status = 0x00040000 ∧ s.readHist 0x61 = 3 ∧ s.readReg .fcTotal = 1 := by decide
/-- Vector L6: `rst` wins over a write of ROOT. -/
theorem test_rst_wins :
    (after (step (abab.setPins [{ Pins.write 0x0A 5 with rst := true }])) abab).root = 0 := by decide

/-! ## Host procedures and scripts -/

/-- 95_test_vectors.md section 2.4: a Leaf and an Internal node of equal weight. -/
theorem test_build_tie :
    (build [(0x61, 3), (0x62, 2), (0x63, 1)]).toOption.map
      (fun b => (b.root, buildCodeTable b.tree)) =
    some (4, [(0x61, [false]), (0x62, [true, false]), (0x63, [true, true])]) := by decide
/-- Vectors H1 and H2. -/
theorem test_build_few : buildTree [] = .error .emptyInput ∧
    buildTree [(0x61, 4)] = .error .singleSymbolInput := by decide
/-- 42_host_tree_and_table.md R165: what does not fit is refused and nothing is loaded. -/
theorem test_load_refused :
    loadMap .t8 [(0x161, 1), (0x62, 1)] = .error .symbolTooWide ∧
    loadMap { Params.t8 with nodeW := 1 } [(0x61, 1), (0x62, 1)] = .error .treeTooLarge ∧
    loadMap { Params.t8 with lenW := 1 } [(0x61, 3), (0x62, 2), (0x63, 1)] =
      .error .codeTooLong ∧
    loadMap .t8 [(0x61, 1)] = .error (.numbered .singleSymbolInput) := by decide
/-- 60_exceptions.md R201: EmptyInput is 1 and SingleSymbolInput 2 for host software too; R203: CodeTooLong
has no code. -/
theorem test_hostError_codes :
    (match loadMap .t8 [] with | .ok _ => none | .error e => e.code) = some 1 ∧
    (match loadMap .t8 [(0x61, 1)] with | .ok _ => none | .error e => e.code) = some 2 ∧
    HostError.code .codeTooLong = none := by decide
/-- 95_test_vectors.md section 2.1: the images of "abab" are loaded, 3 ROM words and ROOT 2. -/
theorem test_load :
    (loadMap .t8 [(0x61, 2), (0x62, 2)]).toOption.map (fun ls => (scriptWrites ls).drop 9) =
      some ([(0x0F, 0), (0x10, 1), (0x11, 0x61), (0x12, 0), (0x13, 0), (0x00, 6),
        (0x0F, 1), (0x10, 1), (0x11, 0x62), (0x12, 0), (0x13, 0), (0x00, 6)] ++
        [(0x0F, 2), (0x10, 0), (0x11, 0), (0x12, 0), (0x13, 1), (0x00, 6), (0x0A, 2)]) := by decide
/-- `abab` on a bench with nothing to offer. -/
def scriptBench : Bench :=
  { st := abab, wired := false, fcQ := [], encQ := [], decQ := [], encGot := [], decGot := [],
    encFrame := [], decFrame := [] }

/-- The lines of program P1 that encode 'a' 'b'; in T8 with the images of "abab" the output is 0 1 !. -/
def encodeLines : List ScriptLine :=
  [.cmd .encStart, .sendEnc [pay 0x61, payLast 0x62], .wait .enc]

/-- Program P3 on the bench of the "abc" code: a decode that ended with DEC_ERR 4 after 'a' 'b' has no
result; the next one has 'a' 'b' 'c', not the debris before it, though a `recv` has taken its beats. -/
theorem test_results :
    let s := ((((((blank .t8).writeRom 0 (leafWord 0x61)).writeRom 1 (leafWord 0x62)).writeRom 2
      (leafWord 0x63)).writeRom 3 (nodeWord 1 2)).writeRom 4 (nodeWord 3 0)).setRoot 4
    let bits := [bit true false, bit false false, bit false false, bit false false]
    let failed := performScript 12 { scriptBench with st := s }
      [.cmd .decStart, .sendDec (bits ++ [bitEnd]), .wait .dec]
    let good := failed.bind fun r => performScript 12 r.bench
      [.cmd .decStart, .sendDec (bits ++ [bit true false, bitEnd]), .wait .dec]
    let taken := good.bind fun r => performScript 12 r.bench
      [.recvDec [pay 0x61, pay 0x62, endBeat], .recvDec [pay 0x61, pay 0x62, pay 0x63, endBeat]]
    failed.map (fun r => r.bench.decResult) = some none ∧
    good.map (fun r => r.bench.decResult) = some (some [0x61, 0x62, 0x63]) ∧
    taken.map (fun r => (r.passed, r.bench.decResult)) =
      some (true, some [0x61, 0x62, 0x63]) := by decide
/-- Program P3: the beats 1 0 0 of an encode that ended with ENC_ERR 3 are no result. -/
theorem test_encResult :
    let b : Bench := { scriptBench with
      st := abab.setEnc { Encoder.reset with
        ctl := { st := .idle, done := true, err := .symbolNotFound } },
      encFrame := [bit true false, bit false false, bit false false, bitEnd] }
    b.encResult = none ∧ (scriptPasses 9 scriptBench encodeLines = true ∧
      (performScript 9 scriptBench encodeLines).map (fun r => r.bench.encResult) =
        some (some [false, true])) := by decide
/-- Vector F6: a counting operation that overflowed has no result, and its histogram is to be cleared. -/
theorem test_fcResult :
    let s := (counting 255).takeFc (payLast 0x61)
    let t := (counting 2).takeFc (payLast 0x61)
    s.fcResult [0x61] = none ∧ s.fcCleanup = [.histClear] ∧
      t.fcResult [0x61, 0x62] = some [(0x61, 3)] ∧ t.fcCleanup = [] := by decide
/-- Program P3 ends with the ENC_ERR 3 its author meant: the run has gone wrong only for one who expected
a result from the encoder. -/
theorem test_goneWrong :
    let s := abab.setEnc { Encoder.reset with
      ctl := { st := .idle, done := true, err := .symbolNotFound }, errSym := 0x64 }
    ¬ s.goneWrong (fun u => decide (u = .dec)) ∧ s.goneWrong (fun u => decide (u = .enc)) ∧
      (s.setCmdErr true).goneWrong (fun _ => false) ∧
      (encoding 1 false).goneWrong (fun _ => false) := by
  refine ⟨?_, .inr (.inl ⟨.enc, by decide⟩), .inr (.inr rfl), .inl ⟨.enc, by decide⟩⟩
  rintro (⟨u, h⟩ | ⟨u, h⟩ | h)
  · cases u <;> revert h <;> decide
  · cases u <;> revert h <;> decide
  · revert h; decide
/-- The example of 30_encoding.md R103. -/
theorem test_script :
    scriptWrites (lutw .default false 0x61 1 1 ++ [.cmd .encStart]) =
      [(0x0B, 0x61), (0x0C, 1), (0x0D, 1), (0x0E, 0), (0x00, 4), (0x00, 0x0B)] := by decide
/-- 30_encoding.md R101: `recv` does not block; its frame may come through a later `send`, and it expects
exactly the beats to the end beat. -/
theorem test_recv_before_send :
    scriptPasses 9 scriptBench
      (.recvEnc [bit false false, bit true false, bitEnd] :: encodeLines) = true ∧
    scriptPasses 9 scriptBench (.recvEnc [bit false false, bitEnd] :: encodeLines) = false := by
  decide
/-- 30_encoding.md R101: two frames have come, and each `recv` takes one, to its end beat. -/
theorem test_recv_two_frames :
    scriptPasses 9 scriptBench (encodeLines ++
      [.cmd .encStart, .sendEnc [payLast 0x62], .wait .enc,
       .recvEnc [bit false false, bit true false, bitEnd], .recvEnc [bit true false, bitEnd]]) =
      true := by decide
/-- 30_encoding.md R101: without an end beat a `recv` stays open, and the script goes on. -/
theorem test_recv_open :
    (performScript 9 scriptBench [.cmd .encStart, .recvEnc [bit true false],
      .sendEnc [pay 0x62], wrReg .lutAddr 7, rdReg .lutAddr 7]).map
      (fun r => (r.met, r.encWant, r.passed)) = some (true, [[bit true false]], false) := by decide
/-- 30_encoding.md R101: an environment that accepts only for a `recv` ends the operation with one and
leaves `wait ENC` waiting without. -/
theorem test_recv_accepts :
    let env : ScriptEnv := { alwaysAccepts := false }
    (performLines env (.start scriptBench) (encodeLines.map fun l => (9, l))).isNone = true ∧
    (performLines env (.start scriptBench)
      ((ScriptLine.recvEnc [bit false false, bit true false, bitEnd] :: encodeLines).map
        fun l => (9, l))).any ScriptRun.passed = true := by decide
/-- 30_encoding.md R102: without bits in LUT_CODE_HI (T8), or with a short code and LUT_CODE_HI known to be
0, its line is left out; a code of more than 32 bits has it. -/
theorem test_lutw_omits :
    scriptWrites (lutw .t8 false 0x61 1 1) = [(0x0B, 0x61), (0x0C, 1), (0x0D, 1), (0x00, 4)] ∧
    scriptWrites (lutw .default true 0x61 1 1) =
      [(0x0B, 0x61), (0x0C, 1), (0x0D, 1), (0x00, 4)] ∧
    scriptWrites (lutw .default true 0x61 33 0x100000001) =
      [(0x0B, 0x61), (0x0C, 33), (0x0D, 1), (0x0E, 1), (0x00, 4)] := by decide
/-- 95_test_vectors.md section 2.3: encode("abc") is 10001, packed 0x88. -/
theorem test_pack : packStream [true, false, false, false, true] = ([0x88], 5) := by decide

/-! ## Witnesses: states and operands that meet the hypotheses of the statements

`witness_X` is about the statement `Obligations.X`; where it has several clauses, one conjunct for each. -/

/-- Every step answers a next state, the one `after` gives. -/
theorem step_after (s d : State) : step s = .next (after (step s) d) := by
  obtain ⟨t, ht⟩ := runEvents_next (edgeEvents s.coming.1 s) (s.setPins s.coming.2)
  have h : step s = .next t := ht
  rw [h]; rfl

/-- One edge of `s` with the pins `p`. -/
def edge (s : State) (p : Pins) : State := after (step (s.setPins [p])) s

theorem edge_step (s : State) (p : Pins) : step (s.setPins [p]) = .next (edge s p) :=
  step_after _ _

/-- `abab` in a build without a counter. -/
def noCounter : State := { abab with params := { Params.t8 with hasFc := false } }

theorem witness_CommandDecodeIsExactMatch :
    decode 0x00000003 = .ok .lutClear ∧ cmdZ 0x00000100 ≠ 0 ∧
    (∀ i : Instr, cmdOp 0x0000000D ≠ opcode i) ∧ (∀ i : Instr, cmdOp 0x000000FF ≠ opcode i) := by
  refine ⟨by decide, by decide, ?_, ?_⟩ <;> intro i <;> cases i <;> decide

theorem witness_ReservedEncodingsAreInert :
    (0x00000100#32).extractLsb' 8 24 ≠ 0 ∧ 0x0D ≤ ((0x0000000D#32).extractLsb' 0 8).toNat ∧
    0x0D ≤ ((0x000000FF#32).extractLsb' 0 8).toNat ∧ 0x17 ≤ (0x17#6).toNat ∧
    0x17 ≤ (0x3F#6).toNat := by decide

theorem witness_RegisterAccessFollowsWidthAndKind :
    abab.params.legal = true ∧ Reg.root.access = .readWrite ∧ abab.decLocked = false ∧
    Reg.histAddr.access = .readWrite ∧ Reg.lutCodeHi.width abab.params = 0 ∧
    noCounter.params.legal = true ∧ Reg.histAddr.width noCounter.params = 0 ∧
    Reg.status.access = .readOnly ∧ 0x17 ≤ (0x17#6).toNat := by decide

theorem witness_HostReadHasNoEffect : (cmdPins .nop).regWr = true ∧ Pins.idle.regWr = false := by
  decide

theorem witness_HostWriteEffectByIndex :
    (decoding false false).dec.ctl.st ≠ .idle ∧ abab.dec.ctl.st = .idle ∧
    (0x0B ≤ (0x0B#6).toNat ∧ (0x0B#6).toNat ≤ 0x14) ∧
    (0x0B ≤ (0x14#6).toNat ∧ (0x14#6).toNat ≤ 0x14) ∧
    (1 ≤ (0x01#6).toNat ∧ (0x01#6).toNat < 0x0A) ∧ (1 ≤ (0x09#6).toNat ∧ (0x09#6).toNat < 0x0A) ∧
    0x14 < (0x15#6).toNat ∧ 0x14 < (0x3F#6).toNat ∧
    { Pins.write 0x0A 5 with rst := true }.rst = true := by decide

theorem witness_StatusFieldsViewTheState :
    abab.params.hasFc = true ∧ noCounter.params.hasFc = false := by decide

theorem witness_ParamsShowsTheBuild :
    ({ Params.t8 with symW := 1, nodeW := 1, lenW := 1, cntW := 1 } : Params).legal = true ∧
    ({ Params.t8 with symW := 32, nodeW := 32, lenW := 6, cntW := 32 } : Params).legal = true := by
  decide

/-- For the statements about LUT_CLEAR, LUT_WRITE, LUT_READ and ENC_START. -/
theorem witness_encoderCommands :
    abab.enc.ctl.st = .idle ∧ (encoding 0 false).enc.ctl.st ≠ .idle ∧
    encDraining.enc.ctl.st ≠ .idle ∧
    abab.symIndex 0x100 = abab.symIndex abab.regs.lutAddr ∧
    abab.symIndex 0xFF ≠ abab.symIndex abab.regs.lutAddr := by decide

/-- For the statements about ROM_WRITE, ROM_READ and DEC_START. -/
theorem witness_decoderCommands :
    abab.dec.ctl.st = .idle ∧ (decoding false false).dec.ctl.st ≠ .idle ∧
    decDraining.dec.ctl.st ≠ .idle ∧
    abab.nodeIndex 0x200 = abab.nodeIndex abab.regs.romAddr ∧
    abab.nodeIndex 0x1FF ≠ abab.nodeIndex abab.regs.romAddr ∧
    (abab.readRom abab.root).leaf = false ∧
    ((abab.setRoot 1).dec.ctl.st = .idle ∧
      ((abab.setRoot 1).readRom (abab.setRoot 1).root).leaf = true) := by decide

/-- For the statements about HIST_CLEAR, HIST_READ and FC_START. -/
theorem witness_counterCommands :
    (abab.params.hasFc = true ∧ abab.fc.ctl.st = .idle) ∧ noCounter.params.hasFc = false ∧
    (counting 0).fc.ctl.st ≠ .idle ∧ fcDraining.fc.ctl.st ≠ .idle := by decide

theorem witness_AcceptanceCheckIsExact :
    (0x00000100#32).extractLsb' 8 24 ≠ 0 ∧ 0x0C < ((0x0000000D#32).extractLsb' 0 8).toNat ∧
    Instr.lutRead ∈ [Instr.lutClear, .lutWrite, .lutRead, .encStart] ∧
    (encoding 0 false).enc.ctl.st ≠ .idle ∧ abab.enc.ctl.st = .idle ∧
    Instr.decStart ∈ [Instr.romWrite, .romRead, .decStart] ∧
    (decoding false false).dec.ctl.st ≠ .idle ∧ abab.dec.ctl.st = .idle ∧
    Instr.histRead ∈ [Instr.histClear, .histRead, .fcStart] ∧
    noCounter.params.hasFc = false ∧ (counting 0).fc.ctl.st ≠ .idle ∧
    (abab.params.hasFc = true ∧ abab.fc.ctl.st = .idle) := by decide

theorem witness_StepRunsThePresentedCommand :
    ((cmdPins .lutClear).rst = false ∧ (cmdPins .lutClear).regWr = true ∧
      (cmdPins .lutClear).regAddr = 0 ∧ decode (cmdPins .lutClear).regWdata = .ok .lutClear ∧
      transfers (cmdPins .lutClear) (encoding 1 false) = [.giveEnc]) ∧
    ((cmdPins .softReset).rst = false ∧ (cmdPins .softReset).regWr = true ∧
      (cmdPins .softReset).regAddr = 0 ∧
      decode (cmdPins .softReset).regWdata = .ok .softReset) := by decide

theorem witness_ResetWinsAtItsEdge : { Pins.write 0x0A 5 with rst := true }.rst = true := by decide

/-- An edge with a transfer in the encoder and one in the decoder, taken in the other order. -/
theorem witness_TransfersOfAnEdgeCommute :
    let s := (encoding 1 false).setDec (decoding true false).dec
    transfers (cmdPins .nop) s = [.giveEnc, .giveDec] ∧
    List.Perm [Event.giveDec, .giveEnc] (transfers (cmdPins .nop) s) := by decide

/-- The idle edge is calm. -/
theorem idle_calm : Pins.idle.calm := by unfold Pins.calm Pins.commands; decide

/-- An edge with a command other than SOFT_RESET is calm. -/
theorem cmdPins_calm (i : Instr) (h : i ≠ .softReset) : (cmdPins i).calm := by
  unfold Pins.calm Pins.commands
  cases i <;> first | exact absurd rfl h | decide

theorem cmdPins_commands (i : Instr) : (cmdPins i).commands i := ⟨rfl, rfl, rfl⟩

theorem witness_HandshakeIsHeldUntilTransfer :
    Pins.idle.calm ∧ (∀ s : State, step (s.setPins [Pins.idle]) = .next (edge s .idle)) ∧
    ((encoding 1 false).encOutValid = true ∧ Pins.idle.encOutReady = false) ∧
    ((decoding true false).decOutValid = true ∧ Pins.idle.decOutReady = false) ∧
    ((encoding 0 false).encInReady = true ∧ Pins.idle.encInValid = false) ∧
    ((decoding false false).decInReady = true ∧ Pins.idle.decInValid = false) ∧
    ((counting 0).fcInReady = true ∧ Pins.idle.fcInValid = false) ∧
    (abab.enc.ctl.st = .idle ∧ abab.dec.ctl.st = .idle ∧ abab.fc.ctl.st = .idle) :=
  ⟨idle_calm, fun _ => edge_step _ _, by decide, by decide, by decide, by decide, by decide,
    by decide⟩

theorem witness_PortFunctions :
    ((encoding 1 false).encOutValid = true ∧ (encoding 1 false).enc.n ≠ 0) ∧
    ((encoding 0 true).encOutValid = true ∧ (encoding 0 true).enc.n = 0) ∧
    abab.encOutValid = false ∧
    ((decoding true false).decOutValid = true ∧ (decoding true false).dec.outV = true) ∧
    ((decoding false true).decOutValid = true ∧ (decoding false true).dec.outV = false) ∧
    abab.decOutValid = false := by decide

theorem witness_CounterTakesABeat :
    ((counting 254).fcInReady = true ∧ (counting 254).fc.ctl.st = .run ∧ (pay 0x61).keep = true ∧
      ((counting 254).readHist (pay 0x61).sym).toNat ≠ 2 ^ (counting 254).params.cntW - 1) ∧
    ((counting 255).fcInReady = true ∧ (counting 255).fc.ctl.st = .run ∧
      ((counting 255).readHist (pay 0x61).sym).toNat = 2 ^ (counting 255).params.cntW - 1) ∧
    (fcDraining.fcInReady = true ∧ fcDraining.fc.ctl.st ≠ .run) ∧ endBeat.keep = false ∧
    (counting 0).symIndex 0x161 = (counting 0).symIndex 0x61 ∧
    (counting 0).symIndex 0x62 ≠ (counting 0).symIndex 0x61 := by decide

theorem witness_EncoderTakesABeat :
    (encoding 0 false).encInReady = true ∧ (encoding 0 false).enc.ctl.st = .run ∧
    (pay 0x61).keep = true ∧ ((encoding 0 false).readLut (pay 0x61).sym).len ≠ 0 ∧
    ((encoding 0 false).readLut (pay 0x78).sym).len = 0 ∧
    (encDraining.encInReady = true ∧ encDraining.enc.ctl.st ≠ .run) ∧ endBeat.keep = false := by
  decide

theorem witness_EncoderGivesABeat :
    ((encoding 1 true).encOutValid = true ∧ (encoding 1 true).enc.n ≠ 0) ∧
    ((encoding 0 true).encOutValid = true ∧ (encoding 0 true).enc.n = 0) := by decide

theorem witness_DecoderTakesABeat :
    ((decoding false false).decInReady = true ∧ (decoding false false).dec.ctl.st = .run ∧
      (bit true false).keep = true ∧
      ((decoding false false).readRom ((decoding false false).readRom 2).right).leaf = true) ∧
    ((decodingMid.setDec { decodingMid.dec with cur := 4 }).decInReady = true ∧
      (decodingMid.readRom (decodingMid.readRom 4).left).leaf = false ∧
      (bit false false).last = false ∧ (bit false true).last = true) ∧
    (decDraining.decInReady = true ∧ decDraining.dec.ctl.st ≠ .run) ∧
    (bitEnd.keep = false ∧ bitEnd.last = true ∧ decodingMid.decInReady = true ∧
      decodingMid.dec.ctl.st = .run ∧ decodingMid.dec.mid = true) ∧
    (decoding false false).dec.mid = false := by decide

theorem witness_DecoderGivesABeat :
    ((decoding true true).decOutValid = true ∧ (decoding true true).dec.outV = true) ∧
    ((decoding false true).decOutValid = true ∧ (decoding false true).dec.outV = false) := by decide

theorem witness_BusyUnitsTablesAreConstant :
    (∀ (s : State) (p : Pins), step (s.setPins [p]) = .next (edge s p)) ∧
    (cmdPins .lutClear).rst = false ∧ (encoding 1 false).enc.ctl.st ≠ .idle ∧
    (decoding true false).dec.ctl.st ≠ .idle ∧ ¬ (cmdPins .lutClear).commands .softReset ∧
    (counting 0).fc.ctl.st ≠ .idle ∧ (cmdPins .lutClear).fcInValid = false ∧
    ((cmdPins .softReset).rst = false ∧ (cmdPins .softReset).commands .softReset) :=
  ⟨edge_step, by decide, by decide, by decide, (cmdPins_calm _ (by decide)).2, by decide, by decide,
    rfl, cmdPins_commands _⟩

/-- Each cause of a rejection; with the encoder and the decoder at an edge that ends the operation. -/
theorem witness_CommandAtTheEndBeatIsRejected :
    (∀ i, (cmdPins i).commands i ∧ (cmdPins i).rst = false ∧ (cmdPins i).regWr = true) ∧
    ((Pins.write 0x00 0x10B).rst = false ∧ (Pins.write 0x00 0x10B).regWr = true ∧
      ∀ i : Instr, (Pins.write 0x00 0x10B).regWdata ≠ encode i) ∧
    noCounter.params.hasFc = false ∧
    ((encoding 0 true).enc.ctl.st ≠ .idle ∧
      (edge (encoding 0 true) (cmdPins .encStart)).enc.ctl.st = .idle) ∧
    ((decoding false true).dec.ctl.st ≠ .idle ∧
      (edge (decoding false true) (cmdPins .romWrite)).dec.ctl.st = .idle) ∧
    ((counting 0).fc.ctl.st ≠ .idle ∧
      (edge (counting 0) { cmdPins .histClear with fcInValid := true, fcIn := payLast 0x61
        }).fc.ctl.st = .idle) ∧
    (Pins.write 0x0A 5).regAddr = Reg.root.index :=
  ⟨fun i => ⟨cmdPins_commands i, rfl, rfl⟩, ⟨rfl, rfl, fun i => by cases i <;> decide⟩, rfl,
    by decide, by decide, by decide, rfl⟩

/-- A symbol without a code at the encoder. -/
def pinsX : Pins := { Pins.idle with encInValid := true, encIn := pay 0x78 }

/-- The input of the decoder ends. -/
def pinsCut : Pins := { Pins.idle with decInValid := true, decIn := bitEnd }

/-- The symbol 'a' at the counter. -/
def pinsA : Pins := { Pins.idle with fcInValid := true, fcIn := pay 0x61 }

theorem pinsX_calm : pinsX.calm := by unfold Pins.calm Pins.commands; decide
theorem pinsCut_calm : pinsCut.calm := by unfold Pins.calm Pins.commands; decide
theorem pinsA_calm : pinsA.calm := by unfold Pins.calm Pins.commands; decide

theorem witness_UnitStateTransitions :
    (pinsX.calm ∧ pinsCut.calm ∧ pinsA.calm ∧ (cmdPins .nop).calm) ∧
    (∀ (s : State) (p : Pins), step (s.setPins [p]) = .next (edge s p)) ∧
    ({ Pins.idle with rst := true }.rst = true ∧ (cmdPins .softReset).commands .softReset) ∧
    abab.enc.ctl.st = .idle ∧ encDraining.enc.ctl.st = .drain ∧
    ((encoding 0 false).enc.ctl.st = .run ∧ (edge (encoding 0 false) pinsX).enc.ctl.st = .drain) ∧
    abab.dec.ctl.st = .idle ∧ decDraining.dec.ctl.st = .drain ∧
    (decodingMid.dec.ctl.st = .run ∧ (edge decodingMid pinsCut).dec.ctl.st = .drain) ∧
    abab.fc.ctl.st = .idle ∧ fcDraining.fc.ctl.st = .drain ∧
    ((counting 255).fc.ctl.st = .run ∧ (edge (counting 255) pinsA).fc.ctl.st = .drain) ∧
    ((encoding 0 true).enc.ctl.st ≠ .idle ∧
      (edge (encoding 0 true) (cmdPins .nop)).enc.ctl.st = .idle) ∧
    ((decoding false true).dec.ctl.st ≠ .idle ∧
      (edge (decoding false true) (cmdPins .nop)).dec.ctl.st = .idle) ∧
    ((counting 1).fc.ctl.st ≠ .idle ∧
      (edge (counting 1) { pinsA with fcIn := endBeat }).fc.ctl.st = .idle) :=
  ⟨⟨pinsX_calm, pinsCut_calm, pinsA_calm, cmdPins_calm _ (by decide)⟩, edge_step,
    ⟨rfl, cmdPins_commands _⟩, by decide, by decide, by decide, by decide, by decide, by decide,
    by decide, by decide, by decide, by decide, by decide, by decide⟩

theorem witness_OnlyTheListedEventsRaiseErrors :
    (∀ (s : State) (p : Pins), step (s.setPins [p]) = .next (edge s p)) ∧
    ((edge (encoding 0 false) pinsX).enc.ctl.err = .symbolNotFound ∧
      (encoding 0 false).enc.ctl.err = .none) ∧
    ((edge (abab.setRoot 0) (cmdPins .decStart)).dec.ctl.err = .singleSymbolInput ∧
      abab.dec.ctl.err = .none) ∧
    ((edge decodingMid pinsCut).dec.ctl.err = .malformedStream ∧ decodingMid.dec.ctl.err = .none) ∧
    ((edge (counting 255) pinsA).fc.ctl.err = .countOverflow ∧ (counting 255).fc.ctl.err = .none) :=
  ⟨edge_step, by decide, by decide, by decide, by decide⟩

theorem encDraining_coherent : encDraining.enc.coherent := by
  unfold Encoder.coherent UnitCtl.coherent; decide
theorem decDraining_coherent : decDraining.dec.coherent := by
  unfold Decoder.coherent UnitCtl.coherent; decide
theorem decodingMid_coherent : decodingMid.dec.coherent := by
  unfold Decoder.coherent UnitCtl.coherent; decide
theorem fcDraining_coherent : fcDraining.fc.coherent := by
  unfold Counter.coherent UnitCtl.coherent; decide

theorem witness_ErrorsLastUntilTheNextStart :
    Pins.idle.calm ∧ (∀ (s : State) (p : Pins), step (s.setPins [p]) = .next (edge s p)) ∧
    (encDraining.enc.coherent ∧ encDraining.enc.ctl.err ≠ .none ∧ ¬ Pins.idle.commands .encStart) ∧
    (decDraining.dec.coherent ∧ decDraining.dec.ctl.err ≠ .none ∧
      ¬ Pins.idle.commands .decStart ∧ decDraining.dec.outV = false) ∧
    (decodingMid.dec.coherent ∧ decodingMid.dec.ctl.err = .none ∧ pinsCut.calm ∧
      (edge decodingMid pinsCut).dec.ctl.err ≠ .none) ∧
    (fcDraining.fc.coherent ∧ fcDraining.fc.ctl.err ≠ .none ∧ ¬ Pins.idle.commands .fcStart) := by
  refine ⟨idle_calm, edge_step, ⟨encDraining_coherent, by decide, ?_⟩,
    ⟨decDraining_coherent, by decide, ?_, rfl⟩,
    ⟨decodingMid_coherent, rfl, pinsCut_calm, by decide⟩,
    ⟨fcDraining_coherent, by decide, ?_⟩⟩ <;>
  exact fun h => absurd h.1 (by decide)

theorem witness_CmdErrIsStickyAndOnlyRejectsSetIt :
    (∀ (s : State) (p : Pins), step (s.setPins [p]) = .next (edge s p)) ∧
    ((abab.setCmdErr true).cmdErr = true ∧
      (edge (abab.setCmdErr true) (cmdPins .clrErr)).cmdErr = false) ∧
    (abab.cmdErr = false ∧ (edge abab (Pins.write 0x00 0x10B)).cmdErr = true) ∧
    ((encoding 1 false).cmdErr = false ∧
      (edge (encoding 1 false) (cmdPins .encStart)).cmdErr = true) ∧
    ((decoding false false).cmdErr = false ∧
      (edge (decoding false false) (Pins.write 0x0A 5)).cmdErr = true) ∧
    (noCounter.cmdErr = false ∧ (edge noCounter (cmdPins .fcStart)).cmdErr = true) :=
  ⟨edge_step, by decide, by decide, by decide, by decide, by decide⟩

theorem witness_UnitFlagsChangeOnlyAsListed :
    (cmdPins .nop).calm ∧ (∀ (s : State) (p : Pins), step (s.setPins [p]) = .next (edge s p)) ∧
    (edge (encoding 0 true) (cmdPins .nop)).enc.ctl.done = true ∧
    (edge (encoding 0 true) (cmdPins .nop)).enc.eoi = false ∧
    (edge (decoding false true) (cmdPins .nop)).dec.ctl.done = true ∧
    (edge (decoding false true) (cmdPins .nop)).dec.eoi = false ∧
    (edge (decoding false false) pinsCut).dec.eoi = true ∧
    (edge decodingMid { pinsCut with decIn := bit false false }).dec.mid = false ∧
    (edge (decodingMid.setDec { decodingMid.dec with cur := 4, mid := false })
      { pinsCut with decIn := bit false false }).dec.mid = true ∧
    (edge (counting 1) { pinsA with fcIn := endBeat }).fc.ctl.done = true ∧
    (edge (encoding 0 false) { pinsX with encIn := endBeat }).enc.eoi = true ∧
    (edge (edge (encoding 0 true) (cmdPins .nop)) (cmdPins .encStart)).enc.ctl.done = false ∧
    (edge (edge (decoding false true) (cmdPins .nop)) (cmdPins .decStart)).dec.ctl.done = false ∧
    (edge (edge (counting 1) { pinsA with fcIn := endBeat }) (cmdPins .fcStart)).fc.ctl.done =
      false :=
  ⟨cmdPins_calm _ (by decide), edge_step, by decide, by decide, by decide, by decide, by decide,
    by decide, by decide, by decide, by decide, by decide, by decide, by decide⟩

/-- Two machines that differ in the decoder and in what is offered to it. -/
theorem witness_UnitsAreIndependent :
    let s := encoding 0 false
    let s' := (encoding 0 false).setDec (decoding true false).dec
    let p' := { pinsX with decOutReady := true }
    pinsX.rst = false ∧ p'.rst = false ∧ pinsX.regWr = false ∧ p'.regWr = false ∧
    s.params = s'.params ∧ step (s.setPins [pinsX]) = .next (edge s pinsX) ∧
    step (s'.setPins [p']) = .next (edge s' p') ∧ s.enc = s'.enc ∧ s.lut = s'.lut ∧
    s.dec ≠ s'.dec :=
  ⟨rfl, rfl, rfl, rfl, rfl, edge_step _ _, edge_step _ _, rfl, rfl, by decide⟩

theorem witness_StepKeepsStateInvariants :
    State.Coherent (encoding 1 false) ∧
    step ((encoding 1 false).setPins [cmdPins .nop]) =
      .next (edge (encoding 1 false) (cmdPins .nop)) := by
  refine ⟨?_, edge_step _ _⟩
  unfold State.Coherent Encoder.coherent Decoder.coherent Counter.coherent UnitCtl.coherent
  decide

theorem witness_StepKeepsWalkOnInternalNodes :
    State.WalkInternal decodingMid ∧ decodingMid.dec.ctl.st = .run ∧
    step (decodingMid.setPins [pinsCut]) = .next (edge decodingMid pinsCut) := by
  refine ⟨?_, by decide, edge_step _ _⟩
  unfold State.WalkInternal
  decide

theorem witness_ErrorSymbolsAreZeroWithoutError :
    ((encoding 0 false).enc.ctl.err = .none ∧ (encoding 0 false).enc.errSym = 0) ∧
    ((counting 0).fc.ctl.err = .none ∧ (counting 0).fc.errSym = 0) ∧
    (fcDraining.fc.ctl.err ≠ .none ∧ encDraining.enc.ctl.err ≠ .none) ∧
    step ((encoding 0 false).setPins [pinsX]) = .next (edge (encoding 0 false) pinsX) :=
  ⟨by decide, by decide, by decide, edge_step _ _⟩

theorem witness_RunningDecoderIsMidCodeOrAtTheRoot :
    let p := { pinsCut with decIn := bit true false }
    ((decoding false false).dec.ctl.st = .run ∧ (decoding false false).dec.mid = false ∧
      (decoding false false).dec.cur = (decoding false false).root) ∧
    step ((decoding false false).setPins [p]) = .next (edge (decoding false false) p) ∧
    (edge (decoding false false) p).dec.ctl.st = .run ∧
    (edge (decoding false false) p).dec.mid = false :=
  ⟨by decide, edge_step _ _, by decide, by decide⟩

theorem abab_stored : abab.Stored :=
  have h0 {n : Nat} (w : Nat) : fitsWidth w (0#n) := fitsWidth_zero w
  { encSh := h0 _, encN := h0 _, encErrSym := h0 _, decCur := h0 _, decOutSym := h0 _,
    fcErrSym := h0 _, root := by unfold fitsWidth; decide, lutAddr := h0 _, lutLen := h0 _,
    lutCode := h0 _, romAddr := h0 _, romSym := h0 _, romLeft := h0 _, romRight := h0 _,
    histAddr := h0 _, histData := h0 _
    lut := ((Memory.Good.clear (LutWord.fits_absent _)).write (by decide)
      (by unfold LutWord.fits fitsWidth; decide)).write (by decide)
      (by unfold LutWord.fits fitsWidth; decide)
    rom := (((Memory.Good.clear (by unfold RomWord.fits fitsWidth; decide)).write (by decide)
      (by unfold RomWord.fits fitsWidth; decide)).write (by decide)
      (by unfold RomWord.fits fitsWidth; decide)).write (by decide)
      (by unfold RomWord.fits fitsWidth; decide)
    hist := .clear (h0 _) }

theorem witness_StepKeepsStoredWidths :
    State.Stored (counting 254) ∧
    step ((counting 254).setPins [pinsA]) = .next (edge (counting 254) pinsA) :=
  ⟨{ abab_stored with
      fcErrSym := fitsWidth_zero _
      hist := abab_stored.hist.write (by decide) (by unfold fitsWidth; decide) }, edge_step _ _⟩

/-- `abab` on a bench, two frames waiting at each input. -/
def bench : Bench :=
  { st := abab, wired := false, fcQ := [pay 0x61, payLast 0x61, endBeat],
    encQ := [pay 0x61, payLast 0x62, endBeat],
    decQ := [bit false false, bit true true, bitEnd], encGot := [], decGot := [],
    encFrame := [bit true false], decFrame := [pay 0x62] }

theorem witness_EncodeOperationContract :
    bench.wired = false ∧ bench.st.enc.ctl.st = .idle ∧
    isFrame SymBeat.last [pay 0x61, payLast 0x62] = true ∧
    bench.encQ = [pay 0x61, payLast 0x62] ++ [endBeat] ∧ bench.encGot = [] ∧
    [false, true] =
      codesOf bench.st.readLut (encodable bench.st.readLut (symPayload [pay 0x61, payLast 0x62])) ∧
    [pay 0x61, payLast 0x62].length + [false, true].length + 1 ≤ 5 ∧
    encodeSeq bench.st.readLut (symPayload [pay 0x61, payLast 0x62]) = .ok [false, true] ∧
    encodeSeq bench.st.readLut (symPayload [pay 0x78, endBeat]) = .error 0x78 := by decide

theorem witness_DecodeOperationContract :
    bench.wired = false ∧ bench.st.dec.ctl.st = .idle ∧
    isFrame BitBeat.last [bit false false, bit true true] = true ∧
    bench.decQ = [bit false false, bit true true] ++ [bitEnd] ∧ bench.decGot = [] ∧
    { cur := 2, mid := false, out := [0x61, 0x62] } =
      walkBits bench.st.readRom bench.st.root (bitPayload [bit false false, bit true true]) ∧
    [bit false false, bit true true].length + 2 + 1 ≤ 5 ∧
    decodeSeq bench.st.readRom bench.st.root [false, true] = .ok [0x61, 0x62] ∧
    decodeSeq decodingMid.readRom 4 [false] = .error .malformedStream ∧
    decodeSeq abab.readRom 0 [false] = .error .singleSymbolInput := by decide

theorem witness_CountOperationContract :
    bench.st.params.hasFc = true ∧ bench.st.fc.ctl.st = .idle ∧
    isFrame SymBeat.last [pay 0x61, payLast 0x61] = true ∧
    bench.fcQ = [pay 0x61, payLast 0x61] ++ [endBeat] ∧
    (∀ x ∈ symPayload [pay 0x61, payLast 0x61], fitsWidth bench.st.params.symW x) ∧
    bench.st.params.legal = true ∧ bench.st.Stored ∧ [pay 0x61, payLast 0x61].length ≤ 2 ∧
    (∀ j, ¬ overflowsAt (fun x => (abab.readHist x).toNat) (2 ^ abab.params.cntW - 1)
      [0x61, 0x61] j) ∧
    (overflowsAt (fun x => ((counting 254).readHist x).toNat) (2 ^ abab.params.cntW - 1)
      [0x61, 0x61] 1 ∧
      ∀ i, i < 1 → ¬ overflowsAt (fun x => ((counting 254).readHist x).toNat)
        (2 ^ abab.params.cntW - 1) [0x61, 0x61] i) := by
  refine ⟨rfl, rfl, by decide, rfl, ?_, by decide, abab_stored, by decide, ?_, ⟨0x61, ?_, ?_⟩, ?_⟩
  · intro x hx
    fin_cases hx <;> (unfold fitsWidth; decide)
  · rintro (_ | _ | j) ⟨x, hx, h⟩
    · simp only [List.getElem?_cons_zero, Option.some.injEq] at hx; subst hx; revert h; decide
    · simp only [List.getElem?_cons_succ, List.getElem?_cons_zero, Option.some.injEq] at hx
      subst hx; revert h; decide
    · simp at hx
  · decide
  · decide
  · rintro i hi ⟨x, hx, h⟩
    obtain rfl : i = 0 := by omega
    simp only [List.getElem?_cons_zero, Option.some.injEq] at hx; subst hx; revert h; decide

theorem witness_EncodeOutputUnderAnySchedule :
    let w : Wish :=
      { Wish.eager with host := some (Reg.cmd.index, encode .encStart), acceptEnc := false }
    let v : Wish := { Wish.eager with host := some (Reg.cmd.index, encode .lutWrite) }
    bench.wired = false ∧ bench.st.enc.ctl.st = .idle ∧
    isFrame SymBeat.last [pay 0x61, payLast 0x62] = true ∧
    bench.encQ = [pay 0x61, payLast 0x62] ++ [endBeat] ∧ bench.encGot = [] ∧
    w.rst = false ∧ w.host = some (Reg.cmd.index, encode .encStart) ∧
    (v.rst = false ∧ v.host ≠ some (Reg.cmd.index, encode .softReset) ∧
      v.host ≠ some (Reg.cmd.index, encode .encStart)) ∧
    ((bench.edge w).run [v, v, v, v, v]).st.enc.ctl.done = true := by decide

theorem witness_DecodeOutputUnderAnySchedule :
    let w : Wish :=
      { Wish.eager with host := some (Reg.cmd.index, encode .decStart), acceptDec := false }
    let v : Wish := { Wish.eager with host := some (Reg.cmd.index, encode .romWrite) }
    bench.wired = false ∧ bench.st.dec.ctl.st = .idle ∧
    isFrame BitBeat.last [bit false false, bit true true] = true ∧
    bench.decQ = [bit false false, bit true true] ++ [bitEnd] ∧ bench.decGot = [] ∧
    w.rst = false ∧ w.host = some (Reg.cmd.index, encode .decStart) ∧
    (v.rst = false ∧ v.host ≠ some (Reg.cmd.index, encode .softReset) ∧
      v.host ≠ some (Reg.cmd.index, encode .decStart)) ∧
    ((bench.edge w).run [v, v, v, v, v]).st.dec.ctl.done = true := by decide

/-- `bench` in a build whose counts have one bit: the second 'a' overflows. -/
def benchOneBit : Bench :=
  { bench with st := { abab with params := { Params.t8 with cntW := 1 } } }

/-- The clauses for the encoder and the decoder have the hypotheses of the two contracts, whose witnesses
stand above; here are those of the counter, without and with an overflow. -/
theorem witness_ResultsAreThoseOfTheSource :
    (bench.st.params.hasFc = true ∧ bench.st.fc.ctl.st = .idle ∧
      isFrame SymBeat.last [pay 0x61, payLast 0x61] = true ∧
      bench.fcQ = [pay 0x61, payLast 0x61] ++ [endBeat] ∧ bench.st.params.legal = true ∧
      (∀ x, bench.st.readHist x = 0) ∧ [pay 0x61, payLast 0x61].length ≤ 2) ∧
    (∀ x ∈ symPayload [pay 0x61, payLast 0x61], fitsWidth bench.st.params.symW x) ∧
    (∀ j, ¬ overflowsAt (fun _ => 0) (2 ^ bench.st.params.cntW - 1) [0x61, 0x61] j) ∧
    (benchOneBit.st.params.hasFc = true ∧ benchOneBit.st.fc.ctl.st = .idle ∧
      benchOneBit.fcQ = [pay 0x61, payLast 0x61] ++ [endBeat] ∧
      benchOneBit.st.params.legal = true ∧ (∀ x, benchOneBit.st.readHist x = 0) ∧
      overflowsAt (fun _ => 0) (2 ^ benchOneBit.st.params.cntW - 1) [0x61, 0x61] 1) := by
  refine ⟨⟨rfl, rfl, by decide, rfl, by decide, fun x => ?_, by decide⟩, fun x hx => ?_, ?_,
    rfl, rfl, rfl, by decide, fun x => ?_, 0x61, by decide, by decide⟩
  · exact Memory.read_clear _ _ _
  · fin_cases hx <;> (unfold fitsWidth; decide)
  · rintro (_ | _ | j) ⟨x, hx, h⟩
    · simp only [List.getElem?_cons_zero, Option.some.injEq] at hx; subst hx; revert h; decide
    · simp only [List.getElem?_cons_succ, List.getElem?_cons_zero, Option.some.injEq] at hx
      subst hx; revert h; decide
    · simp at hx
  · exact Memory.read_clear _ _ _

/-- The paths of the tree of `abab`. -/
theorem abab_paths {p : List Bool} {h : Handle} (hp : pathFrom abab.readRom 2 p = some h) :
    p = [] ∧ h = 2 ∨ p = [false] ∧ h = 0 ∨ p = [true] ∧ h = 1 := by
  have h0 : (abab.readRom 0#32).leaf = true := by decide
  have h1 : (abab.readRom 1#32).leaf = true := by decide
  have h2 : (abab.readRom 2#32).leaf = false := by decide
  have hl : (abab.readRom 2#32).left = 0#32 := by decide
  have hr : (abab.readRom 2#32).right = 1#32 := by decide
  rcases p with _ | ⟨b, _ | ⟨c, p⟩⟩
  · exact .inl ⟨rfl, by simpa [pathFrom] using hp.symm⟩
  · cases b
    · exact .inr (.inl ⟨rfl, by simpa [pathFrom, h2, hl] using hp.symm⟩)
    · exact .inr (.inr ⟨rfl, by simpa [pathFrom, h2, hr] using hp.symm⟩)
  · cases b <;> simp [pathFrom, h2, hl, hr, h0, h1] at hp

/-- The images of `abab` are a matched pair over its two symbols. -/
theorem witness_Matched :
    Matched (fun x => x = 0x61 ∨ x = 0x62) abab.readLut abab.readRom 2 where
  tree :=
    { rootInternal := by decide
      unshared := by
        intro p q h hp hq
        rcases abab_paths hp with ⟨rfl, rfl⟩ | ⟨rfl, rfl⟩ | ⟨rfl, rfl⟩ <;>
          rcases abab_paths hq with ⟨rfl, e⟩ | ⟨rfl, e⟩ | ⟨rfl, e⟩ <;>
          first | rfl | (revert e; decide)
      finite := ⟨1, fun p h hp => by
        rcases abab_paths hp with ⟨rfl, _⟩ | ⟨rfl, _⟩ | ⟨rfl, _⟩ <;> decide⟩
      distinctSymbols := by
        intro p q g h hp hq lg lh
        rcases abab_paths hp with ⟨_, rfl⟩ | ⟨_, rfl⟩ | ⟨_, rfl⟩ <;>
          rcases abab_paths hq with ⟨_, rfl⟩ | ⟨_, rfl⟩ | ⟨_, rfl⟩ <;>
          revert lg lh <;> decide }
  symbols := by
    rintro p x ⟨h, hp, hl, hx⟩
    rcases abab_paths hp with ⟨_, rfl⟩ | ⟨_, rfl⟩ | ⟨_, rfl⟩
    · exact absurd hl (by decide)
    · exact .inl (hx.symm.trans (by decide))
    · exact .inr (hx.symm.trans (by decide))
  present := by
    rintro x (rfl | rfl)
    · exact ⟨fun _ => ⟨[false], 0, by decide⟩, fun _ => by decide⟩
    · exact ⟨fun _ => ⟨[true], 1, by decide⟩, fun _ => by decide⟩
  path := by
    rintro x (rfl | rfl) -
    · exact ⟨0, by decide⟩
    · exact ⟨1, by decide⟩

/-- For the statements about a matched pair: the pair above and a sequence over its symbols. -/
theorem witness_RoundTripOverAMatchedPair :
    ∀ s ∈ ([0x61, 0x62, 0x62] : List Sym),
      (s = 0x61 ∨ s = 0x62) ∧ hasCode abab.readLut s = true := by
  intro s hs
  fin_cases hs <;> decide

theorem witness_BuildTreeFailsOnlyOnFewKeys :
    2 ≤ ([(0x61, 2), (0x62, 2)] : FreqMap).length := by decide

theorem witness_BuiltTreeInvariants :
    buildTree [(0x61, 2), (0x62, 2)] = .ok (.node (.leaf 0x61 2) (.leaf 0x62 2) 4) := by decide

theorem witness_CodeTableIsPrefixFree :
    let t : Tree := .node (.leaf 0x61 2) (.leaf 0x62 2) 4
    2 ≤ t.leaves.length ∧ (t.leaves.map Prod.fst).Nodup := by decide

theorem witness_BuiltImagesAreMatched :
    ∃ b, Params.t8.legal = true ∧ FreqMap.wf [(0x61, 2), (0x62, 2)] ∧
      build [(0x61, 2), (0x62, 2)] = .ok b ∧ capacity .t8 b = .ok () := by
  refine ⟨⟨.node (.leaf 0x61 2) (.leaf 0x62 2) 4,
    [(0, leafWord 0x61), (1, leafWord 0x62), (2, nodeWord 0 1)], 2⟩, by decide, ?_, by decide,
    by decide⟩
  unfold FreqMap.wf
  decide

end Sys2Proof.Machine
end

section
/-! PROOFS. What every edge keeps, and the ports and walk fields said of the state: the lemmas that the
invariants of 10_state.md share. -/

namespace Sys2Proof.Machine

/-! ## An invariant of the step, from the three kinds of edge -/

/-- What holds after a step, from what either reset leaves and what a calm edge leaves. -/
theorem step_keeps {P : State → Prop} {s t : State} (h : step s = .next t)
    (hard : ∀ rest, P (s.hardReset.setPins rest)) (soft : ∀ rest, P (s.setPins rest).softReset)
    (calm : ∀ p rest, p.calm → step (s.setPins (p :: rest)) = .next t → P t) : P t := by
  rw [step_eq_setPins] at h
  rcases edge_kinds s.coming.1 with hr | ⟨hr, hc⟩ | hc
  · rw [step_rst hr] at h
    exact Host.Outcome.next.inj h ▸ hard _
  · rw [step_softReset hr hc] at h
    exact Host.Outcome.next.inj h ▸ soft _
  · exact calm _ _ hc h

/-! ## The port functions (43_encoder.md R172, 44_decoder.md R187) -/

theorem State.encInReady_iff (s : State) :
    s.encInReady = true ↔ s.enc.ctl.st ≠ .idle ∧ s.enc.eoi = false ∧ s.enc.n = 0 := by
  simp [State.encInReady, UnitCtl.busy_iff, and_assoc]

/-- The encoder's end beat is the one it offers with no bit waiting. -/
theorem State.encOut_last {s : State} (h : s.encOutValid = true) :
    s.encOut.last = decide (s.enc.n = 0) := by
  simp only [State.encOut, h, if_true]
  split <;> simp_all

/-- The decoder's end beat is the one it offers with no symbol waiting. -/
theorem State.decOut_last {s : State} (h : s.decOutValid = true) :
    s.decOut.last = !s.dec.outV := by
  simp only [State.decOut, h, if_true]
  cases s.dec.outV <;> rfl

/-! ## The state of a unit at an error and at the end of its operation -/

@[simp] theorem UnitCtl.start_st : UnitCtl.start.st = .run := rfl
@[simp] theorem UnitCtl.start_done : UnitCtl.start.done = false := rfl
@[simp] theorem UnitCtl.start_err : UnitCtl.start.err = .none := rfl

section
variable (c : UnitCtl) (e : Err)

@[simp] theorem UnitCtl.errorEntry_st : (c.errorEntry e).st = .drain := rfl
@[simp] theorem UnitCtl.errorEntry_done : (c.errorEntry e).done = c.done := rfl
@[simp] theorem UnitCtl.errorEntry_err : (c.errorEntry e).err = e := rfl
@[simp] theorem UnitCtl.finish_st : c.finish.st = .idle := rfl
@[simp] theorem UnitCtl.finish_done : c.finish.done = true := rfl
@[simp] theorem UnitCtl.finish_err : c.finish.err = c.err := rfl

end

/-! ## The walk of the decoder at an input beat (44_decoder.md R188) -/

/-- The node the walk steps to from `h` with a bit. -/
def nextNode (rom : Handle → RomWord) (h : Handle) (bit : Bool) : Handle :=
  RomWord.child (rom h) bit

section
variable (d : Decoder) (rom : Handle → RomWord) (root : Handle) (b : BitBeat)

theorem Decoder.walkBit_eq (bit : Bool) : d.walkBit rom root bit =
    let c := rom (nextNode rom d.cur bit)
    { d with
      bitCnt := d.bitCnt + 1
      outSym := if c.leaf then c.sym else d.outSym
      outV := c.leaf || d.outV
      cur := if c.leaf then root else nextNode rom d.cur bit
      mid := !c.leaf } := by
  simp only [Decoder.walkBit, nextNode]
  split <;> simp_all

theorem Decoder.take_cur : (d.take rom root b).cur =
    if d.ctl.st = .run ∧ b.keep = true then
      if (rom (nextNode rom d.cur b.bit)).leaf then root else nextNode rom d.cur b.bit
    else d.cur := by
  obtain ⟨hcur, -⟩ := d.take_walk rom root b
  rw [hcur]
  split <;> simp [Decoder.walkBit_eq]

theorem Decoder.take_mid : (d.take rom root b).mid =
    if d.ctl.st = .run ∧ b.keep = true then !(rom (nextNode rom d.cur b.bit)).leaf else d.mid := by
  obtain ⟨-, hmid, -⟩ := d.take_walk rom root b
  rw [hmid]
  split <;> simp [Decoder.walkBit_eq]

theorem Decoder.take_outSym : (d.take rom root b).outSym =
    if d.ctl.st = .run ∧ b.keep = true ∧ (rom (nextNode rom d.cur b.bit)).leaf = true then
      (rom (nextNode rom d.cur b.bit)).sym
    else d.outSym := by
  obtain ⟨-, -, hsym, -⟩ := d.take_walk rom root b
  rw [hsym]
  split <;> simp_all [Decoder.walkBit_eq]

theorem Decoder.take_outV : (d.take rom root b).outV =
    if d.ctl.st = .run ∧ b.keep = true then
      (rom (nextNode rom d.cur b.bit)).leaf || d.outV else d.outV := by
  obtain ⟨-, -, -, houtV, -⟩ := d.take_walk rom root b
  rw [houtV]
  split <;> simp [Decoder.walkBit_eq]

end

end Sys2Proof.Machine
end

section
/-! PROOFS. The state invariants (10_state.md R47): reset has them and every step keeps them. -/

namespace Sys2Proof.Machine

/-! ## One unit -/

theorem UnitCtl.coherent_reset : UnitCtl.reset.coherent := by simp [UnitCtl.coherent, UnitCtl.reset]

theorem UnitCtl.coherent_start : UnitCtl.start.coherent := by simp [UnitCtl.coherent]

/-- Only a busy unit enters an error, so DONE is 0 there. -/
theorem UnitCtl.coherent.errorEntry {c : UnitCtl} (h : c.coherent) (hb : c.st ≠ .idle) {e : Err}
    (he : e ≠ .none) : (c.errorEntry e).coherent :=
  ⟨fun hd => absurd (h.1 hd) hb, fun hr => by simp at hr, fun _ => he⟩

theorem UnitCtl.coherent_finish (c : UnitCtl) : c.finish.coherent := by simp [UnitCtl.coherent]

/-! ## Encoder -/

theorem Encoder.coherent_reset : Encoder.reset.coherent :=
  ⟨UnitCtl.coherent_reset, by simp [Encoder.reset], by simp [Encoder.reset], .inl rfl⟩

theorem Encoder.coherent_started : Encoder.started.coherent :=
  ⟨UnitCtl.coherent_start, by simp [Encoder.started], by simp [Encoder.started], .inl rfl⟩

theorem Encoder.coherent.take {e : Encoder} (h : e.coherent) (hb : e.ctl.st ≠ .idle) (hn : e.n = 0)
    (w : LutWord) (b : SymBeat) : (e.take w b).coherent := by
  obtain ⟨hctl, -, -, herr⟩ := h
  unfold Encoder.coherent
  rw [Encoder.take_ctl, Encoder.take_n]
  by_cases hp : e.ctl.st = .run ∧ b.keep = true
  · by_cases hw : w.len = 0#6
    · simp [hp, hw, hn, hctl.errorEntry hb]
    · simp [hp, hw, hctl, herr]
  · simp [hp, hn, hb, hctl, herr, ← and_assoc]

theorem Encoder.coherent.give {e : Encoder} (h : e.coherent) : e.give.coherent := by
  obtain ⟨hctl, hrun, hidle, herr⟩ := h
  unfold Encoder.coherent
  rw [Encoder.give_ctl, Encoder.give_n, Encoder.give_eoi]
  by_cases hn : e.n = 0#6
  · simp [hn, UnitCtl.coherent_finish, herr]
  · simp [hn, hctl, hrun hn, herr]

/-! ## Decoder -/

theorem Decoder.coherent_reset : Decoder.reset.coherent :=
  ⟨UnitCtl.coherent_reset, by simp [Decoder.reset], by simp [Decoder.reset], .inl rfl⟩

theorem State.coherent_decStarted (s : State) : s.decStarted.coherent := by
  unfold Decoder.coherent State.decStarted
  cases (s.readRom s.root).leaf
  · simp [UnitCtl.coherent_start]
  · simp [UnitCtl.coherent]

theorem Decoder.coherent.take {d : Decoder} (h : d.coherent) (hb : d.ctl.st ≠ .idle)
    (rom : Handle → RomWord) (root : Handle) (b : BitBeat) : (d.take rom root b).coherent := by
  obtain ⟨hctl, -, -, herr⟩ := h
  unfold Decoder.coherent
  rw [Decoder.take_ctl]
  split
  · simp [hctl.errorEntry hb]
  · simp [hctl, hb, herr]

theorem Decoder.coherent.give {d : Decoder} (h : d.coherent) : d.give.coherent := by
  obtain ⟨hctl, hout, -, herr⟩ := h
  unfold Decoder.coherent
  rw [Decoder.give_ctl, Decoder.give_outV, Decoder.give_eoi]
  by_cases hv : d.outV = true
  · simp [hv, hctl, hout hv, herr]
  · simp [hv, UnitCtl.coherent_finish, herr]

/-! ## Counter -/

theorem Counter.coherent_reset : Counter.reset.coherent := ⟨UnitCtl.coherent_reset, .inl rfl⟩

theorem Counter.coherent.take {c : Counter} (h : c.coherent) (hb : c.ctl.st ≠ .idle) (x : Word)
    (limit : Nat) (b : SymBeat) : (c.take x limit b).coherent := by
  obtain ⟨hctl, herr⟩ := h
  unfold Counter.coherent
  rw [Counter.take_ctl]
  cases b.last <;> by_cases ho : c.ctl.st = .run ∧ b.keep = true ∧ x.toNat = limit
  · simp [ho, hctl.errorEntry hb]
  · simp [ho, hctl, herr]
  · simp [ho, UnitCtl.coherent_finish]
  · simp [ho, UnitCtl.coherent_finish, herr]

/-! ## The state -/

theorem State.coherent_of_units_reset {t : State} (he : t.enc = .reset) (hd : t.dec = .reset)
    (hc : t.fc = .reset) : t.Coherent :=
  ⟨he ▸ Encoder.coherent_reset, hd ▸ Decoder.coherent_reset, hc ▸ Counter.coherent_reset,
    fun _ => by rw [hc]; rfl⟩

section
variable {p : Pins} {s t : State} {rest : List Pins} (hc : p.calm)
  (h : step (s.setPins (p :: rest)) = .next t)
include hc h

theorem Encoder.coherent.step_calm (hs : s.enc.coherent) : t.enc.coherent := by
  rcases step_calm_enc hc h with ⟨-, -, he⟩ | ⟨-, hr, he⟩ | ⟨-, -, he⟩ | ⟨-, -, he⟩ <;> rw [he]
  · exact coherent_started
  · obtain ⟨hb, -, hn⟩ := s.encInReady_iff.1 hr
    exact hs.take hb hn _ _
  · exact hs.give
  · exact hs

theorem Decoder.coherent.step_calm (hs : s.dec.coherent) : t.dec.coherent := by
  rcases step_calm_dec hc h with ⟨-, -, hd⟩ | ⟨-, hr, hd⟩ | ⟨-, -, hd⟩ | ⟨-, -, hd⟩ <;> rw [hd]
  · exact s.coherent_decStarted
  · exact hs.take (State.dec_busy_of_ready hr) _ _ _
  · exact hs.give
  · exact hs

theorem Counter.coherent.step_calm (hs : s.fc.coherent) : t.fc.coherent := by
  rcases step_calm_fc hc h with ⟨-, -, -, -, hf⟩ | ⟨-, -, -, -, hf⟩ | ⟨-, hr, hf, -⟩ | ⟨-, hf, -⟩ <;>
    rw [hf]
  · exact ⟨UnitCtl.coherent_start, .inl rfl⟩
  · exact hs
  · exact hs.take (State.fc_busy_of_ready hr) _ _ _
  · exact hs

/-- Without a counter no edge reaches its state. -/
theorem step_calm_fc_of_no_counter (hp : s.params.hasFc = false) : t.fc = s.fc := by
  rcases step_calm_fc hc h with ⟨hf, -⟩ | ⟨hf, -⟩ | ⟨-, hr, -⟩ | ⟨-, hf, -⟩
  · simp [hp] at hf
  · simp [hp] at hf
  · simp [State.fcInReady, hp] at hr
  · exact hf

theorem State.Coherent.step_calm (hs : s.Coherent) : t.Coherent := by
  obtain ⟨henc, hdec, hfc, hno⟩ := hs
  refine ⟨henc.step_calm hc h, hdec.step_calm hc h, hfc.step_calm hc h, fun hp => ?_⟩
  rw [(step_frame h).1] at hp
  rw [step_calm_fc_of_no_counter hc h hp, hno hp]

end

/-- Settles O42: every kind of edge keeps the invariants, unit by unit. -/
theorem stepKeepsStateInvariants : Obligations.StepKeepsStateInvariants :=
  fun _ _ hs h => step_keeps h (fun _ => State.coherent_of_units_reset rfl rfl rfl)
    (fun _ => State.coherent_of_units_reset rfl rfl rfl) fun _ _ hc h => hs.step_calm hc h

/-- Settles O43: every unit of the reset state is at reset. -/
theorem stateInvariantsHoldAfterReset : Obligations.StateInvariantsHoldAfterReset :=
  State.coherent_of_units_reset rfl rfl rfl

end Sys2Proof.Machine
end

section
/-! PROOFS. The stored widths and the canonical form of the memories (10_state.md R23, 20_memory.md R61 to
R63): every step keeps them. -/

namespace Sys2Proof.Machine

/-! ## Operand registers -/

/-- Every operand register holds a value of the build's widths: the operand part of `State.Stored`. -/
structure Operands.Stored (p : Params) (o : Operands) : Prop where
  lutAddr : fitsWidth p.symW o.lutAddr
  lutLen : fitsWidth p.lenW o.lutLen
  lutCode : fitsWidth p.maxLen o.lutCode
  romAddr : fitsWidth p.nodeW o.romAddr
  romSym : fitsWidth p.symW o.romSym
  romLeft : fitsWidth p.nodeW o.romLeft
  romRight : fitsWidth p.nodeW o.romRight
  histAddr : fitsWidth p.symW o.histAddr
  histData : fitsWidth p.cntW o.histData

theorem State.Stored.operands {s : State} (h : s.Stored) : s.regs.Stored s.params where
  lutAddr := h.lutAddr
  lutLen := h.lutLen
  lutCode := h.lutCode
  romAddr := h.romAddr
  romSym := h.romSym
  romLeft := h.romLeft
  romRight := h.romRight
  histAddr := h.histAddr
  histData := h.histData

/-- A code fits `m` bits when its two halves fit the parts of `m` they show. -/
theorem fitsWidth_codeOf {m : Nat} {hi lo : Word} (hh : fitsWidth (m - 32) hi)
    (hl : fitsWidth (min 32 m) lo) : fitsWidth m (codeOf hi lo) := by
  unfold fitsWidth at *
  rw [toNat_codeOf]
  have hmod : hi.toNat % 2 ^ 31 ≤ hi.toNat := Nat.mod_le _ _
  rcases Nat.le_total m 32 with hm | hm
  · rw [Nat.sub_eq_zero_of_le hm] at hh
    rw [Nat.min_eq_right hm] at hl
    omega
  · rw [Nat.min_eq_left hm] at hl
    have hpow : 2 ^ m = 2 ^ (m - 32) * 2 ^ 32 := by rw [← pow_add, Nat.sub_add_cancel hm]
    omega

theorem fitsWidth_codeHi {m : Nat} {c : CodeVal} (h : fitsWidth m c) :
    fitsWidth (m - 32) (codeHi c) := by
  unfold fitsWidth at *
  rw [toNat_codeHi, Nat.div_lt_iff_lt_mul (by decide), ← pow_add]
  exact lt_of_lt_of_le h (Nat.pow_le_pow_right (by decide) (by omega))

theorem fitsWidth_codeLo {m : Nat} {c : CodeVal} (h : fitsWidth m c) :
    fitsWidth (min 32 m) (codeLo c) := by
  unfold fitsWidth at *
  rw [toNat_codeLo]
  rcases Nat.le_total m 32 with hm | hm
  · rw [Nat.min_eq_right hm]
    exact lt_of_le_of_lt (Nat.mod_le _ _) h
  · rw [Nat.min_eq_left hm]
    exact Nat.mod_lt _ (by decide)

theorem Operands.write_of_width_zero {p : Params} {r : Reg} (hw : r.width p = 0) (o : Operands)
    (v : Word) : o.write p r v = o := by
  simp [Operands.write, hw]

theorem Reg.histAddr_width_le (p : Params) : Reg.histAddr.width p ≤ p.symW := by
  simp only [Reg.width]; split <;> omega

theorem Operands.Stored.write {p : Params} {o : Operands} (h : o.Stored p) (r : Reg) (v : Word) :
    (o.write p r v).Stored p := by
  by_cases hw : r.width p = 0
  · rw [write_of_width_zero hw]; exact h
  · simp only [Operands.write, if_neg hw]
    cases r
    case lutAddr => exact { h with lutAddr := fitsWidth_trunc _ _ }
    case lutLen => exact { h with lutLen := fitsWidth_setWidth (fitsWidth_trunc _ _) }
    case lutCodeLo =>
      exact { h with lutCode := fitsWidth_codeOf (fitsWidth_codeHi h.lutCode) (fitsWidth_trunc _ _) }
    case lutCodeHi =>
      exact { h with lutCode := fitsWidth_codeOf (fitsWidth_trunc _ _) (fitsWidth_codeLo h.lutCode) }
    case romAddr => exact { h with romAddr := fitsWidth_trunc _ _ }
    case romLeaf => exact { h with }
    case romSym => exact { h with romSym := fitsWidth_trunc _ _ }
    case romLeft => exact { h with romLeft := fitsWidth_trunc _ _ }
    case romRight => exact { h with romRight := fitsWidth_trunc _ _ }
    case histAddr =>
      exact { h with histAddr := fitsWidth_trunc_of_le (Reg.histAddr_width_le p) _ }
    all_goals exact h

/-! ## What a memory read gives -/

theorem State.counts_iff (s : State) {b : SymBeat} : s.counts b = true ↔
    s.fc.ctl.st = .run ∧ b.keep = true ∧ (s.readHist b.sym).toNat ≠ s.countLimit := by
  simp [State.counts, and_assoc]

section
variable {s : State} (h : s.Stored)
include h

theorem State.Stored.fits_readLut (a : Sym) : LutWord.fits s.params (s.readLut a) :=
  h.lut.read (fun _ _ => LutWord.fits_fit _ _) _

theorem State.Stored.fits_readRom (x : Handle) : RomWord.fits s.params (s.readRom x) :=
  h.rom.read (fun _ _ => RomWord.fits_fit _ _) _

theorem State.Stored.fits_readHist (a : Sym) : fitsWidth s.params.cntW (s.readHist a) :=
  h.hist.read (fun _ _ => fitsWidth_trunc _ _) _

theorem State.Stored.fits_nextNode (x : Handle) (bit : Bool) :
    fitsWidth s.params.nodeW (nextNode s.readRom x bit) := by
  obtain ⟨-, hl, hr⟩ := h.fits_readRom x
  cases bit
  · exact hl
  · exact hr

/-- A count that is taken is below the limit, so the next one fits too. -/
theorem State.Stored.fits_count {b : SymBeat} (hb : s.counts b = true) :
    fitsWidth s.params.cntW (s.readHist b.sym + 1) := by
  have hfit := h.fits_readHist b.sym
  obtain ⟨-, -, hlim⟩ := s.counts_iff.1 hb
  unfold State.countLimit at hlim
  unfold fitsWidth at *
  have hle : (s.readHist b.sym + 1).toNat ≤ (s.readHist b.sym).toNat + 1 := by
    rw [BitVec.toNat_add]; exact Nat.mod_le _ _
  omega

end

/-! ## The parts of the state after a calm edge -/

section
variable {p : Pins} {s t : State} {rest : List Pins} (hs : s.Stored) (hc : p.calm)
  (h : step (s.setPins (p :: rest)) = .next t)
include hs hc h

theorem State.Stored.step_calm_enc : fitsWidth s.params.maxLen t.enc.sh ∧
    fitsWidth s.params.lenW t.enc.n ∧ fitsWidth s.params.symW t.enc.errSym := by
  rcases Machine.step_calm_enc hc h with ⟨-, -, he⟩ | ⟨-, -, he⟩ | ⟨-, -, he⟩ | ⟨-, -, he⟩ <;> rw [he]
  · exact ⟨fitsWidth_zero _, fitsWidth_zero _, fitsWidth_zero _⟩
  · obtain ⟨hlen, hcode⟩ := hs.fits_readLut p.encIn.sym
    rw [Encoder.take_sh, Encoder.take_n, Encoder.take_errSym, State.wireBeat_sym]
    refine ⟨?_, ?_, ?_⟩
    · split
      · exact hcode
      · exact hs.encSh
    · split
      · exact hlen
      · exact hs.encN
    · split
      · exact fitsWidth_trunc _ _
      · exact hs.encErrSym
  · rw [Encoder.give_sh, Encoder.give_n, Encoder.give_errSym]
    refine ⟨hs.encSh, ?_, hs.encErrSym⟩
    split
    · exact fitsWidth_zero _
    · rename_i hn
      have hfit := hs.encN
      unfold fitsWidth at *
      have hle : (s.enc.n - 1).toNat ≤ s.enc.n.toNat := by bv_omega
      omega
  · exact ⟨hs.encSh, hs.encN, hs.encErrSym⟩

theorem State.Stored.step_calm_dec :
    fitsWidth s.params.nodeW t.dec.cur ∧ fitsWidth s.params.symW t.dec.outSym := by
  rcases Machine.step_calm_dec hc h with ⟨-, -, hd⟩ | ⟨-, -, hd⟩ | ⟨-, -, hd⟩ | ⟨-, -, hd⟩ <;> rw [hd]
  · exact ⟨hs.root, fitsWidth_zero _⟩
  · rw [Decoder.take_cur, Decoder.take_outSym]
    refine ⟨?_, ?_⟩
    · split
      · split
        · exact hs.root
        · exact hs.fits_nextNode _ _
      · exact hs.decCur
    · split
      · obtain ⟨hsym, -⟩ := hs.fits_readRom (nextNode s.readRom s.dec.cur p.decIn.bit)
        exact hsym
      · exact hs.decOutSym
  · obtain ⟨hcur, -, hout, -⟩ := s.dec.give_walk
    rw [hcur, hout]
    exact ⟨hs.decCur, hs.decOutSym⟩
  · exact ⟨hs.decCur, hs.decOutSym⟩

theorem State.Stored.step_calm_fc : fitsWidth s.params.symW t.fc.errSym ∧
    t.hist.Good s.params.lutDepth (fitsWidth s.params.cntW) := by
  rcases Machine.step_calm_fc hc h with
    ⟨-, -, -, hh, hf⟩ | ⟨-, -, -, hh, hf⟩ | ⟨-, -, hf, hh⟩ | ⟨-, hf, hh⟩ <;> rw [hf, hh]
  · exact ⟨fitsWidth_zero _, hs.hist⟩
  · exact ⟨hs.fcErrSym, .clear (fitsWidth_zero _)⟩
  · rw [Counter.take_errSym, State.wireBeat_sym]
    refine ⟨?_, ?_⟩
    · split
      · exact fitsWidth_trunc _ _
      · exact hs.fcErrSym
    · split
      · exact hs.hist.write (s.symIndex_lt _) (hs.fits_count ‹_›)
      · exact hs.hist
  · exact ⟨hs.fcErrSym, hs.hist⟩

theorem State.Stored.step_calm_lut : t.lut.Good s.params.lutDepth (LutWord.fits s.params) := by
  rcases Machine.step_calm_lut hc h with hl | ⟨-, ⟨-, hl⟩ | ⟨-, hl⟩⟩ <;> rw [hl]
  · exact hs.lut
  · exact .clear (LutWord.fits_absent _)
  · exact hs.lut.write (s.symIndex_lt _) ⟨hs.lutLen, hs.lutCode⟩

theorem State.Stored.step_calm_rom : t.rom.Good s.params.romDepth (RomWord.fits s.params) := by
  obtain ⟨hr | ⟨-, -, hr⟩, -⟩ := Machine.step_calm_rom hc h <;> rw [hr]
  · exact hs.rom
  · exact hs.rom.write (s.nodeIndex_lt _) ⟨hs.romSym, hs.romLeft, hs.romRight⟩

theorem State.Stored.step_calm_root : fitsWidth s.params.nodeW t.root := by
  obtain ⟨-, hr | ⟨-, hr⟩⟩ := Machine.step_calm_rom hc h <;> rw [hr]
  · exact hs.root
  · exact fitsWidth_trunc _ _

theorem State.Stored.step_calm_regs : t.regs.Stored s.params := by
  obtain ⟨u, hu, rfl⟩ := step_calm hc h
  rw [State.afterTransfers_regs]
  rcases hu.regs with ho | ⟨r, ho⟩ | ⟨-, -, ho⟩ | ⟨-, -, ho⟩ | ⟨-, -, ho⟩ <;> rw [ho]
  · exact hs.operands
  · exact hs.operands.write r _
  · obtain ⟨hlen, hcode⟩ := hs.fits_readLut s.regs.lutAddr
    exact { hs.operands with lutLen := hlen, lutCode := hcode }
  · obtain ⟨hsym, hleft, hright⟩ := hs.fits_readRom s.regs.romAddr
    exact { hs.operands with romSym := hsym, romLeft := hleft, romRight := hright }
  · exact { hs.operands with histData := hs.fits_readHist _ }

theorem State.Stored.step_calm : t.Stored := by
  obtain ⟨hsh, hn, heErr⟩ := hs.step_calm_enc hc h
  obtain ⟨hcur, hout⟩ := hs.step_calm_dec hc h
  obtain ⟨hfErr, hhist⟩ := hs.step_calm_fc hc h
  have ho := hs.step_calm_regs hc h
  have hlut := hs.step_calm_lut hc h
  have hrom := hs.step_calm_rom hc h
  have hroot := hs.step_calm_root hc h
  obtain ⟨hp, -⟩ := step_frame h
  rw [← hp] at hsh hn heErr hcur hout hfErr hroot ho hlut hrom hhist
  exact ⟨hsh, hn, heErr, hcur, hout, hfErr, hroot, ho.lutAddr, ho.lutLen, ho.lutCode, ho.romAddr,
    ho.romSym, ho.romLeft, ho.romRight, ho.histAddr, ho.histData, hlut, hrom, hhist⟩

end

/-! ## Resets -/

theorem State.Stored.softReset {s : State} (h : s.Stored) (rest : List Pins) :
    (s.setPins rest).softReset.Stored := by
  constructor
  case lut => exact h.lut
  case rom => exact h.rom
  case hist => exact h.hist
  all_goals exact fitsWidth_zero _

theorem State.stored_hardReset (s : State) (rest : List Pins) : (s.hardReset.setPins rest).Stored := by
  constructor
  case lut => exact .unspecified _
  case rom => exact .unspecified _
  case hist => exact .unspecified _
  all_goals exact fitsWidth_zero _

/-- Settles O45: a reset stores zeros, and a calm edge stores truncated values, fields of memory words of
the build's widths, and counts below the limit. -/
theorem stepKeepsStoredWidths : Obligations.StepKeepsStoredWidths :=
  fun s _ hs h => step_keeps h s.stored_hardReset hs.softReset fun _ _ hc h => hs.step_calm hc h

end Sys2Proof.Machine
end

section
/-! PROOFS. How a unit moves over one edge (10_state.md R26, R27): its state, its DONE and its error change
only by its START, its error entry and its end beat; and what its other flags change by. -/

namespace Sys2Proof.Machine

/-! ## The moves of a unit's state -/

/-- How the state, DONE and error of a unit go from `c` to their value after a calm edge: they stay, the
START command `start` sets them, the unit enters the error `e`, or the beat `endBeat` ends the operation
(10_state.md R27). -/
inductive UnitCtl.Moves (start endBeat : Prop) (e : Err) (c : UnitCtl) : UnitCtl → Prop
  | stays : Moves start endBeat e c c
  | starts {c' : UnitCtl} : c.st = .idle → start → c'.st ≠ .idle → c'.done = false →
      Moves start endBeat e c c'
  | errs : c.st = .run → Moves start endBeat e c (c.errorEntry e)
  | ends {c' : UnitCtl} : c.st ≠ .idle → endBeat → c'.st = .idle → c'.done = true →
      Moves start endBeat e c c'

section
variable {start endBeat : Prop} {e : Err} {c c' : UnitCtl} (m : c.Moves start endBeat e c')
include m

theorem UnitCtl.Moves.of_idle (h : c.st = .idle) : c'.st = .idle ∨ start := by
  cases m with
  | stays => exact .inl h
  | starts _ hs _ _ => exact .inr hs
  | errs hr => simp [h] at hr
  | ends _ _ hi _ => exact .inl hi

theorem UnitCtl.Moves.of_drain (h : c.st = .drain) : c'.st ≠ .run := by
  cases m with
  | stays => simp [h]
  | starts hi _ _ _ => simp [h] at hi
  | errs _ => simp
  | ends _ _ hi _ => simp [hi]

theorem UnitCtl.Moves.run_to_drain (h : c.st = .run) (h' : c'.st = .drain) : c'.err = e := by
  cases m with
  | stays => simp [h] at h'
  | starts hi _ _ _ => simp [h] at hi
  | errs _ => rfl
  | ends _ _ hi _ => simp [h'] at hi

theorem UnitCtl.Moves.to_idle (h : c.st ≠ .idle) (h' : c'.st = .idle) :
    endBeat ∧ c'.done = true := by
  cases m with
  | stays => exact absurd h' h
  | starts hi _ _ _ => exact absurd hi h
  | errs _ => simp at h'
  | ends _ he _ hd => exact ⟨he, hd⟩

theorem UnitCtl.Moves.done_rises (h : c'.done = true) (h' : c.done = false) : endBeat := by
  cases m with
  | stays => simp [h'] at h
  | starts _ _ _ hd => simp [hd] at h
  | errs _ => simp [h'] at h
  | ends _ he _ _ => exact he

theorem UnitCtl.Moves.done_falls (h : c'.done = false) (h' : c.done = true) : start := by
  cases m with
  | stays => simp [h'] at h
  | starts _ hs _ _ => exact hs
  | errs _ => simp [h'] at h
  | ends _ _ _ hd => simp [hd] at h

end

/-! ## Each unit at a calm edge -/

section
variable {p : Pins} {s t : State} {rest : List Pins} (hc : p.calm)
  (h : step (s.setPins (p :: rest)) = .next t)
include hc h

theorem step_calm_enc_moves : s.enc.ctl.Moves (p.commands .encStart)
    (s.encOutValid = true ∧ p.encOutReady = true ∧ s.encOut.last = true) .symbolNotFound
    t.enc.ctl := by
  rcases step_calm_enc hc h with ⟨hi, hp, he⟩ | ⟨-, -, he⟩ | ⟨ho, hv, he⟩ | ⟨-, -, he⟩ <;> rw [he]
  · exact .starts hi hp (by simp [Encoder.started]) rfl
  · rw [Encoder.take_ctl]
    split
    · rename_i hx
      exact .errs hx.1
    · exact .stays
  · rw [Encoder.give_ctl]
    split
    · rename_i hn
      exact .ends (State.enc_busy_of_valid hv) ⟨hv, ho, by simp [State.encOut_last hv, hn]⟩ rfl rfl
    · exact .stays
  · exact .stays

theorem step_calm_dec_moves : s.dec.ctl.Moves (p.commands .decStart)
    (s.decOutValid = true ∧ p.decOutReady = true ∧ s.decOut.last = true) .malformedStream
    t.dec.ctl := by
  rcases step_calm_dec hc h with ⟨hi, hp, hd⟩ | ⟨-, -, hd⟩ | ⟨ho, hv, hd⟩ | ⟨-, -, hd⟩ <;> rw [hd]
  · refine .starts hi hp ?_ ?_ <;> unfold State.decStarted <;> cases (s.readRom s.root).leaf <;> simp
  · rw [Decoder.take_ctl]
    split
    · rename_i hx
      exact .errs hx.1
    · exact .stays
  · rw [Decoder.give_ctl]
    split
    · exact .stays
    · rename_i hn
      exact .ends (State.dec_busy_of_valid hv) ⟨hv, ho, by simp [State.decOut_last hv, hn]⟩ rfl rfl
  · exact .stays

theorem step_calm_fc_moves : s.fc.ctl.Moves (p.commands .fcStart)
    (s.fcInReady = true ∧ p.fcInValid = true ∧ p.fcIn.last = true) .countOverflow t.fc.ctl := by
  rcases step_calm_fc hc h with
    ⟨-, hi, hp, -, hf⟩ | ⟨-, -, -, -, hf⟩ | ⟨hv, hr, hf, -⟩ | ⟨-, hf, -⟩ <;> rw [hf]
  · exact .starts hi hp (by simp) rfl
  · exact .stays
  · rw [Counter.take_ctl, State.wireBeat_last]
    cases hl : p.fcIn.last
    · simp only [Bool.false_eq_true, if_false]
      split
      · rename_i hx
        exact .errs hx.1
      · exact .stays
    · exact .ends (State.fc_busy_of_ready hr) ⟨hr, hv, rfl⟩ rfl rfl
  · exact .stays

theorem enc_eoi_rises (h1 : t.enc.eoi = true) (h0 : s.enc.eoi = false) :
    s.encInReady = true ∧ p.encInValid = true ∧ p.encIn.last = true := by
  rcases step_calm_enc hc h with ⟨-, -, he⟩ | ⟨hv, hr, he⟩ | ⟨-, -, he⟩ | ⟨-, -, he⟩ <;> rw [he] at h1
  · simp [Encoder.started] at h1
  · rw [Encoder.take_eoi, h0, Bool.or_false] at h1
    exact ⟨hr, hv, h1⟩
  · simp [Encoder.give_eoi, h0] at h1
  · simp [h0] at h1

theorem enc_eoi_falls (h1 : t.enc.eoi = false) (h0 : s.enc.eoi = true) : p.commands .encStart ∨
    (s.encOutValid = true ∧ p.encOutReady = true ∧ s.encOut.last = true) := by
  rcases step_calm_enc hc h with ⟨-, hp, -⟩ | ⟨-, -, he⟩ | ⟨ho, hv, he⟩ | ⟨-, -, he⟩
  · exact .inl hp
  · simp [he, Encoder.take_eoi, h0] at h1
  · rw [he, Encoder.give_eoi, h0] at h1
    refine .inr ⟨hv, ho, ?_⟩
    simpa [State.encOut_last hv] using h1
  · simp [he, h0] at h1

theorem dec_eoi_rises (h1 : t.dec.eoi = true) (h0 : s.dec.eoi = false) :
    s.decInReady = true ∧ p.decInValid = true ∧ p.decIn.last = true := by
  rcases step_calm_dec hc h with ⟨-, -, hd⟩ | ⟨hv, hr, hd⟩ | ⟨-, -, hd⟩ | ⟨-, -, hd⟩ <;> rw [hd] at h1
  · simp [State.decStarted] at h1
  · rw [Decoder.take_eoi, h0, Bool.or_false] at h1
    exact ⟨hr, hv, h1⟩
  · simp [Decoder.give_eoi, h0] at h1
  · simp [h0] at h1

theorem dec_eoi_falls (h1 : t.dec.eoi = false) (h0 : s.dec.eoi = true) : p.commands .decStart ∨
    (s.decOutValid = true ∧ p.decOutReady = true ∧ s.decOut.last = true) := by
  rcases step_calm_dec hc h with ⟨-, hp, -⟩ | ⟨-, -, hd⟩ | ⟨ho, hv, hd⟩ | ⟨-, -, hd⟩
  · exact .inl hp
  · simp [hd, Decoder.take_eoi, h0] at h1
  · rw [hd, Decoder.give_eoi, h0] at h1
    refine .inr ⟨hv, ho, ?_⟩
    simpa [State.decOut_last hv] using h1
  · simp [hd, h0] at h1

theorem dec_mid_rises (h1 : t.dec.mid = true) (h0 : s.dec.mid = false) :
    s.decInReady = true ∧ p.decInValid = true ∧ p.decIn.keep = true := by
  rcases step_calm_dec hc h with ⟨-, -, hd⟩ | ⟨hv, hr, hd⟩ | ⟨-, -, hd⟩ | ⟨-, -, hd⟩ <;> rw [hd] at h1
  · simp [State.decStarted] at h1
  · rw [Decoder.take_mid, h0] at h1
    split at h1
    · rename_i hx
      exact ⟨hr, hv, hx.2⟩
    · simp at h1
  · obtain ⟨-, hmid, -⟩ := s.dec.give_walk
    simp [hmid, h0] at h1
  · simp [h0] at h1

theorem dec_mid_falls (h1 : t.dec.mid = false) (h0 : s.dec.mid = true) : p.commands .decStart ∨
    (s.decInReady = true ∧ p.decInValid = true ∧ p.decIn.keep = true ∧ t.dec.outV = true) := by
  rcases step_calm_dec hc h with ⟨-, hp, -⟩ | ⟨hv, hr, hd⟩ | ⟨-, -, hd⟩ | ⟨-, -, hd⟩
  · exact .inl hp
  · rw [hd, Decoder.take_mid, h0] at h1
    split at h1
    · rename_i hx
      refine .inr ⟨hr, hv, hx.2, ?_⟩
      rw [hd, Decoder.take_outV, if_pos hx]
      simp_all
    · simp at h1
  · obtain ⟨-, hmid, -⟩ := s.dec.give_walk
    simp [hd, hmid, h0] at h1
  · simp [hd, h0] at h1

end

/-- Either reset makes every unit IDLE. -/
theorem step_reset_idle {p : Pins} (hp : p.rst = true ∨ p.commands .softReset) {s t : State}
    {rest : List Pins} (h : step (s.setPins (p :: rest)) = .next t) :
    t.enc.ctl.st = .idle ∧ t.dec.ctl.st = .idle ∧ t.fc.ctl.st = .idle := by
  rcases edge_kinds p with hr | ⟨hr, hc⟩ | ⟨hr, hc⟩
  · rw [step_rst hr] at h
    obtain rfl := Host.Outcome.next.inj h
    exact ⟨rfl, rfl, rfl⟩
  · rw [step_softReset hr hc] at h
    obtain rfl := Host.Outcome.next.inj h
    exact ⟨rfl, rfl, rfl⟩
  · simp [hr, hc] at hp

/-- Settles O36: the moves of each unit at a calm edge, and the two resets. -/
theorem unitStateTransitions : Obligations.UnitStateTransitions := by
  intro s t p rest h
  refine ⟨fun hp => step_reset_idle hp h, fun hc => ?_⟩
  have henc := step_calm_enc_moves hc h
  have hdec := step_calm_dec_moves hc h
  have hfc := step_calm_fc_moves hc h
  exact ⟨henc.of_idle, henc.of_drain, henc.run_to_drain, hdec.of_idle, hdec.of_drain,
    hdec.run_to_drain, hfc.of_idle, hfc.of_drain, hfc.run_to_drain,
    fun hb hi => by simpa only [and_assoc] using henc.to_idle hb hi,
    fun hb hi => by simpa only [and_assoc] using hdec.to_idle hb hi,
    fun hb hi => by simpa only [and_assoc] using hfc.to_idle hb hi⟩

/-- Settles O40: DONE by the moves of the unit, the other flags beat by beat. -/
theorem unitFlagsChangeOnlyAsListed : Obligations.UnitFlagsChangeOnlyAsListed := by
  intro s t p rest hc h
  have henc := step_calm_enc_moves hc h
  have hdec := step_calm_dec_moves hc h
  have hfc := step_calm_fc_moves hc h
  exact ⟨henc.done_rises, henc.done_falls, enc_eoi_rises hc h, enc_eoi_falls hc h,
    hdec.done_rises, hdec.done_falls, dec_eoi_rises hc h, dec_eoi_falls hc h,
    dec_mid_rises hc h, dec_mid_falls hc h, hfc.done_rises, hfc.done_falls⟩

end Sys2Proof.Machine
end

section
/-! PROOFS. Smaller invariants of the step: the recorded symbols (10_state.md R30, R38) and the place of the
running decoder (R31, R32). -/

namespace Sys2Proof.Machine

/-- The last beat of an operation keeps the error code. -/
theorem Counter.take_err (c : Counter) (x : Word) (limit : Nat) (b : SymBeat) :
    (c.take x limit b).ctl.err =
      if c.ctl.st = .run ∧ b.keep = true ∧ x.toNat = limit then .countOverflow else c.ctl.err := by
  rw [Counter.take_ctl]
  split <;> cases b.last <;> rfl

section
variable {p : Pins} {s t : State} {rest : List Pins} (hc : p.calm)
  (h : step (s.setPins (p :: rest)) = .next t)
include hc h

/-- ENC_ERRSYM is written only beside an error code. -/
theorem enc_errSym_zero (hs : s.enc.ctl.err = .none → s.enc.errSym = 0)
    (ht : t.enc.ctl.err = .none) : t.enc.errSym = 0 := by
  rcases step_calm_enc hc h with ⟨-, -, he⟩ | ⟨-, -, he⟩ | ⟨-, -, he⟩ | ⟨-, -, he⟩ <;> rw [he] at ht ⊢
  · rfl
  · rw [Encoder.take_ctl] at ht
    rw [Encoder.take_errSym]
    split at ht
    · simp at ht
    · rename_i hx
      rw [if_neg hx]
      exact hs ht
  · rw [Encoder.give_errSym]
    rw [Encoder.give_ctl] at ht
    split at ht
    · exact hs ht
    · exact hs ht
  · exact hs ht

/-- FC_ERRSYM is written only beside an error code. -/
theorem fc_errSym_zero (hs : s.fc.ctl.err = .none → s.fc.errSym = 0)
    (ht : t.fc.ctl.err = .none) : t.fc.errSym = 0 := by
  rcases step_calm_fc hc h with
    ⟨-, -, -, -, hf⟩ | ⟨-, -, -, -, hf⟩ | ⟨-, -, hf, -⟩ | ⟨-, hf, -⟩
  · rw [hf]
  · rw [hf] at ht ⊢
    exact hs ht
  · rw [hf, Counter.take_err] at ht
    rw [hf, Counter.take_errSym]
    split at ht
    · simp at ht
    · rename_i hx
      rw [if_neg hx]
      exact hs ht
  · rw [hf] at ht ⊢
    exact hs ht

/-- A write of ROOT and a command never share an edge. -/
theorem step_calm_root_of_command {i : Instr} (hp : p.commands i) : t.root = s.root := by
  obtain ⟨u, hu, rfl⟩ := step_calm hc h
  obtain ⟨-, hcmd, -⟩ := hp
  rw [State.afterTransfers_root]
  refine hu.root.resolve_right fun ⟨_, hroot, _⟩ => ?_
  rw [hcmd] at hroot
  exact absurd hroot (by decide)

/-- ROOT is locked while the decoder is busy. -/
theorem step_calm_root_of_busy (hb : s.dec.ctl.st ≠ .idle) : t.root = s.root := by
  obtain ⟨-, hr⟩ := step_calm_rom hc h
  exact hr.resolve_right fun ⟨hi, _⟩ => hb hi

theorem dec_at_root (hs : s.dec.ctl.st = .run → s.dec.mid = false → s.dec.cur = s.root)
    (hrun : t.dec.ctl.st = .run) (hmid : t.dec.mid = false) : t.dec.cur = t.root := by
  rcases step_calm_dec hc h with ⟨-, hp, hd⟩ | ⟨-, hr, hd⟩ | ⟨-, hv, hd⟩ | ⟨-, -, hd⟩
  · rw [hd, step_calm_root_of_command hc h hp]
    rfl
  · rw [step_calm_root_of_busy hc h (State.dec_busy_of_ready hr), hd, Decoder.take_cur]
    rw [hd, Decoder.take_mid] at hmid
    have hsrun : s.dec.ctl.st = .run := by
      by_contra hn
      rw [hd, Decoder.take_drain _ _ _ _ hn] at hrun
      exact hn hrun
    split
    · rename_i hx
      simp_all
    · rename_i hx
      rw [if_neg hx] at hmid
      exact hs hsrun hmid
  · obtain ⟨hcur, hm, -⟩ := s.dec.give_walk
    rw [step_calm_root_of_busy hc h (State.dec_busy_of_valid hv), hd, hcur]
    rw [hd, Decoder.give_ctl] at hrun
    rw [hd, hm] at hmid
    split at hrun
    · exact hs hrun hmid
    · simp at hrun
  · rw [hd] at hrun hmid ⊢
    rw [step_calm_root_of_busy hc h (by simp [hrun])]
    exact hs hrun hmid

end

/-- Settles O46: a reset clears both recorded symbols, and they are written only beside an error. -/
theorem errorSymbolsAreZeroWithoutError : Obligations.ErrorSymbolsAreZeroWithoutError := by
  intro s t henc hfc h
  exact step_keeps
    (P := fun u => (u.enc.ctl.err = .none → u.enc.errSym = 0) ∧
      (u.fc.ctl.err = .none → u.fc.errSym = 0)) h
    (fun _ => ⟨fun _ => rfl, fun _ => rfl⟩) (fun _ => ⟨fun _ => rfl, fun _ => rfl⟩)
    fun _ _ hc hst => ⟨enc_errSym_zero hc hst henc, fc_errSym_zero hc hst hfc⟩

/-- Settles O47: DEC_START and a finished code put the decoder at ROOT, and ROOT is locked in RUN. -/
theorem runningDecoderIsMidCodeOrAtTheRoot : Obligations.RunningDecoderIsMidCodeOrAtTheRoot := by
  intro s t hs h
  exact step_keeps
    (P := fun u => u.dec.ctl.st = .run → u.dec.mid = false → u.dec.cur = u.root) h
    (fun _ _ _ => rfl) (fun _ _ _ => rfl) fun _ _ hc hst => dec_at_root hc hst hs

end Sys2Proof.Machine
end

section
/-! PROOFS. A step runs the command of its edge (10_state.md R24, 20_memory.md R72). -/

namespace Sys2Proof.Machine

theorem command_encode (i : Instr) (s : State) : command (encode i) s = exec i s := by
  simp [command]

theorem hostWrite_cmd (v : Word) (s : State) : hostWrite Reg.cmd.index v s = command v s := rfl

/-- The one host event of an edge that carries a command is that command. -/
theorem runEvents_hostEvents_command {p : Pins} {i : Instr} (hp : p.commands i) (s : State) :
    runEvents (hostEvents p) s = exec i s := by
  obtain ⟨hw, ha, hd⟩ := hp
  obtain ⟨t, ht⟩ := exec_next i s
  simp only [hostEvents, hw, ha, hd, if_true, runEvents, Event.apply, hostWrite_cmd, command_encode,
    ht, andThen_next]

section
variable {p : Pins} {i : Instr} (hr : p.rst = false) (hp : p.commands i) (s : State)
  (rest : List Pins)
include hr hp

/-- A command but SOFT_RESET goes before the transfers of its edge. -/
theorem step_command (hi : i ≠ .softReset) : step (s.setPins (p :: rest)) =
    andThen (exec i (s.setPins rest)) (runEvents (transfers p s)) := by
  have hn : ¬ p.commands .softReset := fun hx => hi (encode_injective (hp.2.2.symm.trans hx.2.2))
  rw [step_setPins, edgeEvents, if_neg (by simp [hr]), if_neg (mt (isSoftReset_iff p).1 hn),
    runEvents_append, runEvents_hostEvents_command hp]

/-- SOFT_RESET is the only event of its edge. -/
theorem step_command_softReset (hi : i = .softReset) : step (s.setPins (p :: rest)) =
    exec i (s.setPins rest) := by
  rw [step_setPins, edgeEvents, if_neg (by simp [hr]), if_pos ((isSoftReset_iff p).2 (hi ▸ hp)),
    runEvents_hostEvents_command hp]

end

theorem commandWord_toNat (w : Word) : commandWord 32 w.toNat = w := by
  rw [commandWord, Nat.mod_eq_of_lt w.isLt, BitVec.ofNat_toNat, BitVec.setWidth_eq]

/-- The edge that `presentCommand` puts first carries its command and no transfer. -/
theorem step_presentCommand (i : Instr) (s : State) :
    step (s.presentCommand (encode i)) = exec i s := by
  have hp : (Pins.write Reg.cmd.index (encode i)).commands i := ⟨rfl, rfl, rfl⟩
  unfold State.presentCommand
  by_cases hi : i = .softReset
  · rw [step_command_softReset rfl hp s s.pins hi, State.setPins_self]
  · rw [step_command rfl hp s s.pins hi, State.setPins_self]
    obtain ⟨t, ht⟩ := exec_next i s
    rw [ht]
    rfl

/-- Settles O23: the host event of the edge is the command, SOFT_RESET runs alone, and the edge that
`withFetchWord` presents has no transfer. -/
theorem stepRunsThePresentedCommand : Obligations.StepRunsThePresentedCommand := by
  intro s p rest i
  refine ⟨fun hr hw ha hd => ?_, ?_⟩
  · have hp : p.commands i := ⟨hw, ha, decode_sound hd⟩
    exact ⟨step_command hr hp s rest, step_command_softReset hr hp s rest⟩
  · rw [State.withFetchWord, commandWord_toNat, step_presentCommand]

end Sys2Proof.Machine
end

section
/-! PROOFS. Reads and writes of the registers, by name and by index (10_state.md R22, R23, 20_memory.md
R67). -/

namespace Sys2Proof.Machine

/-! ## Reads -/

theorem State.readIndex_index (s : State) (r : Reg) : s.readIndex r.index = s.readReg r := by
  simp [State.readIndex]

theorem State.toNat_readReg (s : State) (r : Reg) :
    (s.readReg r).toNat = (s.rawReg r).toNat % 2 ^ r.width s.params :=
  toNat_trunc _ _

theorem State.readReg_lt (s : State) (r : Reg) : (s.readReg r).toNat < 2 ^ r.width s.params :=
  fitsWidth_trunc _ _

theorem State.readReg_of_width_zero {s : State} {r : Reg} (hw : r.width s.params = 0) :
    s.readReg r = 0 :=
  BitVec.eq_of_toNat_eq (by rw [State.toNat_readReg, hw, pow_zero, Nat.mod_one]; rfl)

/-! ## Writes -/

theorem Operands.write_readOnly {r : Reg} (hr : r.access = .readOnly) (p : Params) (o : Operands)
    (v : Word) : o.write p r v = o := by
  cases r <;> simp_all [Operands.write, Reg.access]

/-- A write of a register other than CMD and ROOT goes to the operand registers. -/
theorem hostWrite_index {r : Reg} (hc : r ≠ .cmd) (hr : r ≠ .root) (v : Word) (s : State) :
    hostWrite r.index v s = .next (s.setRegs (s.regs.write s.params r v)) := by
  unfold hostWrite
  rw [Reg.ofIndex_index]
  cases r
  case cmd => exact absurd rfl hc
  case root => exact absurd rfl hr
  all_goals rfl

theorem hostWrite_root_of_free {s : State} (h : s.decLocked = false) (v : Word) :
    hostWrite Reg.root.index v s = .next (s.setRoot (trunc s.params.nodeW v)) :=
  congrArg Host.Outcome.next (if_neg (by simp [h]))

theorem hostWrite_readOnly {r : Reg} (hr : r.access = .readOnly) (v : Word) (s : State) :
    hostWrite r.index v s = .next s := by
  rw [hostWrite_index (by rintro rfl; simp [Reg.access] at hr) (by rintro rfl; simp [Reg.access] at hr),
    Operands.write_readOnly hr, State.setRegs_self]

/-! ## Reserved indices -/

theorem Reg.ofIndex_reserved {i : RegIndex} (h : 0x17 ≤ i.toNat) : Reg.ofIndex i = none :=
  List.getElem?_eq_none h

theorem State.readIndex_reserved {i : RegIndex} (h : 0x17 ≤ i.toNat) (s : State) :
    s.readIndex i = 0 := by
  simp [State.readIndex, Reg.ofIndex_reserved h]

theorem hostWrite_reserved {i : RegIndex} (h : 0x17 ≤ i.toNat) (v : Word) (s : State) :
    hostWrite i v s = .next s := by
  simp [hostWrite, Reg.ofIndex_reserved h]

end Sys2Proof.Machine
end

section
/-! PROOFS. The two views: every field of STATUS and PARAMS is what it names (10_state.md R25, R43). -/

namespace Sys2Proof.Machine

/-! ## Fields of a register image -/

section
variable {k : Nat} (v : BitVec k) {lo : Nat}

theorem getLsbD_field (i : Nat) :
    (field lo v).getLsbD i = (decide (i < 32) && decide (lo ≤ i) && v.getLsbD (i - lo)) := by
  by_cases h : i < 32
  · by_cases hl : lo ≤ i
    · simp [field, h, hl, Nat.not_lt.2 hl]
    · simp [field, hl, Nat.lt_of_not_le hl]
  · simp [h, BitVec.getLsbD_of_ge (field lo v) i (Nat.le_of_not_lt h)]

/-- A field reads back at its own place. -/
theorem extractLsb'_field_same (h : lo + k ≤ 32) : (field lo v).extractLsb' lo k = v := by
  apply BitVec.eq_of_getLsbD_eq
  intro i hi
  rw [BitVec.getLsbD_extractLsb', getLsbD_field]
  simp [hi, show lo + i < 32 by omega]

/-- A field leaves the places below and above it 0. -/
theorem extractLsb'_field_apart {a n : Nat} (h : a + n ≤ lo ∨ lo + k ≤ a) :
    (field lo v).extractLsb' a n = 0#n := by
  apply BitVec.eq_of_getLsbD_eq
  intro i hi
  simp only [BitVec.getLsbD_extractLsb', getLsbD_field]
  rcases h with h | h
  · simp [show ¬ lo ≤ a + i by omega]
  · simp [BitVec.getLsbD_of_ge v (a + i - lo) (by omega)]

theorem getLsbD_field_apart {i : Nat} (h : i < lo ∨ lo + k ≤ i) : (field lo v).getLsbD i = false := by
  rw [getLsbD_field]
  rcases h with h | h
  · simp [show ¬ lo ≤ i by omega]
  · simp [BitVec.getLsbD_of_ge v (i - lo) (by omega)]

theorem getLsbD_flag_apart (b : Bool) {i : Nat} (h : i < lo ∨ lo + 1 ≤ i) :
    (flag lo b).getLsbD i = false :=
  getLsbD_field_apart _ h

theorem extractLsb'_flag_apart (b : Bool) {a n : Nat} (h : a + n ≤ lo ∨ lo + 1 ≤ a) :
    (flag lo b).extractLsb' a n = 0#n :=
  extractLsb'_field_apart _ h

theorem getLsbD_flag_same (b : Bool) (h : lo < 32) : (flag lo b).getLsbD lo = b := by
  rw [flag, getLsbD_field]
  simp [h]

/-- A field that ends below `w` is a value of width `w`. -/
theorem fitsWidth_field {w : Nat} (h : lo + k ≤ w) : fitsWidth w (field lo v) := by
  unfold fitsWidth field
  have hv : v.toNat < 2 ^ k := v.isLt
  rw [BitVec.toNat_shiftLeft, BitVec.toNat_setWidth, Nat.shiftLeft_eq]
  calc v.toNat % 2 ^ 32 * 2 ^ lo % 2 ^ 32
      ≤ v.toNat % 2 ^ 32 * 2 ^ lo := Nat.mod_le _ _
    _ ≤ v.toNat * 2 ^ lo := Nat.mul_le_mul_right _ (Nat.mod_le _ _)
    _ < 2 ^ k * 2 ^ lo := Nat.mul_lt_mul_of_pos_right hv (Nat.two_pow_pos lo)
    _ = 2 ^ (lo + k) := by rw [← pow_add, Nat.add_comm]
    _ ≤ 2 ^ w := Nat.pow_le_pow_right (by decide) h

end

theorem fitsWidth_or {n w : Nat} (x y : BitVec n) :
    fitsWidth w (x ||| y) ↔ fitsWidth w x ∧ fitsWidth w y := by
  unfold fitsWidth
  rw [BitVec.toNat_or]
  exact ⟨fun h => ⟨lt_of_le_of_lt Nat.left_le_or h, lt_of_le_of_lt Nat.right_le_or h⟩,
    fun ⟨hx, hy⟩ => Nat.or_lt_two_pow hx hy⟩

theorem extractLsb'_of_fits {n w len : Nat} {x : BitVec n} (h : fitsWidth w x) :
    x.extractLsb' w len = 0 := by
  apply BitVec.eq_of_toNat_eq
  rw [BitVec.extractLsb'_toNat, Nat.shiftRight_eq_div_pow, Nat.div_eq_of_lt h]
  simp

/-! ## STATUS -/

theorem State.fitsWidth_status (s : State) : fitsWidth 25 s.status := by
  simp (disch := decide) only [State.status, flag, fitsWidth_or, fitsWidth_field, and_self]

theorem State.readReg_status (s : State) : s.readReg .status = s.status :=
  trunc_of_fits s.fitsWidth_status

theorem State.fcView_of_counter {s : State} (h : s.params.hasFc = true) : s.fcView = s.fc.ctl :=
  if_pos h

theorem State.fcView_of_no_counter {s : State} (h : s.params.hasFc = false) : s.fcView = .reset :=
  if_neg (by simp [h])

/-- The fields of STATUS, the counter's as `fcView` shows them. -/
theorem State.status_fields (s : State) :
    (s.status.extractLsb' 0 2 = s.enc.ctl.st.code ∧ s.status.getLsbD 2 = s.enc.ctl.done ∧
      s.status.getLsbD 3 = s.enc.eoi ∧ s.status.extractLsb' 4 4 = s.enc.ctl.err.code) ∧
    (s.status.extractLsb' 8 2 = s.dec.ctl.st.code ∧ s.status.getLsbD 10 = s.dec.ctl.done ∧
      s.status.getLsbD 11 = s.dec.eoi ∧ s.status.extractLsb' 12 4 = s.dec.ctl.err.code) ∧
    (s.status.extractLsb' 16 2 = s.fcView.st.code ∧ s.status.getLsbD 18 = s.fcView.done ∧
      s.status.extractLsb' 20 4 = s.fcView.err.code) ∧
    s.status.getLsbD 19 = s.dec.mid ∧ s.status.getLsbD 24 = s.cmdErr := by
  simp (disch := decide) only [State.status, BitVec.extractLsb'_or, extractLsb'_field_same,
    extractLsb'_field_apart, extractLsb'_flag_apart, BitVec.or_zero, BitVec.zero_or,
    BitVec.getLsbD_or, getLsbD_flag_same, getLsbD_flag_apart, getLsbD_field_apart, Bool.or_false,
    Bool.false_or, and_self]

/-- Settles O7: each field of STATUS stands apart from the others. -/
theorem statusFieldsViewTheState : Obligations.StatusFieldsViewTheState := by
  refine ⟨⟨rfl, rfl, rfl⟩, ⟨rfl, rfl, rfl, rfl, rfl, rfl⟩, fun s => ?_⟩
  obtain ⟨⟨e1, e2, e3, e4⟩, ⟨d1, d2, d3, d4⟩, hfc, hmid, herr⟩ := s.status_fields
  refine ⟨s.readReg_status, e1, e2, e3, e4, d1, d2, d3, d4, fun hp => ?_, fun hp => ?_, hmid, herr,
    extractLsb'_of_fits s.fitsWidth_status, fun v => hostWrite_readOnly rfl v s⟩
  · rwa [State.fcView_of_counter hp] at hfc
  · rwa [State.fcView_of_no_counter hp] at hfc

/-! ## PARAMS -/

theorem fitsWidth_paramsWord (p : Params) : fitsWidth 23 (paramsWord p) := by
  simp (disch := decide) only [paramsWord, flag, fitsWidth_or, fitsWidth_field, and_self]

theorem State.readReg_params (s : State) : s.readReg .params = paramsWord s.params :=
  trunc_of_fits (fitsWidth_paramsWord _)

theorem paramsWord_fields (p : Params) :
    (paramsWord p).extractLsb' 0 6 = BitVec.ofNat 6 p.symW ∧
    (paramsWord p).extractLsb' 6 6 = BitVec.ofNat 6 p.nodeW ∧
    (paramsWord p).extractLsb' 12 4 = BitVec.ofNat 4 p.lenW ∧
    (paramsWord p).extractLsb' 16 6 = BitVec.ofNat 6 p.cntW ∧
    (paramsWord p).getLsbD 22 = p.hasFc := by
  simp (disch := decide) only [paramsWord, BitVec.extractLsb'_or, extractLsb'_field_same,
    extractLsb'_field_apart, extractLsb'_flag_apart, BitVec.or_zero, BitVec.zero_or,
    BitVec.getLsbD_or, getLsbD_flag_same, getLsbD_field_apart, Bool.false_or, and_self]

theorem Params.legal_iff (p : Params) : p.legal = true ↔
    (1 ≤ p.symW ∧ p.symW ≤ 32) ∧ (1 ≤ p.nodeW ∧ p.nodeW ≤ 32) ∧ (1 ≤ p.lenW ∧ p.lenW ≤ 6) ∧
      (1 ≤ p.cntW ∧ p.cntW ≤ 32) := by
  simp only [Params.legal, Bool.and_eq_true, decide_eq_true_eq, and_assoc]

/-- Settles O8: each field of PARAMS stands apart, and no step changes the build. -/
theorem paramsShowsTheBuild : Obligations.ParamsShowsTheBuild := by
  refine ⟨fun s hl => ?_, fun s v => hostWrite_readOnly rfl v s, fun s t h => ?_, by decide,
    by decide⟩
  · obtain ⟨⟨-, hsym⟩, ⟨-, hnode⟩, ⟨-, hlen⟩, ⟨-, hcnt⟩⟩ := (Params.legal_iff _).1 hl
    obtain ⟨f1, f2, f3, f4, f5⟩ := paramsWord_fields s.params
    simp only [State.readReg_params, f1, f2, f3, f4, f5, BitVec.toNat_ofNat]
    exact ⟨Nat.mod_eq_of_lt (by omega), Nat.mod_eq_of_lt (by omega), Nat.mod_eq_of_lt (by omega),
      Nat.mod_eq_of_lt (by omega), trivial, extractLsb'_of_fits (fitsWidth_paramsWord _)⟩
  · rw [step_eq_setPins] at h
    rw [State.readReg_params, State.readReg_params, (step_frame h).1]

end Sys2Proof.Machine
end

section
/-! PROOFS. The register file (10_state.md R22, R23): what each row of the map reads, and what a write of a
read-write register changes. -/

namespace Sys2Proof.Machine

/-! ## What a read shows -/

theorem State.toNat_readIndex_index (s : State) (r : Reg) {v : Nat}
    (h : (s.rawReg r).toNat = v) : (s.readIndex r.index).toNat = v % 2 ^ r.width s.params := by
  rw [s.readIndex_index, s.toNat_readReg, h]

/-- LUT_CODE_LO shows the low bits of LUT_CODE: it is never wider than 32. -/
theorem State.toNat_readReg_lutCodeLo (s : State) :
    (s.readReg .lutCodeLo).toNat = s.regs.lutCode.toNat % 2 ^ min 32 s.params.maxLen := by
  rw [s.toNat_readReg, State.rawReg, toNat_codeLo, Reg.width]
  exact Nat.mod_mod_of_dvd _ (Nat.pow_dvd_pow 2 (Nat.min_le_left _ _))

theorem State.toNat_rawReg_lutLen (s : State) :
    (s.rawReg .lutLen).toNat = s.regs.lutLen.toNat := by
  have := s.regs.lutLen.isLt
  simp only [State.rawReg, BitVec.toNat_setWidth]
  omega

theorem State.toNat_rawReg_romLeaf (s : State) :
    (s.rawReg .romLeaf).toNat = s.regs.romLeaf.toNat := by
  simp only [State.rawReg]
  cases s.regs.romLeaf <;> rfl

/-! ## What a write changes -/

@[simp] theorem State.setRegs_status (s : State) (o : Operands) : (s.setRegs o).status = s.status := rfl


theorem codeHi_codeOf {hi lo : Word} (h : hi.toNat < 2 ^ 31) : codeHi (codeOf hi lo) = hi := by
  apply BitVec.eq_of_toNat_eq
  have := lo.isLt
  rw [toNat_codeHi, toNat_codeOf]
  omega

theorem codeHi_lt (c : CodeVal) : (codeHi c).toNat < 2 ^ 31 := by
  have := c.isLt
  rw [toNat_codeHi]
  omega

theorem Params.maxLen_le {p : Params} (hl : p.legal = true) : p.maxLen ≤ 63 := by
  obtain ⟨-, -, ⟨-, hlen⟩, -⟩ := (Params.legal_iff p).1 hl
  have : 2 ^ p.lenW ≤ 2 ^ 6 := Nat.pow_le_pow_right (by decide) hlen
  unfold Params.maxLen
  omega

/-- A written operand register holds the truncated value. -/
theorem State.rawReg_setRegs_write_same {s : State} (hl : s.params.legal = true) {r : Reg}
    (ha : r.access = .readWrite) (hr : r ≠ .root) (hw : r.width s.params ≠ 0) (v : Word) :
    (s.setRegs (s.regs.write s.params r v)).rawReg r = trunc (r.width s.params) v := by
  simp only [Operands.write, if_neg hw]
  cases r
  case root => exact absurd rfl hr
  case lutLen =>
    obtain ⟨-, -, ⟨-, hlen⟩, -⟩ := (Params.legal_iff _).1 hl
    have hfit : (trunc s.params.lenW v).toNat < 2 ^ 6 :=
      lt_of_lt_of_le (fitsWidth_trunc _ _) (Nat.pow_le_pow_right (by decide) hlen)
    apply BitVec.eq_of_toNat_eq
    rw [State.toNat_rawReg_lutLen]
    exact (BitVec.toNat_setWidth _ _).trans (Nat.mod_eq_of_lt hfit)
  case lutCodeLo => exact codeLo_codeOf _ _
  case lutCodeHi =>
    have hmax := Params.maxLen_le hl
    exact codeHi_codeOf (lt_of_lt_of_le (fitsWidth_trunc _ _)
      (Nat.pow_le_pow_right (by decide) (show s.params.maxLen - 32 ≤ 31 by omega)))
  case romLeaf =>
    apply BitVec.eq_of_toNat_eq
    rw [State.toNat_rawReg_romLeaf]
    exact (Nat.toNat_testBit _ 0).trans (by simp [toNat_trunc, Reg.width])
  case lutAddr | romAddr | romSym | romLeft | romRight | histAddr => rfl
  all_goals simp [Reg.access] at ha

/-- A write of an operand register is seen by no other register. -/
theorem State.rawReg_setRegs_write_other (s : State) {r q : Reg} (hq : q ≠ r) (v : Word) :
    (s.setRegs (s.regs.write s.params r v)).rawReg q = s.rawReg q := by
  by_cases hw : r.width s.params = 0
  · rw [Operands.write_of_width_zero hw, State.setRegs_self]
  · simp only [Operands.write, if_neg hw]
    cases r
    case lutCodeLo =>
      cases q
      case lutCodeLo => exact absurd rfl hq
      case lutCodeHi => exact codeHi_codeOf (codeHi_lt _)
      all_goals rfl
    case lutCodeHi =>
      cases q
      case lutCodeHi => exact absurd rfl hq
      case lutCodeLo => exact codeLo_codeOf _ _
      all_goals rfl
    all_goals cases q <;> simp_all [State.rawReg]

/-- A write that is not rejected: the register reads the truncated value, every other register reads as
before, and nothing outside the operand registers and ROOT changes. -/
theorem hostWrite_readWrite {s : State} (hl : s.params.legal = true) {r : Reg} (v : Word)
    (ha : r.access = .readWrite) (hr : r = .root → s.decLocked = false) :
    ∃ t, hostWrite r.index v s = .next t ∧
      (t.readReg r).toNat = v.toNat % 2 ^ r.width s.params ∧
      (∀ q : Reg, q ≠ r → t.readReg q = s.readReg q) ∧
      (t.setRegs s.regs).setRoot s.root = s := by
  by_cases hroot : r = .root
  · subst hroot
    refine ⟨_, hostWrite_root_of_free (hr rfl) v, ?_, fun q hq => ?_, rfl⟩
    · rw [State.toNat_readReg]
      simp [State.rawReg, Reg.width, toNat_trunc]
    · cases q
      case root => exact absurd rfl hq
      all_goals rfl
  · have hcmd : r ≠ .cmd := by
      rintro rfl
      simp [Reg.access] at ha
    refine ⟨_, hostWrite_index hcmd hroot v s, ?_, fun q hq => ?_, rfl⟩
    · by_cases hw : r.width s.params = 0
      · rw [Operands.write_of_width_zero hw, State.setRegs_self, State.readReg_of_width_zero hw, hw,
          pow_zero, Nat.mod_one]
        rfl
      · rw [State.toNat_readReg, State.rawReg_setRegs_write_same hl ha hroot hw, State.setRegs_params,
          toNat_trunc, Nat.mod_mod]
    · simp only [State.readReg, State.rawReg_setRegs_write_other s hq, State.setRegs_params]

/-- A register of width 0 ignores writes; in a legal build neither CMD nor ROOT is one. -/
theorem hostWrite_of_width_zero {s : State} (hl : s.params.legal = true) {r : Reg}
    (hw : r.width s.params = 0) (v : Word) : hostWrite r.index v s = .next s := by
  obtain ⟨-, ⟨hnode, -⟩, -⟩ := (Params.legal_iff _).1 hl
  have hcmd : r ≠ .cmd := by
    rintro rfl
    simp [Reg.width] at hw
  have hroot : r ≠ .root := by
    rintro rfl
    simp only [Reg.width] at hw
    omega
  rw [hostWrite_index hcmd hroot, Operands.write_of_width_zero hw, State.setRegs_self]

/-- One row of the register map, in the shape the statement gives it: index, access and width compute to
the row's own values, and a read at the index shows the implemented bits of what stands behind it. -/
theorem State.row (s : State) (r : Reg) {v : Nat} (h : (s.rawReg r).toNat = v) :
    r.index = r.index ∧ r.access = r.access ∧ r.width s.params = r.width s.params ∧
      (s.readIndex r.index).toNat = v % 2 ^ r.width s.params :=
  ⟨rfl, rfl, rfl, s.toNat_readIndex_index r h⟩

/-- Settles O4: the map row by row, and the read and the write of a register of each kind. -/
theorem registerAccessFollowsWidthAndKind : Obligations.RegisterAccessFollowsWidthAndKind := by
  intro s hl
  refine ⟨⟨rfl, s.row .cmd rfl, s.row .status rfl, s.row .encErrSym rfl, s.row .encSymCnt rfl,
      s.row .encBitCnt rfl, s.row .decCur rfl, s.row .decBitCnt rfl, s.row .decSymCnt rfl,
      s.row .fcErrSym rfl, s.row .fcTotal rfl, s.row .root rfl, s.row .lutAddr rfl,
      s.row .lutLen s.toNat_rawReg_lutLen, ⟨rfl, rfl, rfl, ?_⟩, ⟨rfl, rfl, ?_, ?_⟩,
      s.row .romAddr rfl, s.row .romLeaf s.toNat_rawReg_romLeaf, s.row .romSym rfl,
      s.row .romLeft rfl, s.row .romRight rfl, s.row .histAddr rfl, s.row .histData rfl,
      s.row .params rfl⟩,
    fun r => ⟨s.readReg_lt r, s.readIndex_index r⟩, fun r v => hostWrite_readWrite hl v,
    fun r v hw => ⟨State.readReg_of_width_zero hw, hostWrite_of_width_zero hl hw v⟩,
    fun r v hr => hostWrite_readOnly hr v s,
    fun i v hi => ⟨s.readIndex_reserved hi, hostWrite_reserved hi v s⟩, trunc_zero _⟩
  · exact (congrArg BitVec.toNat (s.readIndex_index .lutCodeLo)).trans s.toNat_readReg_lutCodeLo
  · exact (Nat.zero_max _).symm
  · rw [Nat.zero_max]
    exact s.toNat_readIndex_index .lutCodeHi (toNat_codeHi _)

end Sys2Proof.Machine
end

section
/-! PROOFS. The host port (20_memory.md R66, R67): what `reg_rd` and `reg_addr` leave alone, and what a host
write does at each index. -/

namespace Sys2Proof.Machine

/-! ## Edges without a host write -/

/-- The events of an edge without a host write do not depend on `reg_addr`. -/
theorem edgeEvents_of_silent {p : Pins} (hw : p.regWr = false) (s : State) :
    edgeEvents p s = if p.rst then [.rst] else transfers p s := by
  simp [edgeEvents, hostEvents, isSoftReset, Pins.isCommand, hw]

/-- Settles O5: `reg_rd` is in no event of an edge, and `reg_addr` only in its host write. -/
theorem hostReadHasNoEffect : Obligations.HostReadHasNoEffect := by
  refine fun s p rest b a => ⟨rfl, rfl, fun hw => ?_⟩
  rw [step_setPins, step_setPins, edgeEvents_of_silent (p := { p with regRd := b, regAddr := a }) hw,
    edgeEvents_of_silent hw]
  rfl

/-! ## Indices -/

/-- Every index below the reserved ones is that of a register. -/
theorem Reg.exists_index {i : RegIndex} (h : i.toNat < 0x17) : ∃ r : Reg, r.index = i :=
  ⟨regMap[i.toNat], (Reg.ofIndex_some (List.getElem?_eq_getElem h)).symm⟩

theorem Reg.access_readOnly_of_index {r : Reg}
    (h : (1 ≤ r.index.toNat ∧ r.index.toNat < 0x0A) ∨ 0x14 < r.index.toNat) :
    r.access = .readOnly := by
  revert h
  cases r <;> decide

/-! ## Writes -/

theorem hostWrite_root_of_busy {s : State} (h : s.decLocked = true) (v : Word) :
    hostWrite Reg.root.index v s = .next s.reject :=
  congrArg Host.Outcome.next (if_pos h)

/-- The indices 0x0B to 0x14 write operand registers: CMD and ROOT stand below them. -/
theorem hostWrite_operand {i : RegIndex} (hlo : 0x0B ≤ i.toNat) (hhi : i.toNat ≤ 0x14) (v : Word)
    (s : State) : ∃ r : Reg, r.index = i ∧
      hostWrite i v s = .next (s.setRegs (s.regs.write s.params r v)) := by
  obtain ⟨r, rfl⟩ := Reg.exists_index (show i.toNat < 0x17 by omega)
  have hcmd : r ≠ .cmd := by rintro rfl; exact absurd hlo (by decide)
  have hroot : r ≠ .root := by rintro rfl; exact absurd hlo (by decide)
  exact ⟨r, rfl, hostWrite_index hcmd hroot v s⟩

/-- Every index but those of CMD, ROOT and the operand registers is read-only or reserved. -/
theorem hostWrite_ignored {i : RegIndex} (h : (1 ≤ i.toNat ∧ i.toNat < 0x0A) ∨ 0x14 < i.toNat)
    (v : Word) (s : State) : hostWrite i v s = .next s := by
  by_cases hi : i.toNat < 0x17
  · obtain ⟨r, rfl⟩ := Reg.exists_index hi
    exact hostWrite_readOnly (Reg.access_readOnly_of_index h) v s
  · exact hostWrite_reserved (Nat.le_of_not_lt hi) v s

/-- Settles O6: CMD, ROOT with the decoder busy or not, the operand registers, the other indices, and reset
alone at its edge. -/
theorem hostWriteEffectByIndex : Obligations.HostWriteEffectByIndex :=
  fun s v => ⟨hostWrite_cmd v s,
    fun hb => hostWrite_root_of_busy (s.decLocked_iff.2 hb) v,
    fun hi => hostWrite_root_of_free (s.decLocked_eq_false_iff.2 hi) v,
    fun _ hlo hhi => hostWrite_operand hlo hhi v s,
    fun _ h => hostWrite_ignored h v s,
    fun _ rest hr => step_rst hr s rest⟩

end Sys2Proof.Machine
end

section
/-! PROOFS. The order of the transfers of an edge (20_memory.md R72): each unit has at most one, and
transfers of different units commute. -/

namespace Sys2Proof.Machine

/-! ## Events that commute -/

/-- The unit that a transfer belongs to; reset and the host write belong to none. -/
def Event.unit : Event → Option UnitName
  | .takeFc _ => some .fc
  | .takeEnc _ | .giveEnc => some .enc
  | .takeDec _ | .giveDec => some .dec
  | .rst | .write _ _ => none

/-- Either order of two events has the same outcome, from every state. -/
def Event.Commutes (e f : Event) : Prop :=
  ∀ u : State, runEvents [e, f] u = runEvents [f, e] u

theorem Event.Commutes.symm {e f : Event} (h : e.Commutes f) : f.Commutes e := fun u => (h u).symm

/-- A transfer writes its own unit and reads that unit, ROOT, the build and the unit's memory. The counter
alone writes a memory, HIST, and no other unit reads it. -/
theorem Event.commutes_of_unit_ne {e f : Event} {a b : UnitName} (he : e.unit = some a)
    (hf : f.unit = some b) (hab : a ≠ b) : e.Commutes f := by
  intro u
  cases e <;> cases he <;> cases f <;> cases hf <;> simp only [ne_eq, not_true] at hab <;> rfl

/-- Events that commute pairwise may be reordered. -/
theorem runEvents_perm {l k : List Event} (hp : l.Perm k) (hc : l.Pairwise Event.Commutes)
    (s : State) : runEvents l s = runEvents k s := by
  induction hp generalizing s with
  | nil => rfl
  | cons e _ ih =>
    obtain ⟨t, ht⟩ := e.apply_next s
    simp only [runEvents, ht, andThen_next, ih hc.of_cons]
  | swap e f l =>
    have hef : f.Commutes e := List.rel_of_pairwise_cons hc List.mem_cons_self
    calc runEvents (f :: e :: l) s
        = andThen (runEvents [f, e] s) (runEvents l) := runEvents_append [f, e] l s
      _ = andThen (runEvents [e, f] s) (runEvents l) := by rw [hef s]
      _ = runEvents (e :: f :: l) s := (runEvents_append [e, f] l s).symm
  | trans hlm _ ih₁ ih₂ => exact (ih₁ hc s).trans (ih₂ (hlm.pairwise hc .symm) s)

/-! ## The transfers of one edge -/

/-- The one transfer the encoder can have at an edge: it never accepts and offers at once. -/
def encTransfer (p : Pins) (s : State) : Event :=
  if s.encInReady then .takeEnc p.encIn else .giveEnc

/-- The one transfer the decoder can have at an edge. -/
def decTransfer (p : Pins) (s : State) : Event :=
  if s.decInReady then .takeDec p.decIn else .giveDec

section
variable (p : Pins) (s : State)

theorem encTransfer_unit : (encTransfer p s).unit = some .enc := by
  unfold encTransfer
  split <;> rfl

theorem decTransfer_unit : (decTransfer p s).unit = some .dec := by
  unfold decTransfer
  split <;> rfl

theorem encTransfers_sublist :
    ((if p.encInValid && s.encInReady then [Event.takeEnc p.encIn] else []) ++
      (if p.encOutReady && s.encOutValid then [Event.giveEnc] else [])).Sublist [encTransfer p s] := by
  unfold encTransfer
  cases hi : s.encInReady
  · cases p.encOutReady && s.encOutValid <;> simp
  · rw [State.enc_exclusive hi]
    cases p.encInValid <;> simp

theorem decTransfers_sublist :
    ((if p.decInValid && s.decInReady then [Event.takeDec p.decIn] else []) ++
      (if p.decOutReady && s.decOutValid then [Event.giveDec] else [])).Sublist [decTransfer p s] := by
  unfold decTransfer
  cases hi : s.decInReady
  · cases p.decOutReady && s.decOutValid <;> simp
  · rw [State.dec_exclusive hi]
    cases p.decInValid <;> simp

/-- The transfers of an edge are among three, one for each unit. -/
theorem transfers_sublist :
    (transfers p s).Sublist [.takeFc p.fcIn, encTransfer p s, decTransfer p s] := by
  have hfc : (if p.fcInValid && s.fcInReady then [Event.takeFc p.fcIn] else []).Sublist
      [.takeFc p.fcIn] := by
    cases p.fcInValid && s.fcInReady <;> simp
  simpa only [transfers, List.append_assoc, List.cons_append, List.nil_append] using
    (hfc.append (encTransfers_sublist p s)).append (decTransfers_sublist p s)

theorem transfers_commute : (transfers p s).Pairwise Event.Commutes := by
  have hfe : (Event.takeFc p.fcIn).Commutes (encTransfer p s) :=
    Event.commutes_of_unit_ne rfl (encTransfer_unit p s) (by decide)
  have hfd : (Event.takeFc p.fcIn).Commutes (decTransfer p s) :=
    Event.commutes_of_unit_ne rfl (decTransfer_unit p s) (by decide)
  have hed : (encTransfer p s).Commutes (decTransfer p s) :=
    Event.commutes_of_unit_ne (encTransfer_unit p s) (decTransfer_unit p s) (by decide)
  exact .sublist (transfers_sublist p s) (by simp [hfe, hfd, hed])

end

/-- Settles O26: the transfers of an edge belong to different units. -/
theorem transfersOfAnEdgeCommute : Obligations.TransfersOfAnEdgeCommute :=
  fun s p _ hp => runEvents_perm hp (hp.symm.pairwise (transfers_commute p s) .symm) s

end Sys2Proof.Machine
end

section
/-! PROOFS. What holds still over an edge: an offer or a `ready` that meets no partner (20_memory.md R71), and
the tables of a busy unit (R74, R76, R77). -/

namespace Sys2Proof.Machine

/-! ## The ports of an idle or an offering unit -/

section
variable {s : State}

theorem State.encInReady_of_idle (h : s.enc.ctl.st = .idle) : s.encInReady = false :=
  Bool.eq_false_iff.2 fun hr => State.enc_busy_of_ready hr h

theorem State.encOutValid_of_idle (h : s.enc.ctl.st = .idle) : s.encOutValid = false :=
  Bool.eq_false_iff.2 fun hv => State.enc_busy_of_valid hv h

/-- The encoder accepts nothing while it offers a beat. -/
theorem State.encInReady_of_offer (h : s.encOutValid = true) : s.encInReady = false :=
  Bool.eq_false_iff.2 fun hr => by simp [State.enc_exclusive hr] at h

theorem State.decInReady_of_idle (h : s.dec.ctl.st = .idle) : s.decInReady = false :=
  Bool.eq_false_iff.2 fun hr => State.dec_busy_of_ready hr h

theorem State.decOutValid_of_idle (h : s.dec.ctl.st = .idle) : s.decOutValid = false :=
  Bool.eq_false_iff.2 fun hv => State.dec_busy_of_valid hv h

/-- The decoder accepts nothing while it offers a beat. -/
theorem State.decInReady_of_offer (h : s.decOutValid = true) : s.decInReady = false :=
  Bool.eq_false_iff.2 fun hr => by simp [State.dec_exclusive hr] at h

theorem State.fcInReady_of_idle (h : s.fc.ctl.st = .idle) : s.fcInReady = false :=
  Bool.eq_false_iff.2 fun hr => State.fc_busy_of_ready hr h

end

/-! ## A unit's ports depend on the unit alone -/

section
variable {s t : State}

theorem State.encPorts_congr (h : t.enc = s.enc) :
    t.encInReady = s.encInReady ∧ t.encOutValid = s.encOutValid ∧ t.encOut = s.encOut := by
  unfold State.encOut State.encOutValid State.encInReady
  rw [h]
  exact ⟨rfl, rfl, rfl⟩

theorem State.decPorts_congr (h : t.dec = s.dec) :
    t.decInReady = s.decInReady ∧ t.decOutValid = s.decOutValid ∧ t.decOut = s.decOut := by
  unfold State.decOut State.decOutValid State.decInReady
  rw [h]
  exact ⟨rfl, rfl, rfl⟩

theorem State.fcInReady_congr (hp : t.params = s.params) (h : t.fc = s.fc) :
    t.fcInReady = s.fcInReady := by
  simp only [State.fcInReady, hp, h]

end

/-! ## A busy unit without a transfer -/

section
variable {p : Pins} {s t : State} {rest : List Pins} (hc : p.calm)
  (h : step (s.setPins (p :: rest)) = .next t)
include hc h

/-- A busy encoder without a transfer is unchanged. -/
theorem step_calm_enc_stays (hb : s.enc.ctl.st ≠ .idle)
    (hin : p.encInValid = true → s.encInReady = false)
    (hout : p.encOutReady = true → s.encOutValid = false) : t.enc = s.enc := by
  rcases step_calm_enc hc h with ⟨hi, -, -⟩ | ⟨hv, hr, -⟩ | ⟨hr, hv, -⟩ | ⟨-, -, he⟩
  · exact absurd hi hb
  · simp [hin hv] at hr
  · simp [hout hr] at hv
  · exact he

/-- A busy decoder without a transfer is unchanged. -/
theorem step_calm_dec_stays (hb : s.dec.ctl.st ≠ .idle)
    (hin : p.decInValid = true → s.decInReady = false)
    (hout : p.decOutReady = true → s.decOutValid = false) : t.dec = s.dec := by
  rcases step_calm_dec hc h with ⟨hi, -, -⟩ | ⟨hv, hr, -⟩ | ⟨hr, hv, -⟩ | ⟨-, -, hd⟩
  · exact absurd hi hb
  · simp [hin hv] at hr
  · simp [hout hr] at hv
  · exact hd

/-- A busy counter without a transfer is unchanged, and so is HIST. -/
theorem step_calm_fc_stays (hb : s.fc.ctl.st ≠ .idle) (hin : p.fcInValid = false) :
    t.fc = s.fc ∧ t.hist = s.hist := by
  rcases step_calm_fc hc h with ⟨-, hi, -⟩ | ⟨-, hi, -⟩ | ⟨hv, -⟩ | ⟨-, hf, hh⟩
  · exact absurd hi hb
  · exact absurd hi hb
  · simp [hin] at hv
  · exact ⟨hf, hh⟩

/-- An offered beat of the encoder waits for its taker. -/
theorem encOut_held (hv : s.encOutValid = true) (hr : p.encOutReady = false) :
    t.encOutValid = true ∧ t.encOut = s.encOut := by
  have he : t.enc = s.enc := step_calm_enc_stays hc h (State.enc_busy_of_valid hv)
    (fun _ => State.encInReady_of_offer hv) (by simp [hr])
  obtain ⟨-, hvalid, hbeat⟩ := State.encPorts_congr he
  exact ⟨hvalid.trans hv, hbeat⟩

/-- An offered beat of the decoder waits for its taker. -/
theorem decOut_held (hv : s.decOutValid = true) (hr : p.decOutReady = false) :
    t.decOutValid = true ∧ t.decOut = s.decOut := by
  have hd : t.dec = s.dec := step_calm_dec_stays hc h (State.dec_busy_of_valid hv)
    (fun _ => State.decInReady_of_offer hv) (by simp [hr])
  obtain ⟨-, hvalid, hbeat⟩ := State.decPorts_congr hd
  exact ⟨hvalid.trans hv, hbeat⟩

theorem encInReady_held (hr : s.encInReady = true) (hv : p.encInValid = false) :
    t.encInReady = true := by
  have he : t.enc = s.enc := step_calm_enc_stays hc h (State.enc_busy_of_ready hr) (by simp [hv])
    fun _ => State.enc_exclusive hr
  obtain ⟨hready, -⟩ := State.encPorts_congr he
  exact hready.trans hr

theorem decInReady_held (hr : s.decInReady = true) (hv : p.decInValid = false) :
    t.decInReady = true := by
  have hd : t.dec = s.dec := step_calm_dec_stays hc h (State.dec_busy_of_ready hr) (by simp [hv])
    fun _ => State.dec_exclusive hr
  obtain ⟨hready, -⟩ := State.decPorts_congr hd
  exact hready.trans hr

theorem fcInReady_held (hr : s.fcInReady = true) (hv : p.fcInValid = false) :
    t.fcInReady = true := by
  obtain ⟨hf, -⟩ := step_calm_fc_stays hc h (State.fc_busy_of_ready hr) hv
  obtain ⟨hp, -⟩ := step_frame h
  exact (State.fcInReady_congr hp hf).trans hr

end

/-- Settles O27: a busy unit without a transfer is unchanged, so its ports are, and an idle unit has neither
`ready` nor `valid`. -/
theorem handshakeIsHeldUntilTransfer : Obligations.HandshakeIsHeldUntilTransfer :=
  fun _ _ _ _ hc h => ⟨encOut_held hc h, decOut_held hc h, encInReady_held hc h,
    decInReady_held hc h, fcInReady_held hc h,
    fun hi => ⟨State.encInReady_of_idle hi, State.encOutValid_of_idle hi⟩,
    fun hi => ⟨State.decInReady_of_idle hi, State.decOutValid_of_idle hi⟩,
    State.fcInReady_of_idle⟩

/-! ## The tables of a busy unit -/

section
variable {p : Pins} {s t : State} {rest : List Pins} (hc : p.calm)
  (h : step (s.setPins (p :: rest)) = .next t)
include hc h

theorem step_calm_lut_of_busy (hb : s.enc.ctl.st ≠ .idle) : t.lut = s.lut :=
  (step_calm_lut hc h).resolve_right fun ⟨hi, _⟩ => hb hi

theorem step_calm_rom_of_busy (hb : s.dec.ctl.st ≠ .idle) : t.rom = s.rom := by
  obtain ⟨hrom, -⟩ := step_calm_rom hc h
  exact hrom.resolve_right fun ⟨hi, _⟩ => hb hi

end

/-- Settles O34: SOFT_RESET keeps the memories, and at a calm edge the commands of a busy unit are locked. -/
theorem busyUnitsTablesAreConstant : Obligations.BusyUnitsTablesAreConstant := by
  intro s t p rest hr h
  by_cases hs : p.commands .softReset
  · rw [step_softReset hr hs] at h
    obtain rfl := Host.Outcome.next.inj h
    exact ⟨fun _ => rfl, fun _ => ⟨rfl, fun hn => absurd hs hn⟩, fun _ _ => rfl⟩
  · have hc : p.calm := ⟨hr, hs⟩
    refine ⟨step_calm_lut_of_busy hc h,
      fun hb => ⟨step_calm_rom_of_busy hc h hb, fun _ => step_calm_root_of_busy hc h hb⟩,
      fun hb hin => ?_⟩
    obtain ⟨-, hhist⟩ := step_calm_fc_stays hc h hb (hin.resolve_right hs)
    exact hhist

end Sys2Proof.Machine
end

section
/-! PROOFS. The encoding (30_encoding.md R91, R92, R94): which words are commands, and what a reserved word,
index or bit does. -/

/-! ## Command words -/

namespace Sys2Proof

theorem decode_ok_iff {w : Word} {i : Instr} : decode w = .ok i ↔ w = encode i :=
  ⟨decode_sound, fun h => h ▸ decode_encode i⟩

theorem decode_of_cmdZ_ne_zero {w : Word} (h : cmdZ w ≠ 0) : decode w = .error .zeroFieldSet :=
  if_pos h

/-- The opcode map has no rows but those of the 13 commands. -/
theorem lookup_opcodeMap_none {o : BitVec 8} (h : ∀ i, o ≠ opcode i) : opcodeMap.lookup o = none :=
  Option.eq_none_iff_forall_ne_some.2 fun i hi => h i ((lookup_opcodeMap o i).1 hi)

theorem decode_of_cmdOp_reserved {w : Word} (hz : cmdZ w = 0) (h : ∀ i, cmdOp w ≠ opcode i) :
    decode w = .error .reservedOpcode := by
  unfold decode
  rw [if_neg (not_not_intro hz), lookup_opcodeMap_none h]

/-- A word that breaks either field of CMD32 is reserved. -/
theorem decode_reserved {w : Word} (h : cmdZ w ≠ 0 ∨ ∀ i, cmdOp w ≠ opcode i) :
    ∃ e, decode w = .error e := by
  by_cases hz : cmdZ w = 0
  · exact ⟨_, decode_of_cmdOp_reserved hz (h.resolve_left (not_not_intro hz))⟩
  · exact ⟨_, decode_of_cmdZ_ne_zero hz⟩

theorem opcode_lt (i : Instr) : (opcode i).toNat < 0x0D := by cases i <;> decide

theorem ne_opcode_of_le {o : BitVec 8} (h : 0x0D ≤ o.toNat) (i : Instr) : o ≠ opcode i := by
  rintro rfl
  exact absurd (opcode_lt i) (Nat.not_lt.2 h)

end Sys2Proof

namespace Sys2Proof.Machine

theorem command_reserved {w : Word} (h : cmdZ w ≠ 0 ∨ ∀ i, cmdOp w ≠ opcode i) (s : State) :
    command w s = .next s.reject := by
  obtain ⟨e, he⟩ := decode_reserved h
  simp [command, he]

/-- Settles O1: `encode` inverts `decode` on the words it accepts, and a word that breaks a field of CMD32 has no
command. -/
theorem commandDecodeIsExactMatch : Obligations.CommandDecodeIsExactMatch :=
  fun w => ⟨fun _ => decode_ok_iff, fun i s h => by rw [decode_sound h, command_encode],
    fun s h => command_reserved h s⟩

/-- Settles O2: each of the 13 words is the word of its row's command, opcode 0x0D is past the last row, and
0x10B breaks the zero field. -/
theorem opcodeMapWords : Obligations.OpcodeMapWords :=
  ⟨decode_encode .nop, decode_encode .softReset, decode_encode .clrErr, decode_encode .lutClear,
    decode_encode .lutWrite, decode_encode .lutRead, decode_encode .romWrite, decode_encode .romRead,
    decode_encode .histClear, decode_encode .histRead, decode_encode .fcStart,
    decode_encode .encStart, decode_encode .decStart,
    decode_of_cmdOp_reserved (by decide) (ne_opcode_of_le (by decide)),
    decode_of_cmdZ_ne_zero (by decide)⟩

/-- Settles O3: no command has an opcode from 0x0D on, no register an index from 0x17 on, and STATUS and PARAMS
fit their 25 and 23 bits. -/
theorem reservedEncodingsAreInert : Obligations.ReservedEncodingsAreInert :=
  ⟨fun _ s h => command_reserved (h.imp_right ne_opcode_of_le) s,
    fun _ v s h => ⟨s.readIndex_reserved h, hostWrite_reserved h v s⟩,
    fun s => extractLsb'_of_fits s.fitsWidth_status,
    fun p => extractLsb'_of_fits (fitsWidth_paramsWord p)⟩

end Sys2Proof.Machine
end

section
/-! PROOFS. The acceptance check (40_commands.md R118): which unit locks a command, and what the command does
where it is locked and where it is not. -/

namespace Sys2Proof.Machine

/-! ## Locks -/

/-- The unit whose lock a command is checked against (40_commands.md R118): none for NOP, SOFT_RESET and
CLR_ERR, which are never rejected. -/
def lockUnit : Instr → Option UnitName
  | .nop | .softReset | .clrErr => none
  | .lutClear | .lutWrite | .lutRead | .encStart => some .enc
  | .romWrite | .romRead | .decStart => some .dec
  | .histClear | .histRead | .fcStart => some .fc

/-- The lock of a unit on its commands (20_memory.md R74). -/
def State.locked (s : State) : UnitName → Bool
  | .enc => s.encLocked
  | .dec => s.decLocked
  | .fc => s.fcLocked

theorem issue_of_locked {s : State} {locked : Bool} (h : locked = true) (f : State → State) :
    issue s locked f = .next s.reject := by
  rw [h, issue_locked]

theorem issue_of_free {s : State} {locked : Bool} (h : locked = false) (f : State → State) :
    issue s locked f = .next (f s) := by
  rw [h, issue_free]

/-! ## Commands that a unit locks -/

section
variable {i : Instr} {u : UnitName} (hi : lockUnit i = some u)
include hi

/-- A command of a unit is issued against that unit's lock, and its effect does not reach CMD_ERR. -/
theorem exec_eq_issue (s : State) :
    ∃ f, exec i s = issue s (s.locked u) f ∧ (f s).cmdErr = s.cmdErr := by
  simp only [exec, execLutClear, execLutWrite, execLutRead, execRomWrite, execRomRead, execHistClear,
    execHistRead, execFcStart, execEncStart, execDecStart]
  cases i <;> cases hi <;> exact ⟨_, rfl, rfl⟩

theorem exec_of_locked {s : State} (h : s.locked u = true) : exec i s = .next s.reject := by
  obtain ⟨f, hf, -⟩ := exec_eq_issue hi s
  rw [hf, issue_of_locked h]

theorem exec_cmdErr_of_free {s : State} (h : s.locked u = false) :
    ∃ t, exec i s = .next t ∧ t.cmdErr = s.cmdErr := by
  obtain ⟨f, hf, herr⟩ := exec_eq_issue hi s
  exact ⟨f s, by rw [hf, issue_of_free h], herr⟩

end

section
variable {i : Instr} {s : State}

theorem exec_of_enc_busy (hi : lockUnit i = some .enc) (hb : s.enc.ctl.st ≠ .idle) :
    exec i s = .next s.reject :=
  exec_of_locked hi (s.encLocked_iff.2 hb)

theorem exec_of_dec_busy (hi : lockUnit i = some .dec) (hb : s.dec.ctl.st ≠ .idle) :
    exec i s = .next s.reject :=
  exec_of_locked hi (s.decLocked_iff.2 hb)

theorem exec_of_fc_unavailable (hi : lockUnit i = some .fc)
    (hb : s.params.hasFc = false ∨ s.fc.ctl.st ≠ .idle) : exec i s = .next s.reject :=
  exec_of_locked hi (s.fcLocked_iff.2 hb)

end

/-! ## Commands that nothing locks -/

theorem exec_nop (s : State) : exec .nop s = .next s := by
  rw [exec, execNop, issue_free]

theorem exec_softReset (s : State) : exec .softReset s = .next s.softReset := by
  rw [exec, execSoftReset, issue_free]

theorem exec_clrErr (s : State) : exec .clrErr s = .next (s.setCmdErr false) := by
  rw [exec, execClrErr, issue_free]

/-- Settles O22: a reserved word breaks a field of CMD32, a command of a unit is issued against that unit's
lock, and the other three have no lock. -/
theorem acceptanceCheckIsExact : Obligations.AcceptanceCheckIsExact := by
  intro s
  have henc : ∀ i ∈ [Instr.lutClear, .lutWrite, .lutRead, .encStart], lockUnit i = some .enc := by
    decide
  have hdec : ∀ i ∈ [Instr.romWrite, .romRead, .decStart], lockUnit i = some .dec := by decide
  have hfc : ∀ i ∈ [Instr.histClear, .histRead, .fcStart], lockUnit i = some .fc := by decide
  exact ⟨fun w h => command_reserved (h.imp_right ne_opcode_of_le) s,
    fun i hi => ⟨exec_of_enc_busy (henc i hi),
      fun hidle => exec_cmdErr_of_free (henc i hi) (s.encLocked_eq_false_iff.2 hidle)⟩,
    fun i hi => ⟨exec_of_dec_busy (hdec i hi),
      fun hidle => exec_cmdErr_of_free (hdec i hi) (s.decLocked_eq_false_iff.2 hidle)⟩,
    fun i hi => ⟨exec_of_fc_unavailable (hfc i hi),
      fun hp hidle => exec_cmdErr_of_free (hfc i hi) (s.fcLocked_eq_false_iff.2 ⟨hp, hidle⟩)⟩,
    ⟨s, exec_nop s, rfl⟩, ⟨_, exec_softReset s, s.softReset_cmdErr⟩, ⟨_, exec_clrErr s, rfl⟩⟩

end Sys2Proof.Machine
end

section
/-! PROOFS. The system commands (40_commands.md R110 to R112) and the reads after SOFT_RESET. -/

namespace Sys2Proof.Machine

/-- Settles O9: NOP has no lock and no effect. -/
theorem nopChangesNothing : Obligations.NopChangesNothing := ⟨decode_encode .nop, exec_nop⟩

/-- Settles O11: CLR_ERR has no lock and writes CMD_ERR alone. -/
theorem clrErrClearsOnlyCmdErr : Obligations.ClrErrClearsOnlyCmdErr :=
  ⟨decode_encode .clrErr, exec_clrErr⟩

section
variable (s : State)

/-- The counter at reset shows what STATUS shows without a counter. -/
theorem State.fcView_softReset : s.softReset.fcView = .reset := by
  rw [State.fcView, State.softReset_fc]
  exact ite_self _

theorem State.status_softReset : s.softReset.status = 0 := by
  rw [State.status, State.fcView_softReset, State.softReset_enc, State.softReset_dec,
    State.softReset_cmdErr]
  decide

/-- Every register but PARAMS has a storage or a view that SOFT_RESET makes 0. -/
theorem State.rawReg_softReset {r : Reg} (hr : r ≠ .params) : s.softReset.rawReg r = 0 := by
  cases r
  case params => exact absurd rfl hr
  case status => exact s.status_softReset
  case lutCodeHi => exact show codeHi 0 = 0 by decide
  all_goals rfl

theorem State.readReg_softReset {r : Reg} (hr : r ≠ .params) : s.softReset.readReg r = 0 := by
  rw [State.readReg, s.rawReg_softReset hr]
  exact trunc_zero _

end

/-- Settles O10: SOFT_RESET has no lock; after it every unit is idle, so no port offers or accepts a beat. -/
theorem softResetClearsAllButMemories : Obligations.SoftResetClearsAllButMemories :=
  ⟨decode_encode .softReset, fun s => ⟨s.softReset, exec_softReset s, s.softReset_enc,
    s.softReset_dec, s.softReset_fc, s.softReset_regs, s.softReset_root, s.softReset_cmdErr,
    s.softReset_lut, s.softReset_rom, s.softReset_hist, s.softReset_params, s.softReset_pins,
    s.softReset_resets, s.status_softReset, fun _ hr => s.readReg_softReset hr,
    State.encOutValid_of_idle rfl, State.decOutValid_of_idle rfl, State.encInReady_of_idle rfl,
    State.decInReady_of_idle rfl⟩⟩

end Sys2Proof.Machine
end

section
/-! PROOFS. The commands on the memories (40_commands.md R113 to R117, R119, R120): what each does where its
unit does not lock it, and its frame. -/

namespace Sys2Proof.Machine

variable {s : State}

/-! ## LUT -/

section
variable (hi : s.enc.ctl.st = .idle)
include hi

theorem exec_lutClear_of_idle : exec .lutClear s = .next (s.setLut (.clear .absent)) := by
  rw [exec, execLutClear, issue_of_free (s.encLocked_eq_false_iff.2 hi)]

theorem exec_lutWrite_of_idle : exec .lutWrite s =
    .next (s.writeLut s.regs.lutAddr { len := s.regs.lutLen, code := s.regs.lutCode }) := by
  rw [exec, execLutWrite, issue_of_free (s.encLocked_eq_false_iff.2 hi)]

theorem exec_lutRead_of_idle : exec .lutRead s = .next (s.setRegs { s.regs with
    lutLen := (s.readLut s.regs.lutAddr).len, lutCode := (s.readLut s.regs.lutAddr).code }) := by
  rw [exec, execLutRead, issue_of_free (s.encLocked_eq_false_iff.2 hi)]

end

theorem State.readLut_setLut_clear (w : LutWord) (a : Sym) :
    (s.setLut (.clear w)).readLut a = w :=
  Memory.read_clear _ _ _

/-- Settles O12: a cleared memory reads the same word everywhere. -/
theorem lutClearMakesEveryEntryAbsent : Obligations.LutClearMakesEveryEntryAbsent :=
  ⟨decode_encode .lutClear, fun s =>
    ⟨fun hi => ⟨_, exec_lutClear_of_idle hi, State.readLut_setLut_clear _, s.setLut_setLut _ _⟩,
      exec_of_enc_busy rfl⟩⟩

/-- Settles O13: the written word is read at its own index, the old word at any other. -/
theorem lutWriteStoresOneEntry : Obligations.LutWriteStoresOneEntry := by
  refine ⟨decode_encode .lutWrite, fun s =>
    ⟨fun hi => ⟨_, exec_lutWrite_of_idle hi, fun a ha => ?_, fun a ha => ?_, s.writeLut_frame _ _⟩,
      exec_of_enc_busy rfl⟩⟩
  · rw [State.readLut_writeLut, if_pos ha.symm]
  · rw [State.readLut_writeLut, if_neg (Ne.symm ha)]

/-- Settles O14: with the encoder idle the word read goes to LUT_LEN and LUT_CODE and nowhere else. -/
theorem lutReadLoadsOperands : Obligations.LutReadLoadsOperands :=
  ⟨decode_encode .lutRead, fun _ =>
    ⟨exec_lutRead_of_idle, exec_of_enc_busy rfl⟩⟩

/-! ## Tree ROM -/

section
variable (hi : s.dec.ctl.st = .idle)
include hi

theorem exec_romWrite_of_idle : exec .romWrite s = .next (s.writeRom s.regs.romAddr
    { leaf := s.regs.romLeaf, sym := s.regs.romSym, left := s.regs.romLeft,
      right := s.regs.romRight }) := by
  rw [exec, execRomWrite, issue_of_free (s.decLocked_eq_false_iff.2 hi)]

theorem exec_romRead_of_idle : exec .romRead s = .next (s.setRegs { s.regs with
    romLeaf := (s.readRom s.regs.romAddr).leaf, romSym := (s.readRom s.regs.romAddr).sym,
    romLeft := (s.readRom s.regs.romAddr).left, romRight := (s.readRom s.regs.romAddr).right }) := by
  rw [exec, execRomRead, issue_of_free (s.decLocked_eq_false_iff.2 hi)]

end

/-- Settles O15: as for the LUT, with the tree ROM's index. -/
theorem romWriteStoresOneNode : Obligations.RomWriteStoresOneNode := by
  refine ⟨decode_encode .romWrite, fun s =>
    ⟨fun hi => ⟨_, exec_romWrite_of_idle hi, fun h hh => ?_, fun h hh => ?_, s.writeRom_frame _ _⟩,
      exec_of_dec_busy rfl⟩⟩
  · rw [State.readRom_writeRom, if_pos hh.symm]
  · rw [State.readRom_writeRom, if_neg (Ne.symm hh)]

/-- Settles O16: with the decoder idle the word read goes to the four data registers and nowhere else. -/
theorem romReadLoadsOperands : Obligations.RomReadLoadsOperands :=
  ⟨decode_encode .romRead, fun _ =>
    ⟨exec_romRead_of_idle, exec_of_dec_busy rfl⟩⟩

/-! ## HIST -/

section
variable (hp : s.params.hasFc = true) (hi : s.fc.ctl.st = .idle)
include hp hi

theorem exec_histClear_of_idle :
    exec .histClear s = .next ((s.setHist (.clear 0)).setFc { s.fc with total := 0 }) := by
  rw [exec, execHistClear, issue_of_free (s.fcLocked_eq_false_iff.2 ⟨hp, hi⟩)]

theorem exec_histRead_of_idle : exec .histRead s =
    .next (s.setRegs { s.regs with histData := s.readHist s.regs.histAddr }) := by
  rw [exec, execHistRead, issue_of_free (s.fcLocked_eq_false_iff.2 ⟨hp, hi⟩)]

end

theorem State.readHist_setHist_clear (w : Word) (a : Sym) :
    (s.setHist (.clear w)).readHist a = w :=
  Memory.read_clear _ _ _

/-- Settles O17: a cleared memory reads 0 everywhere, also beside the new FC_TOTAL. -/
theorem histClearZeroesCounts : Obligations.HistClearZeroesCounts := by
  refine ⟨decode_encode .histClear, fun s =>
    ⟨fun hp hi => ⟨_, exec_histClear_of_idle hp hi, fun a => ?_, State.setFc_fc _ _, rfl⟩,
      exec_of_fc_unavailable rfl⟩⟩
  rw [State.setFc_readHist, State.readHist_setHist_clear]

/-- Settles O18: with a counter that is idle the count read goes to HIST_DATA and nowhere else. -/
theorem histReadLoadsOneCount : Obligations.HistReadLoadsOneCount :=
  ⟨decode_encode .histRead, fun _ =>
    ⟨exec_histRead_of_idle, exec_of_fc_unavailable rfl⟩⟩

end Sys2Proof.Machine
end

section
/-! PROOFS. The port functions (41_frequency_counter.md R144, 43_encoder.md R172, 44_decoder.md R187). -/

namespace Sys2Proof.Machine

section
variable (s : State)

theorem State.fcInReady_iff :
    s.fcInReady = true ↔ s.fc.ctl.st ≠ .idle ∧ s.params.hasFc = true := by
  simp [State.fcInReady, UnitCtl.busy_iff, and_comm]

theorem State.encOutValid_iff :
    s.encOutValid = true ↔ s.enc.ctl.st ≠ .idle ∧ (s.enc.n ≠ 0 ∨ s.enc.eoi = true) := by
  simp [State.encOutValid, UnitCtl.busy_iff]

theorem State.decInReady_iff :
    s.decInReady = true ↔ s.dec.ctl.st ≠ .idle ∧ s.dec.eoi = false ∧ s.dec.outV = false := by
  simp [State.decInReady, UnitCtl.busy_iff, and_assoc]

theorem State.decOutValid_iff :
    s.decOutValid = true ↔ s.dec.ctl.st ≠ .idle ∧ (s.dec.outV = true ∨ s.dec.eoi = true) := by
  simp [State.decOutValid, UnitCtl.busy_iff]

end

section
variable {s : State}

theorem State.encOut_bit (hv : s.encOutValid = true) (hn : s.enc.n ≠ 0) :
    s.encOut = { bit := s.enc.sh.getLsbD (s.enc.n.toNat - 1), keep := true, last := false } := by
  rw [State.encOut, if_pos hv, if_pos hn, Encoder.nextBit]

theorem State.encOut_end (hv : s.encOutValid = true) (hn : s.enc.n = 0) :
    s.encOut = { bit := false, keep := false, last := true } := by
  rw [State.encOut, if_pos hv, if_neg (not_not.2 hn)]

theorem State.encOut_of_not_valid (hv : s.encOutValid = false) :
    s.encOut = { bit := false, keep := false, last := false } := by
  rw [State.encOut, if_neg (Bool.eq_false_iff.1 hv)]

theorem State.decOut_sym (hv : s.decOutValid = true) (ho : s.dec.outV = true) :
    s.decOut = { sym := s.dec.outSym, keep := true, last := false } := by
  rw [State.decOut, if_pos hv, if_pos ho]

theorem State.decOut_end (hv : s.decOutValid = true) (ho : s.dec.outV = false) :
    s.decOut = { sym := 0, keep := false, last := true } := by
  rw [State.decOut, if_pos hv, if_neg (Bool.eq_false_iff.1 ho)]

theorem State.decOut_of_not_valid (hv : s.decOutValid = false) :
    s.decOut = { sym := 0, keep := false, last := false } := by
  rw [State.decOut, if_neg (Bool.eq_false_iff.1 hv)]

end

/-- Settles O28: each wire by its own rule; a unit that accepts offers nothing. -/
theorem portFunctions : Obligations.PortFunctions := fun s =>
  ⟨s.fcInReady_iff, s.encInReady_iff, s.encOutValid_iff, State.encOut_bit, State.encOut_end,
    State.encOut_of_not_valid, s.decInReady_iff, s.decOutValid_iff, State.decOut_sym,
    State.decOut_end, State.decOut_of_not_valid,
    fun ⟨hr, hv⟩ => by simp [State.enc_exclusive hr] at hv,
    fun ⟨hr, hv⟩ => by simp [State.dec_exclusive hr] at hv⟩

end Sys2Proof.Machine
end

section
/-! PROOFS. The counter's command and its beats (41_frequency_counter.md R141 to R145): the exact next counter
and HIST in each case. -/

namespace Sys2Proof.Machine

/-! ## FC_START -/

theorem exec_fcStart_of_idle {s : State} (hp : s.params.hasFc = true) (hi : s.fc.ctl.st = .idle) :
    exec .fcStart s = .next (s.setFc { s.fc with ctl := .start, errSym := 0 }) := by
  rw [exec, execFcStart, issue_of_free (s.fcLocked_eq_false_iff.2 ⟨hp, hi⟩)]

/-- Settles O19: with a counter that is idle FC_START writes the control and FC_ERRSYM alone. -/
theorem fcStartBeginsCounting : Obligations.FcStartBeginsCounting :=
  ⟨decode_encode .fcStart, fun _ => ⟨exec_fcStart_of_idle, exec_of_fc_unavailable rfl⟩⟩

/-! ## A beat -/

/-- The control after a beat whose payload left it at `c`: a last beat ends the operation
(41_frequency_counter.md R143). -/
def UnitCtl.afterBeat (c : UnitCtl) (last : Bool) : UnitCtl := if last then c.finish else c

section
variable (c : UnitCtl) (last : Bool)

@[simp] theorem UnitCtl.afterBeat_st : (c.afterBeat last).st = if last then .idle else c.st := by
  cases last <;> rfl

@[simp] theorem UnitCtl.afterBeat_done :
    (c.afterBeat last).done = if last then true else c.done := by
  cases last <;> rfl

@[simp] theorem UnitCtl.afterBeat_err : (c.afterBeat last).err = c.err := by
  cases last <;> rfl

end

section
variable {s : State} {b : SymBeat}

theorem State.takeFc_frame (s : State) (b : SymBeat) :
    ((s.takeFc b).setFc s.fc).setHist s.hist = s := rfl

/-- The counter after a beat, field by field (41_frequency_counter.md R142, R143, R145). -/
theorem State.takeFc_fc (s : State) (b : SymBeat) : (s.takeFc b).fc =
    { ctl := UnitCtl.afterBeat
        (if s.fc.ctl.st = .run ∧ b.keep = true ∧ (s.readHist b.sym).toNat = s.countLimit then
          s.fc.ctl.errorEntry .countOverflow else s.fc.ctl) b.last
      errSym :=
        if s.fc.ctl.st = .run ∧ b.keep = true ∧ (s.readHist b.sym).toNat = s.countLimit then
          trunc s.params.symW b.sym else s.fc.errSym
      total :=
        if s.fc.ctl.st = .run ∧ b.keep = true ∧ (s.readHist b.sym).toNat ≠ s.countLimit then
          s.fc.total + 1 else s.fc.total } :=
  congr (congr (congrArg Counter.mk (Counter.take_ctl ..)) (Counter.take_errSym ..))
    (Counter.take_total ..)

theorem State.takeFc_hist (s : State) (b : SymBeat) : (s.takeFc b).hist =
    if s.counts b then s.hist.write (s.symIndex b.sym) (s.readHist b.sym + 1) else s.hist := rfl

/-- A counted beat (41_frequency_counter.md R142). -/
theorem State.takeFc_fc_of_counts (h : s.counts b = true) : (s.takeFc b).fc =
    { s.fc with ctl := s.fc.ctl.afterBeat b.last, total := s.fc.total + 1 } := by
  obtain ⟨hr, hk, hl⟩ := s.counts_iff.1 h
  simp [State.takeFc_fc, hr, hk, hl]

theorem State.readHist_takeFc_of_counts (h : s.counts b = true) (a : Sym) :
    (s.takeFc b).readHist a =
      if s.symIndex b.sym = s.symIndex a then s.readHist b.sym + 1 else s.readHist a := by
  have hread : (s.takeFc b).readHist = (s.writeHist b.sym (s.readHist b.sym + 1)).readHist :=
    State.readHist_congr (by rfl) (if_pos h)
  rw [hread, State.readHist_writeHist]

/-- A beat at the limit is CountOverflow (41_frequency_counter.md R145). -/
theorem State.takeFc_of_overflow (hr : s.fc.ctl.st = .run) (hk : b.keep = true)
    (hl : (s.readHist b.sym).toNat = s.countLimit) : (s.takeFc b).hist = s.hist ∧
      (s.takeFc b).fc =
        { s.fc with ctl := (s.fc.ctl.errorEntry .countOverflow).afterBeat b.last,
                    errSym := trunc s.params.symW b.sym } := by
  simp [State.takeFc_hist, s.counts_iff, State.takeFc_fc, hr, hk, hl]

/-- A beat outside RUN or without payload is not counted (41_frequency_counter.md R142). -/
theorem State.takeFc_of_pass (h : s.fc.ctl.st ≠ .run ∨ b.keep = false) :
    (s.takeFc b).hist = s.hist ∧
      (s.takeFc b).fc = { s.fc with ctl := s.fc.ctl.afterBeat b.last } := by
  rcases h with h | h <;> simp [State.takeFc_hist, s.counts_iff, State.takeFc_fc, h]

theorem State.takeFc_done (s : State) (b : SymBeat) :
    (s.takeFc b).fc.ctl.done = if b.last then true else s.fc.ctl.done := by
  simp [State.takeFc_fc, apply_ite UnitCtl.done]

end

/-- Settles O29: counted, at the limit, or passed. -/
theorem counterTakesABeat : Obligations.CounterTakesABeat := by
  refine fun s b _ => ⟨s.takeFc b, rfl, s.takeFc_frame b, fun hr hk hl => ?_, fun hr hk hl => ?_,
    fun h => ?_, s.takeFc_done b⟩
  · have hc : s.counts b = true := s.counts_iff.2 ⟨hr, hk, hl⟩
    have hread := State.readHist_takeFc_of_counts hc
    refine ⟨fun a ha => by rw [hread, if_pos ha.symm],
      fun a ha => by rw [hread, if_neg (Ne.symm ha)], ?_⟩
    simp [State.takeFc_fc_of_counts hc, hr]
  · obtain ⟨hhist, hfc⟩ := State.takeFc_of_overflow hr hk hl
    simp [hhist, hfc]
  · obtain ⟨hhist, hfc⟩ := State.takeFc_of_pass h
    simp [hhist, hfc]

end Sys2Proof.Machine
end

section
/-! PROOFS. What an edge of the bench is (20_memory.md R70, R71): a step at the pins its wish drives, and the
beat it takes off the queue of `fc_in`. -/

namespace Sys2Proof.Machine

section
variable (b : Bench) (w : Wish)

/-- The state after an edge of the bench is that of the step at the driven pins. -/
theorem Bench.step_edge : step (b.st.setPins [b.drive w]) = .next (b.edge w).st := by
  obtain ⟨t, ht⟩ := runEvents_next (edgeEvents (b.drive w) b.st) (b.st.setPins [])
  rw [← step_setPins] at ht
  simp only [Bench.edge, ht]

theorem Bench.edge_fcQ : (b.edge w).fcQ =
    if (b.drive w).fcInValid && (outputs (b.drive w) b.st).fcInReady then b.fcQ.tail
    else b.fcQ := by
  obtain ⟨t, ht⟩ := runEvents_next (edgeEvents (b.drive w) b.st) (b.st.setPins [])
  rw [← step_setPins] at ht
  simp only [Bench.edge, ht]

theorem Bench.edge_params : (b.edge w).st.params = b.st.params :=
  (step_frame (b.step_edge w)).1

variable {w} in
/-- The pins of an edge carry a command exactly if the wish writes its word to CMD. -/
theorem Bench.drive_commands_iff {i : Instr} :
    (b.drive w).commands i ↔ w.host = some (Reg.cmd.index, encode i) := by
  obtain ⟨_, _ | ⟨a, v⟩, _⟩ := w <;> simp [Bench.drive, Pins.commands]

variable {w} in
theorem Bench.drive_calm (hr : w.rst = false)
    (hh : w.host ≠ some (Reg.cmd.index, encode .softReset)) : (b.drive w).calm :=
  ⟨hr, mt b.drive_commands_iff.1 hh⟩

theorem Bench.drive_eager_calm : (b.drive .eager).calm := b.drive_calm rfl nofun

theorem Bench.drive_eager_commands (i : Instr) : ¬ (b.drive .eager).commands i :=
  mt b.drive_commands_iff.1 nofun

end

end Sys2Proof.Machine
end

section
/-! PROOFS. The counter on the bench: eager edges feed it its frame beat by beat, and an idle counter stays
as it is (41_frequency_counter.md R141, R144). -/

namespace Sys2Proof.Machine

/-! ## The part of the state that counting reads and writes -/

/-- `t` has the counter, the HIST and the build of `s`. -/
structure State.SameCounter (s t : State) : Prop where
  params : t.params = s.params
  fc : t.fc = s.fc
  hist : t.hist = s.hist

section
variable {s t u : State}

theorem State.SameCounter.refl (s : State) : s.SameCounter s := ⟨rfl, rfl, rfl⟩

theorem State.SameCounter.trans (h : s.SameCounter t) (h' : t.SameCounter u) : s.SameCounter u :=
  ⟨h'.params.trans h.params, h'.fc.trans h.fc, h'.hist.trans h.hist⟩

theorem State.SameCounter.readHist (h : s.SameCounter t) : t.readHist = s.readHist :=
  State.readHist_congr h.params h.hist

theorem State.SameCounter.symIndex (h : s.SameCounter t) : t.symIndex = s.symIndex := by
  funext a
  rw [State.symIndex, h.params, State.symIndex]

theorem State.SameCounter.countLimit (h : s.SameCounter t) : t.countLimit = s.countLimit := by
  rw [State.countLimit, h.params, State.countLimit]

theorem State.SameCounter.counts (h : s.SameCounter t) (b : SymBeat) : t.counts b = s.counts b := by
  rw [State.counts, h.fc, h.readHist, h.countLimit, State.counts]

/-- A beat acts on the counter and HIST by what they and the build are. -/
theorem State.SameCounter.takeFc (h : s.SameCounter t) (b : SymBeat) :
    (s.takeFc b).SameCounter (t.takeFc b) := by
  refine ⟨h.params, ?_, ?_⟩
  · rw [State.takeFc_fc, State.takeFc_fc, h.readHist, h.countLimit, h.fc, h.params]
  · rw [State.takeFc_hist, State.takeFc_hist, h.counts, h.hist, h.symIndex, h.readHist]

theorem State.SameCounter.takeFcs (h : s.SameCounter t) (bs : List SymBeat) :
    (bs.foldl State.takeFc s).SameCounter (bs.foldl State.takeFc t) := by
  induction bs generalizing s t with
  | nil => exact h
  | cons b bs ih => exact ih (h.takeFc b)

end

/-! ## Eager edges -/

section
variable {b : Bench}

/-- An eager edge moves the next beat of the queue into a counter that is ready, and else leaves both as they
are. -/
theorem Bench.edge_eager_fc (b : Bench) :
    (∃ x, b.st.fcInReady = true ∧ b.fcQ = x :: (b.edge .eager).fcQ ∧
      (b.st.takeFc x).SameCounter (b.edge .eager).st) ∨
    ((b.st.fcInReady = false ∨ b.fcQ = []) ∧ (b.edge .eager).fcQ = b.fcQ ∧
      b.st.SameCounter (b.edge .eager).st) := by
  have hready : (outputs (b.drive .eager) b.st).fcInReady = b.st.fcInReady := rfl
  have hvalid : (b.drive .eager).fcInValid = !b.fcQ.isEmpty := rfl
  have hbeat : (b.drive .eager).fcIn = b.fcQ.headD .null := rfl
  rw [Bench.edge_fcQ, hready]
  rcases step_calm_fc b.drive_eager_calm (b.step_edge .eager) with
    ⟨-, -, hc, -⟩ | ⟨-, -, hc, -⟩ | ⟨hv, hr, hf, hh⟩ | ⟨hn, hf, hh⟩
  · exact absurd hc (b.drive_eager_commands _)
  · exact absurd hc (b.drive_eager_commands _)
  · cases hq : b.fcQ with
    | nil => simp [hvalid, hq] at hv
    | cons x q =>
      rw [hbeat, hq] at hf hh
      exact .inl ⟨x, hr, by simp [hv, hr], b.edge_params _, hf, hh⟩
  · refine .inr ⟨?_, by simp [hn], b.edge_params _, hf, hh⟩
    simpa [hvalid, or_iff_not_imp_right] using hn

theorem Bench.edge_eager_of_fc_idle (hi : b.st.fc.ctl.st = .idle) :
    (b.edge .eager).fcQ = b.fcQ ∧ b.st.SameCounter (b.edge .eager).st := by
  obtain ⟨x, hr, -⟩ | ⟨-, h⟩ := b.edge_eager_fc
  · simp [State.fcInReady_of_idle hi] at hr
  · exact h

theorem Bench.edge_eager_of_fc_ready (hr : b.st.fcInReady = true) {x : SymBeat}
    {q : List SymBeat} (hq : b.fcQ = x :: q) :
    (b.edge .eager).fcQ = q ∧ (b.st.takeFc x).SameCounter (b.edge .eager).st := by
  obtain ⟨y, -, hy, hs⟩ | ⟨hn, -⟩ := b.edge_eager_fc
  · obtain ⟨rfl, rfl⟩ := List.cons.inj (hq.symm.trans hy)
    exact ⟨rfl, hs⟩
  · simp [hr, hq] at hn

theorem Bench.settle_of_fc_idle (hi : b.st.fc.ctl.st = .idle) (k : Nat) :
    (b.settle k).fcQ = b.fcQ ∧ b.st.SameCounter (b.settle k).st := by
  induction k generalizing b with
  | zero => exact ⟨rfl, .refl _⟩
  | succ k ih =>
    obtain ⟨hq, hs⟩ := Bench.edge_eager_of_fc_idle hi
    obtain ⟨hq', hs'⟩ := ih (hs.fc ▸ hi)
    exact ⟨hq'.trans hq, hs.trans hs'⟩

theorem isFrame_cons_iff {B : Type} (ends : B → Bool) (b : B) (bs : List B) :
    isFrame ends (b :: bs) = true ↔
      bs = [] ∧ ends b = true ∨ ends b = false ∧ isFrame ends bs = true := by
  cases bs <;> simp [isFrame]

theorem State.takeFc_st_of_last {s : State} {x : SymBeat} (hl : x.last = true) :
    (s.takeFc x).fc.ctl.st = .idle := by
  simp [State.takeFc_fc, hl]

theorem State.takeFc_ready {s : State} (hr : s.fcInReady = true) {x : SymBeat}
    (hl : x.last = false) : (s.takeFc x).fcInReady = true := by
  obtain ⟨hb, hp⟩ := s.fcInReady_iff.1 hr
  refine (State.fcInReady_iff _).2 ⟨?_, hp⟩
  rw [State.takeFc_fc]
  split <;> simp [hl, hb]

/-- Enough eager edges run a busy counter through its frame and no further. -/
theorem Bench.settle_frame (hr : b.st.fcInReady = true) {frame rest : List SymBeat}
    (hf : isFrame SymBeat.last frame = true) (hq : b.fcQ = frame ++ rest) {k : Nat}
    (hk : frame.length ≤ k) : (b.settle k).fcQ = rest ∧
      (frame.foldl State.takeFc b.st).SameCounter (b.settle k).st := by
  induction frame generalizing b k with
  | nil => simp [isFrame] at hf
  | cons x frame ih =>
    obtain ⟨k, rfl⟩ := Nat.exists_eq_add_one.2 (Nat.zero_lt_of_lt hk)
    obtain ⟨hq1, hs1⟩ := Bench.edge_eager_of_fc_ready hr hq
    obtain ⟨rfl, hl⟩ | ⟨hl, hf⟩ := (isFrame_cons_iff _ _ _).1 hf
    · have hi : (b.edge .eager).st.fc.ctl.st = .idle := by rw [hs1.fc, State.takeFc_st_of_last hl]
      obtain ⟨hq2, hs2⟩ := Bench.settle_of_fc_idle hi k
      exact ⟨hq2.trans hq1, hs1.trans hs2⟩
    · have hr1 : (b.edge .eager).st.fcInReady = true :=
        (State.fcInReady_congr hs1.params hs1.fc).trans (State.takeFc_ready hr hl)
      obtain ⟨hq2, hs2⟩ := ih hr1 hf hq1 (Nat.le_of_succ_le_succ hk)
      exact ⟨hq2, (hs1.takeFcs frame).trans hs2⟩

/-- FC_START on the bench: an idle counter starts and takes no beat at that edge. -/
theorem Bench.edge_fcStart (hp : b.st.params.hasFc = true) (hi : b.st.fc.ctl.st = .idle) :
    (b.edge (.write Reg.cmd.index (encode .fcStart))).fcQ = b.fcQ ∧
      (b.st.setFc { b.st.fc with ctl := .start, errSym := 0 }).SameCounter
        (b.edge (.write Reg.cmd.index (encode .fcStart))).st := by
  have hr : b.st.fcInReady = false := State.fcInReady_of_idle hi
  have hc : (b.drive (.write Reg.cmd.index (encode .fcStart))).commands .fcStart := ⟨rfl, rfl, rfl⟩
  have hstep := b.step_edge (.write Reg.cmd.index (encode .fcStart))
  rw [step_command rfl hc _ _ (by decide), exec_fcStart_of_idle (s := b.st.setPins []) hp hi, andThen_next,
    runEvents_transfers, Host.Outcome.next.injEq] at hstep
  refine ⟨by rw [Bench.edge_fcQ, outputs, hr, Bool.and_false, Bool.and_false]; rfl,
    b.edge_params _, ?_, ?_⟩
  · rw [← hstep, State.afterTransfers_fc, hr, Bool.and_false]; rfl
  · rw [← hstep, State.afterTransfers_hist, hr, Bool.and_false]; rfl

end

end Sys2Proof.Machine
end

section
/-! PROOFS. The counting operation as a whole (41_frequency_counter.md R147): what the beats of a frame make of
the histogram, FC_TOTAL and the error, on the state and then on the bench. -/

namespace Sys2Proof.Machine

/-! ## Where a payload overflows -/

theorem overflowsAt_nil (h : Sym → Nat) (limit j : Nat) : ¬ overflowsAt h limit [] j := by
  simp [overflowsAt]

theorem overflowsAt_cons_zero (h : Sym → Nat) (limit : Nat) (x : Sym) (xs : List Sym) :
    overflowsAt h limit (x :: xs) 0 ↔ h x = limit := by
  simp [overflowsAt]

/-- Behind its first symbol a payload overflows where the rest does over the histogram that counts that
symbol. -/
theorem overflowsAt_cons_succ {h h' : Sym → Nat} {x : Sym} {xs : List Sym}
    (hh : ∀ z ∈ xs, h' z = h z + [x].count z) (limit j : Nat) :
    overflowsAt h limit (x :: xs) (j + 1) ↔ overflowsAt h' limit xs j := by
  unfold overflowsAt
  refine exists_congr fun z => and_congr_right fun hz => ?_
  have hcount : (x :: xs.take j).count z = [x].count z + (xs.take j).count z :=
    List.count_append (l₁ := [x])
  rw [List.take_succ_cons, hcount, hh z (List.mem_of_getElem? hz), Nat.add_assoc]

/-! ## What a payload adds to the counts -/

/-- `t` has in HIST and FC_TOTAL what `s` has and the symbols `xs`. -/
structure State.AddsCounts (s t : State) (xs : List Sym) : Prop where
  hist : ∀ x, fitsWidth s.params.symW x →
    (t.readHist x).toNat = (s.readHist x).toNat + xs.count x
  total : t.fc.total = s.fc.total + BitVec.ofNat 32 xs.length

/-- `t` differs from `s` in the counter's state and DONE at most. -/
structure State.SameCounts (s t : State) : Prop where
  params : t.params = s.params
  hist : t.hist = s.hist
  total : t.fc.total = s.fc.total
  errSym : t.fc.errSym = s.fc.errSym
  err : t.fc.ctl.err = s.fc.ctl.err

section
variable {s t u : State}

theorem State.SameCounts.refl (s : State) : s.SameCounts s := ⟨rfl, rfl, rfl, rfl, rfl⟩

theorem State.SameCounts.trans (h : s.SameCounts t) (h' : t.SameCounts u) : s.SameCounts u :=
  ⟨h'.params.trans h.params, h'.hist.trans h.hist, h'.total.trans h.total,
    h'.errSym.trans h.errSym, h'.err.trans h.err⟩

theorem State.SameCounts.readHist (h : s.SameCounts t) : t.readHist = s.readHist :=
  State.readHist_congr h.params h.hist

theorem State.AddsCounts.nil (hh : t.readHist = s.readHist) (ht : t.fc.total = s.fc.total) :
    s.AddsCounts t [] :=
  ⟨fun x _ => by rw [hh]; rfl, by rw [ht]; exact (BitVec.add_zero _).symm⟩

theorem State.AddsCounts.append {xs ys : List Sym} (hp : u.params = s.params)
    (h : s.AddsCounts u xs) (h' : u.AddsCounts t ys) : s.AddsCounts t (xs ++ ys) where
  hist x hx := by
    rw [h'.hist x (hp ▸ hx), h.hist x hx, List.count_append, Nat.add_assoc]
  total := by
    rw [h'.total, h.total, List.length_append, BitVec.ofNat_add, BitVec.add_assoc]

end

/-! ## What a payload makes of the counter -/

/-- `t` is what counting the payload `xs` makes of `s`: all of it is counted, or the symbols before the
first overflow, whose symbol is recorded. -/
structure State.Counted (s t : State) (xs : List Sym) : Prop where
  whole : (∀ j, ¬ overflowsAt (fun x => (s.readHist x).toNat) s.countLimit xs j) →
    t.fc.ctl.err = s.fc.ctl.err ∧ s.AddsCounts t xs
  upTo : ∀ j x, overflowsAt (fun x => (s.readHist x).toNat) s.countLimit xs j →
    (∀ i, i < j → ¬ overflowsAt (fun x => (s.readHist x).toNat) s.countLimit xs i) →
    xs[j]? = some x →
    t.fc.ctl.err = .countOverflow ∧ t.fc.errSym = x ∧ s.AddsCounts t (xs.take j)

section
variable {s t u : State} {x : Sym} {xs : List Sym}

theorem State.Counted.nil (s : State) : s.Counted s [] where
  whole _ := ⟨rfl, .nil rfl rfl⟩
  upTo j _ ho := absurd ho (overflowsAt_nil _ _ j)

/-- A beat that is not counted goes before. -/
theorem State.Counted.of_sameCounts (hs : s.SameCounts u) (h : u.Counted t xs) :
    s.Counted t xs := by
  obtain ⟨hwhole, hupTo⟩ := h
  have hadds : ∀ {ys}, u.AddsCounts t ys → s.AddsCounts t ys := fun hy =>
    State.AddsCounts.append hs.params (.nil hs.readHist hs.total) hy
  rw [hs.readHist, State.countLimit, hs.params] at hwhole hupTo
  exact ⟨fun hn => (hwhole hn).imp (·.trans hs.err) hadds, fun j x ho hf hx =>
    (hupTo j x ho hf hx).imp id (And.imp id hadds)⟩

/-- A symbol below the limit is counted, and the rest over what that leaves. -/
theorem State.Counted.cons (hx : (s.readHist x).toNat ≠ s.countLimit)
    (hxs : ∀ z ∈ xs, fitsWidth s.params.symW z) (hp : u.params = s.params)
    (he : u.fc.ctl.err = s.fc.ctl.err) (hu : s.AddsCounts u [x]) (h : u.Counted t xs) :
    s.Counted t (x :: xs) := by
  obtain ⟨hwhole, hupTo⟩ := h
  have hlim : u.countLimit = s.countLimit := by rw [State.countLimit, hp, State.countLimit]
  have hsucc := overflowsAt_cons_succ (fun z hz => hu.hist z (hxs z hz)) s.countLimit
  simp only [hlim, ← hsucc] at hwhole hupTo
  constructor
  · intro hn
    obtain ⟨herr, hadds⟩ := hwhole fun j => hn (j + 1)
    exact ⟨herr.trans he, hu.append hp hadds⟩
  · rintro (_ | j) z ho hfirst hz
    · exact absurd ((overflowsAt_cons_zero ..).1 ho) hx
    · obtain ⟨herr, hsym, hadds⟩ := hupTo j z ho (fun i hi => hfirst (i + 1) (by omega)) hz
      exact ⟨herr, hsym, hu.append hp hadds⟩

/-- A symbol at the limit is the first overflow. -/
theorem State.Counted.overflow (hx : (s.readHist x).toNat = s.countLimit)
    (he : t.fc.ctl.err = .countOverflow) (hsym : t.fc.errSym = x) (ht : s.AddsCounts t []) :
    s.Counted t (x :: xs) := by
  have h0 : overflowsAt (fun x => (s.readHist x).toNat) s.countLimit (x :: xs) 0 :=
    (overflowsAt_cons_zero ..).2 hx
  constructor
  · exact fun hn => absurd h0 (hn 0)
  · rintro (_ | j) z - hfirst hz
    · exact ⟨he, hsym.trans (Option.some.inj hz), ht⟩
    · exact absurd h0 (hfirst 0 (Nat.succ_pos j))

end

/-! ## The beats of a frame -/

theorem symPayload_cons_of_keep {b : SymBeat} (hk : b.keep = true) (bs : List SymBeat) :
    symPayload (b :: bs) = b.sym :: symPayload bs := by
  simp [symPayload, hk]

theorem symPayload_cons_of_not_keep {b : SymBeat} (hk : b.keep = false) (bs : List SymBeat) :
    symPayload (b :: bs) = symPayload bs := by
  simp [symPayload, hk]

section
variable {s : State}

/-- The last beat of a frame ends the operation. -/
theorem State.takeFcs_frame_ends {frame : List SymBeat} (hf : isFrame SymBeat.last frame = true) :
    (frame.foldl State.takeFc s).fc.ctl.st = .idle ∧
      (frame.foldl State.takeFc s).fc.ctl.done = true := by
  induction frame generalizing s with
  | nil => simp [isFrame] at hf
  | cons b frame ih =>
    obtain ⟨rfl, hl⟩ | ⟨-, hf⟩ := (isFrame_cons_iff _ _ _).1 hf
    · exact ⟨State.takeFc_st_of_last hl, by rw [List.foldl_cons, List.foldl_nil,
        State.takeFc_done, if_pos hl]⟩
    · exact ih hf

theorem State.takeFc_sameCounts {b : SymBeat} (h : s.fc.ctl.st ≠ .run ∨ b.keep = false) :
    s.SameCounts (s.takeFc b) := by
  obtain ⟨hhist, hfc⟩ := State.takeFc_of_pass h
  exact ⟨rfl, hhist, by rw [hfc], by rw [hfc], by rw [hfc]; exact UnitCtl.afterBeat_err ..⟩

/-- Outside RUN nothing is counted (41_frequency_counter.md R145). -/
theorem State.takeFcs_sameCounts (h : s.fc.ctl.st ≠ .run) (bs : List SymBeat) :
    s.SameCounts (bs.foldl State.takeFc s) := by
  induction bs generalizing s with
  | nil => exact .refl s
  | cons b bs ih =>
    refine (State.takeFc_sameCounts (.inl h)).trans (ih ?_)
    rw [(State.takeFc_of_pass (.inl h)).2]
    cases hl : b.last <;> simp [h]

section
variable {b : SymBeat} (hc : s.counts b = true) (hw : s.params.cntW ≤ 32)
  (hh : fitsWidth s.params.cntW (s.readHist b.sym))
include hc hw hh

/-- A count that is taken is below the limit, so it does not wrap around. -/
theorem State.toNat_readHist_succ :
    (s.readHist b.sym + 1).toNat = (s.readHist b.sym).toNat + 1 ∧
      (s.readHist b.sym).toNat + 1 < 2 ^ s.params.cntW := by
  obtain ⟨-, -, hl⟩ := s.counts_iff.1 hc
  have hpow : 2 ^ s.params.cntW ≤ 2 ^ 32 := Nat.pow_le_pow_right (by omega) hw
  unfold State.countLimit at hl
  unfold fitsWidth at hh
  have hlt : (s.readHist b.sym).toNat + 1 < 2 ^ s.params.cntW := by omega
  exact ⟨by rw [BitVec.toNat_add]; exact Nat.mod_eq_of_lt (by simp; omega), hlt⟩

theorem State.takeFc_addsCounts (hb : fitsWidth s.params.symW b.sym) :
    s.AddsCounts (s.takeFc b) [b.sym] where
  hist x hx := by
    have hi : s.symIndex b.sym = s.symIndex x ↔ b.sym = x := by
      rw [State.symIndex, State.symIndex, trunc_of_fits hb, trunc_of_fits hx, BitVec.toNat_inj]
    rw [State.readHist_takeFc_of_counts hc, List.count_singleton]
    by_cases hbx : b.sym = x
    · rw [if_pos (hi.2 hbx), if_pos (beq_iff_eq.2 hbx), (State.toNat_readHist_succ hc hw hh).1, hbx]
    · rw [if_neg (mt hi.1 hbx), if_neg (mt beq_iff_eq.1 hbx), Nat.add_zero]
  total := by rw [State.takeFc_fc_of_counts hc]; rfl

end

/-- A counting operation over a frame counts the payload of the frame. -/
theorem State.counted_frame (hr : s.fc.ctl.st = .run) (hw : s.params.cntW ≤ 32)
    (hh : ∀ a, fitsWidth s.params.cntW (s.readHist a)) {frame : List SymBeat}
    (hf : isFrame SymBeat.last frame = true)
    (hx : ∀ x ∈ symPayload frame, fitsWidth s.params.symW x) :
    s.Counted (frame.foldl State.takeFc s) (symPayload frame) := by
  induction frame generalizing s with
  | nil => simp [isFrame] at hf
  | cons b frame ih =>
    have hrest (hst : (s.takeFc b).fc.ctl.st = if b.last then .idle else .run)
        (hh' : ∀ a, fitsWidth s.params.cntW ((s.takeFc b).readHist a))
        (hx' : ∀ x ∈ symPayload frame, fitsWidth s.params.symW x) :
        (s.takeFc b).Counted (frame.foldl State.takeFc (s.takeFc b)) (symPayload frame) := by
      obtain ⟨rfl, -⟩ | ⟨hl, hf⟩ := (isFrame_cons_iff _ _ _).1 hf
      · exact .nil _
      · exact ih (by rw [hst, hl]; rfl) hw hh' hf hx'
    cases hk : b.keep
    case false =>
      rw [symPayload_cons_of_not_keep hk] at hx ⊢
      have hsame : s.SameCounts (s.takeFc b) := State.takeFc_sameCounts (.inr hk)
      refine .of_sameCounts hsame (hrest ?_ (hsame.readHist ▸ hh) hx)
      simp [(State.takeFc_of_pass (.inr hk)).2, hr]
    case true =>
      rw [symPayload_cons_of_keep hk] at hx ⊢
      obtain ⟨hb, hx⟩ := List.forall_mem_cons.1 hx
      by_cases hl : (s.readHist b.sym).toNat = s.countLimit
      · obtain ⟨hhist, hfc⟩ := State.takeFc_of_overflow hr hk hl
        have hnot : (s.takeFc b).fc.ctl.st ≠ .run := by rw [hfc]; cases b.last <;> nofun
        have hsame := State.takeFcs_sameCounts hnot frame
        refine .overflow hl (hsame.err.trans ?_) (hsame.errSym.trans ?_) (.nil ?_ ?_)
        · simp [hfc]
        · rw [hfc, trunc_of_fits hb]
        · exact hsame.readHist.trans (State.readHist_congr rfl hhist)
        · rw [List.foldl_cons, hsame.total, hfc]
      · have hc : s.counts b = true := s.counts_iff.2 ⟨hr, hk, hl⟩
        have hfc := State.takeFc_fc_of_counts hc
        refine .cons (u := s.takeFc b) hl hx rfl (by simp [hfc]) (State.takeFc_addsCounts hc hw (hh _) hb)
          (hrest (by simp [hfc, hr]) (fun a => ?_) hx)
        rw [State.readHist_takeFc_of_counts hc]
        split
        · obtain ⟨hval, hlt⟩ := State.toNat_readHist_succ hc hw (hh _)
          exact lt_of_eq_of_lt hval hlt
        · exact hh a

end

/-- Settles O51: FC_START puts the counter in RUN over the same HIST, the eager edges feed it the frame, and
the frame counts its payload. -/
theorem countOperationContract : Obligations.CountOperationContract := by
  rintro b c frame rest k _ _ hp hi hf hq hx hlegal hstored rfl rfl hk rfl
  obtain ⟨-, -, -, -, hw⟩ := (Params.legal_iff _).1 hlegal
  obtain ⟨hq1, hs1⟩ := Bench.edge_fcStart hp hi
  have hready : (b.edge (.write Reg.cmd.index (encode .fcStart))).st.fcInReady = true :=
    (State.fcInReady_congr hs1.params hs1.fc).trans ((State.fcInReady_iff _).2 ⟨nofun, hp⟩)
  obtain ⟨hq2, hs2⟩ := Bench.settle_frame hready hf (hq1.trans hq) hk
  have hs := (hs1.takeFcs frame).trans hs2
  obtain ⟨hidle, hdone⟩ := State.takeFcs_frame_ends hf
  obtain ⟨hwhole, hupTo⟩ :=
    State.counted_frame (s := b.st.setFc { b.st.fc with ctl := .start, errSym := 0 }) rfl hw
      hstored.fits_readHist hf hx
  rw [hs.readHist, hs.fc]
  refine ⟨hq2, hidle, hdone, fun hn => ?_, fun j x ho hfirst hx => ?_⟩
  · obtain ⟨herr, hhist, htotal⟩ := hwhole hn
    exact ⟨herr, hhist, htotal⟩
  · obtain ⟨herr, hsym, hhist, htotal⟩ := hupTo j x ho hfirst hx
    have hlen : ((symPayload frame).take j).length = j :=
      List.length_take_of_le (List.getElem?_eq_some_iff.1 hx).1.le
    exact ⟨herr, hsym, hhist, hlen ▸ htotal⟩

end Sys2Proof.Machine
end

section
/-! PROOFS. Paths in a tree image, and the walk of the decoder along them (42_host_tree_and_table.md R160
to R163). -/

namespace Sys2Proof.Machine

/-! ## Paths -/

section
variable {rom : Handle → RomWord} {h g : Handle}

theorem pathFrom_cons_of_node (hn : (rom h).leaf = false) (b : Bool) (p : List Bool) :
    pathFrom rom h (b :: p) = pathFrom rom (nextNode rom h b) p := by
  simp [pathFrom, hn, nextNode, RomWord.child]

/-- No path goes on below a Leaf. -/
theorem pathFrom_of_leaf (hl : (rom h).leaf = true) (p : List Bool) :
    pathFrom rom h p = some g ↔ p = [] ∧ h = g := by
  cases p <;> simp [pathFrom, hl]

theorem pathFrom_append (rom : Handle → RomWord) (h : Handle) (p q : List Bool) :
    pathFrom rom h (p ++ q) = (pathFrom rom h p).bind fun g => pathFrom rom g q := by
  induction p generalizing h with
  | nil => rfl
  | cons b p ih =>
    simp only [List.cons_append, pathFrom]
    split
    · rfl
    · exact ih _

theorem leafPath_append {p : List Bool} (hp : pathFrom rom h p = some g) (q : List Bool) (x : Sym) :
    leafPath rom h (p ++ q) x ↔ leafPath rom g q x := by
  simp [leafPath, pathFrom_append, hp]

theorem leafPath_of_leaf (hl : (rom h).leaf = true) (p : List Bool) (x : Sym) :
    leafPath rom h p x ↔ p = [] ∧ (rom h).sym = x := by
  simp [leafPath, pathFrom_of_leaf hl, and_assoc, hl]

/-- A path to a Leaf below an Internal node begins with the bit of a child. -/
theorem leafPath_of_node (hn : (rom h).leaf = false) (p : List Bool) (x : Sym) :
    leafPath rom h p x ↔ ∃ b q, p = b :: q ∧ leafPath rom (nextNode rom h b) q x := by
  cases p with
  | nil => simp [leafPath, pathFrom, hn]
  | cons b p => simp [leafPath, pathFrom_cons_of_node hn]

/-- Of the paths from one node to Leaf words none goes on beyond another. -/
theorem leafPath_eq_of_prefix {p q : List Bool} {x y : Sym} (hp : leafPath rom h p x)
    (hq : leafPath rom h q y) (hpq : p <+: q) : x = y := by
  obtain ⟨g, hpg, hl, rfl⟩ := hp
  obtain ⟨s, rfl⟩ := hpq
  rw [leafPath_append hpg, leafPath_of_leaf hl] at hq
  exact hq.2

end

/-- Settles O56: the codes of a matched pair are paths from its root to Leaf words. -/
theorem matchedPairHasPrefixFreeLut : Obligations.MatchedPairHasPrefixFreeLut :=
  fun _ _ _ _ hm x y hx hy hne hcx hcy hpre =>
    hne (leafPath_eq_of_prefix (hm.path x hx hcx) (hm.path y hy hcy) hpre)

/-! ## The walk along a path -/

/-- From an Internal node, the bits of a path to a Leaf give its symbol and lead back to the root, whatever
came before. -/
theorem foldl_walk_leafPath {rom : Handle → RomWord} {p : List Bool} {x : Sym} (root : Handle) {w : Walk}
    (hn : (rom w.cur).leaf = false) (hp : leafPath rom w.cur p x) :
    p.foldl (Walk.next rom root) w = { cur := root, mid := false, out := w.out ++ [x] } := by
  induction p generalizing w with
  | nil => simp [leafPath_of_node hn] at hp
  | cons b p ih =>
    obtain ⟨_, _, hbp, hp⟩ := (leafPath_of_node hn _ _).1 hp
    cases hbp
    have hnext : Walk.next rom root w b =
        if (rom (nextNode rom w.cur b)).leaf then
          { cur := root, mid := false, out := w.out ++ [(rom (nextNode rom w.cur b)).sym] }
        else { cur := nextNode rom w.cur b, mid := true, out := w.out } := rfl
    rw [List.foldl_cons, hnext]
    split
    · next hl =>
      obtain ⟨rfl, rfl⟩ := (leafPath_of_leaf hl _ _).1 hp
      rfl
    · next hl => exact ih (by simpa using hl) hp

/-- `encode` of symbols that all have codes is their codes, one after another. -/
theorem encodeSeq_of_hasCode {lut : Sym → LutWord} {xs : List Sym} (h : ∀ x ∈ xs, hasCode lut x = true) :
    encodeSeq lut xs = .ok (codesOf lut xs) := by
  induction xs with
  | nil => rfl
  | cons x xs ih =>
    obtain ⟨hx, hxs⟩ := List.forall_mem_cons.1 h
    simp [encodeSeq, hx, ih hxs, codesOf]

/-- The walk over the codes of a sequence gives the sequence and ends at the root. -/
theorem Matched.foldl_walk_codesOf {isSym : Sym → Prop} {lut : Sym → LutWord} {rom : Handle → RomWord}
    {root : Handle} (hm : Matched isSym lut rom root) (out : List Sym) {xs : List Sym}
    (h : ∀ x ∈ xs, isSym x ∧ hasCode lut x = true) :
    (codesOf lut xs).foldl (Walk.next rom root) { cur := root, mid := false, out := out } =
      { cur := root, mid := false, out := out ++ xs } := by
  induction xs generalizing out with
  | nil => simp [codesOf]
  | cons x xs ih =>
    obtain ⟨⟨hx, hc⟩, hxs⟩ := List.forall_mem_cons.1 h
    have hcons : codesOf lut (x :: xs) = LutWord.bits (lut x) ++ codesOf lut xs := rfl
    have hfirst := foldl_walk_leafPath (w := { cur := root, mid := false, out := out }) root
      hm.tree.rootInternal (hm.path x hx hc)
    rw [hcons, List.foldl_append, hfirst, ih _ hxs, List.append_assoc, List.singleton_append]

/-- Settles O55: each code leads from the root to the Leaf of its symbol and back. -/
theorem roundTripOverAMatchedPair : Obligations.RoundTripOverAMatchedPair := by
  intro isSym lut rom root x hm hx
  have hwalk : walkBits rom root (codesOf lut x) = { cur := root, mid := false, out := x } :=
    hm.foldl_walk_codesOf [] hx
  exact ⟨_, encodeSeq_of_hasCode fun s hs => (hx s hs).2, by
    simp [decodeSeq, hm.tree.rootInternal, hwalk]⟩

end Sys2Proof.Machine
end

section
/-! PROOFS. TreeBuilder: what the working list holds, and the loop that merges it
(42_host_tree_and_table.md R151 to R155, R157). -/

namespace Sys2Proof.Machine

/-! ## The working list (R152, R153) -/

theorem putWork_perm (x : Work) (ws : List Work) : (putWork x ws).Perm (x :: ws) := by
  induction ws with
  | nil => rfl
  | cons y ys ih =>
    simp only [putWork]
    split
    · exact (ih.cons y).trans (.swap x y ys)
    · rfl

@[simp] theorem length_putWork (x : Work) (ws : List Work) :
    (putWork x ws).length = ws.length + 1 :=
  (putWork_perm x ws).length_eq

@[simp] theorem mem_putWork {w x : Work} {ws : List Work} : w ∈ putWork x ws ↔ w = x ∨ w ∈ ws := by
  simp [(putWork_perm x ws).mem_iff]

theorem sortLeaves_perm (f : FreqMap) :
    (sortLeaves f).Perm (f.map fun e => { tree := .leaf e.1 e.2, handle := 0 }) := by
  induction f with
  | nil => rfl
  | cons e f ih => exact (putWork_perm _ _).trans (ih.cons _)

theorem numberFrom_trees (n : Nat) (ws : List Work) :
    (numberFrom n ws).map Work.tree = ws.map Work.tree := by
  induction ws generalizing n with
  | nil => rfl
  | cons w ws ih => simp [numberFrom, ih]

theorem numberFrom_handles (ws : List Work) :
    (numberFrom ws.length ws).map Work.handle = (List.range ws.length).reverse := by
  induction ws with
  | nil => rfl
  | cons w ws ih => simp [numberFrom, ih, List.range_succ]

/-- The working list at the start of the loop: the sorted leaves with their handles. -/
def startList (f : FreqMap) : List Work := numberFrom f.length (sortLeaves f)

theorem startList_trees_perm (f : FreqMap) :
    ((startList f).map Work.tree).Perm (f.map fun e => .leaf e.1 e.2) := by
  rw [startList, numberFrom_trees]
  simpa [Function.comp_def] using (sortLeaves_perm f).map Work.tree

@[simp] theorem length_startList (f : FreqMap) : (startList f).length = f.length := by
  simpa using (startList_trees_perm f).length_eq

theorem startList_handles (f : FreqMap) :
    (startList f).map Work.handle = (List.range f.length).reverse := by
  have hlen : (sortLeaves f).length = f.length := by simpa using (sortLeaves_perm f).length_eq
  simpa [startList, hlen] using numberFrom_handles (sortLeaves f)

theorem tree_of_mem_startList {f : FreqMap} {w : Work} (h : w ∈ startList f) :
    ∃ e ∈ f, w.tree = .leaf e.1 e.2 := by
  have hmem := (startList_trees_perm f).mem_iff.1 (List.mem_map_of_mem h)
  obtain ⟨e, he, heq⟩ := List.mem_map.1 hmem
  exact ⟨e, he, heq.symm⟩

/-! ## The loop -/

/-- The node that a turn of the loop makes of the nodes it removes (R153, R154). -/
def mergeWork (next : Nat) (r l : Work) : Work := { tree := .join l.tree r.tree, handle := next }

theorem mergeAll_cons_cons (fuel next : Nat) (img : RomImage) (r l : Work) (rest : List Work) :
    mergeAll (fuel + 1) next img (r :: l :: rest) =
      mergeAll fuel (next + 1) (img ++ [(next, nodeWord l.handle r.handle)])
        (putWork (mergeWork next r l) rest) := rfl

/-- Each turn shortens the working list by one, so fuel for its length is enough. -/
theorem mergeAll_isSome {fuel : Nat} (next : Nat) (img : RomImage) {ws : List Work} (hne : ws ≠ [])
    (hlen : ws.length ≤ fuel) : ∃ r, mergeAll fuel next img ws = some r := by
  induction fuel generalizing next img ws with
  | zero => exact absurd (List.length_eq_zero_iff.1 (Nat.le_zero.1 hlen)) hne
  | succ fuel ih =>
    match ws with
    | [x] => exact ⟨(x, img), rfl⟩
    | r :: l :: rest =>
      rw [mergeAll_cons_cons]
      refine ih _ _ (List.ne_nil_of_length_pos ?_) ?_ <;> simp at hlen ⊢
      omega

/-- What holds before the loop and is kept by each of its turns holds of what it answers. -/
theorem mergeAll_keeps {P : Nat → RomImage → List Work → Prop}
    (turn : ∀ next img r l rest, P next img (r :: l :: rest) →
      P (next + 1) (img ++ [(next, nodeWord l.handle r.handle)]) (putWork (mergeWork next r l) rest))
    {fuel next : Nat} {img : RomImage} {ws : List Work} (h : P next img ws) {x : Work} {img' : RomImage}
    (heq : mergeAll fuel next img ws = some (x, img')) : ∃ n, P n img' [x] := by
  induction fuel generalizing next img ws with
  | zero =>
    match ws with
    | [_] => cases heq; exact ⟨next, h⟩
  | succ fuel ih =>
    match ws with
    | [_] => cases heq; exact ⟨next, h⟩
    | r :: l :: rest => exact ih (turn _ _ _ _ _ h) heq

/-! ## `build` -/

theorem build_of_two_le {f : FreqMap} (h : 2 ≤ f.length) : ∃ x img,
    mergeAll f.length f.length (leafImage (startList f)) (startList f) = some (x, img) ∧
    build f = .ok { tree := x.tree, rom := img, root := x.handle } := by
  obtain ⟨⟨x, img⟩, hm⟩ := mergeAll_isSome f.length (leafImage (startList f))
    (List.ne_nil_of_length_pos (by simp; omega)) (length_startList f).le
  refine ⟨x, img, hm, ?_⟩
  match f with
  | _ :: _ :: _ =>
    unfold startList at hm
    simp only [build, hm]

theorem two_le_of_build {f : FreqMap} {b : Built} (h : build f = .ok b) : 2 ≤ f.length := by
  match f with
  | _ :: _ :: _ => simp

/-- What the loop keeps, from the sorted leaves to the tree built, its image and its root. -/
theorem build_keeps {P : Nat → RomImage → List Work → Prop} {f : FreqMap} {b : Built}
    (h : build f = .ok b) (start : P f.length (leafImage (startList f)) (startList f))
    (turn : ∀ next img r l rest, P next img (r :: l :: rest) →
      P (next + 1) (img ++ [(next, nodeWord l.handle r.handle)]) (putWork (mergeWork next r l) rest)) :
    ∃ n, P n b.rom [{ tree := b.tree, handle := b.root }] := by
  obtain ⟨x, img, hm, hb⟩ := build_of_two_le (two_le_of_build h)
  cases hb.symm.trans h
  exact mergeAll_keeps turn start hm

theorem buildTree_ok_iff {f : FreqMap} {t : Tree} :
    buildTree f = .ok t ↔ ∃ b, build f = .ok b ∧ b.tree = t := by
  unfold buildTree
  cases build f <;> simp

/-- Settles O57: fuel for the number of keys is enough for the loop. -/
theorem buildTreeFailsOnlyOnFewKeys : Obligations.BuildTreeFailsOnlyOnFewKeys := by
  refine ⟨rfl, fun _ => rfl, fun f hf => ?_⟩
  obtain ⟨x, img, -, hb⟩ := build_of_two_le hf
  exact ⟨x.tree, buildTree_ok_iff.2 ⟨_, hb, rfl⟩⟩

/-! ## Weights and leaves (R155) -/

theorem Tree.weighed.weight_eq_sum {t : Tree} (h : t.weighed) :
    t.weight = (t.leaves.map Prod.snd).sum := by
  induction t with
  | leaf x w => simp [Tree.weight, Tree.leaves]
  | node l r w ihl ihr =>
    obtain ⟨rfl, hl, hr⟩ := h
    rw [Tree.leaves, List.map_append, List.sum_append, ← ihl hl, ← ihr hr]
    rfl

theorem Tree.weighed.join {l r : Tree} (hl : l.weighed) (hr : r.weighed) : (Tree.join l r).weighed :=
  ⟨rfl, hl, hr⟩

/-- The leaves of all trees of a working list. -/
def workLeaves (ws : List Work) : List (Sym × Nat) := ws.flatMap fun w => w.tree.leaves

theorem workLeaves_startList_perm (f : FreqMap) : (workLeaves (startList f)).Perm f := by
  have h : (((startList f).map Work.tree).flatMap Tree.leaves).Perm
      ((f.map fun e => Tree.leaf e.1 e.2).flatMap Tree.leaves) :=
    (startList_trees_perm f).flatMap_right Tree.leaves
  simpa [workLeaves, List.flatMap_map, Tree.leaves] using h

/-- A turn of the loop moves leaves and loses none. -/
theorem workLeaves_turn_perm (next : Nat) (r l : Work) (rest : List Work) :
    (workLeaves (putWork (mergeWork next r l) rest)).Perm (workLeaves (r :: l :: rest)) := by
  calc (workLeaves (putWork (mergeWork next r l) rest)).Perm (workLeaves (mergeWork next r l :: rest)) :=
        (putWork_perm _ _).flatMap_right _
    _ = (l.tree.leaves ++ r.tree.leaves) ++ workLeaves rest := rfl
    List.Perm _ ((r.tree.leaves ++ l.tree.leaves) ++ workLeaves rest) :=
        List.perm_append_comm.append_right _
    _ = workLeaves (r :: l :: rest) := by simp [workLeaves]

/-- What the loop keeps of weights and leaves. -/
def weighsAndHolds (f : FreqMap) (ws : List Work) : Prop :=
  (∀ w ∈ ws, w.tree.weighed) ∧ (workLeaves ws).Perm f

theorem weighsAndHolds_startList (f : FreqMap) : weighsAndHolds f (startList f) := by
  refine ⟨fun w hw => ?_, workLeaves_startList_perm f⟩
  obtain ⟨e, -, he⟩ := tree_of_mem_startList hw
  rw [he]
  trivial

theorem weighsAndHolds.turn {f : FreqMap} {r l : Work} {rest : List Work}
    (h : weighsAndHolds f (r :: l :: rest)) (next : Nat) :
    weighsAndHolds f (putWork (mergeWork next r l) rest) := by
  obtain ⟨hw, hp⟩ := h
  simp only [List.forall_mem_cons] at hw
  obtain ⟨hr, hl, hrest⟩ := hw
  refine ⟨fun w hw => ?_, (workLeaves_turn_perm _ _ _ _).trans hp⟩
  obtain rfl | hw := mem_putWork.1 hw
  · exact hl.join hr
  · exact hrest w hw

theorem weighsAndHolds_of_build {f : FreqMap} {b : Built} (h : build f = .ok b) :
    b.tree.weighed ∧ b.tree.leaves.Perm f := by
  obtain ⟨-, hw, hp⟩ := build_keeps (P := fun _ _ ws => weighsAndHolds f ws) h (weighsAndHolds_startList f)
    fun next _ _ _ _ h => h.turn next
  exact ⟨hw _ (List.mem_singleton_self _), by simpa [workLeaves] using hp⟩

/-- Settles O58: the loop keeps weights and leaves, and a tree whose weights add up weighs its leaves. -/
theorem builtTreeInvariants : Obligations.BuiltTreeInvariants := by
  intro f t h
  obtain ⟨b, hb, rfl⟩ := buildTree_ok_iff.1 h
  obtain ⟨hw, hp⟩ := weighsAndHolds_of_build hb
  exact ⟨hw, hw.weight_eq_sum.trans (hp.map _).sum_eq, hp⟩

end Sys2Proof.Machine
end

section
/-! PROOFS. The code table of a tree (42_host_tree_and_table.md R156). -/

namespace Sys2Proof.Machine

theorem codes_keys (t : Tree) (p : List Bool) : (codes t p).map Prod.fst = t.leaves.map Prod.fst := by
  induction t generalizing p with
  | leaf x w => rfl
  | node l r w ihl ihr => simp [codes, Tree.leaves, ihl, ihr]

theorem buildCodeTable_keys (t : Tree) : (buildCodeTable t).map Prod.fst = t.leaves.map Prod.fst :=
  codes_keys t []

theorem prefix_of_mem_codes {t : Tree} {p : List Bool} {row : Sym × List Bool} (h : row ∈ codes t p) :
    p <+: row.2 := by
  induction t generalizing p with
  | leaf x w => rw [List.mem_singleton.1 h]
  | node l r w ihl ihr =>
    rcases List.mem_append.1 h with h | h
    · exact (List.prefix_append p _).trans (ihl h)
    · exact (List.prefix_append p _).trans (ihr h)

/-- Codes of the two subtrees of a node differ in the bit of that node. -/
theorem not_prefix_of_mem_codes_append {t u : Tree} {p : List Bool} {bit : Bool} {row row' : Sym × List Bool}
    (h : row ∈ codes t (p ++ [bit])) (h' : row' ∈ codes u (p ++ [!bit])) : ¬ row.2 <+: row'.2 := by
  obtain ⟨a, ha⟩ := prefix_of_mem_codes h
  obtain ⟨a', ha'⟩ := prefix_of_mem_codes h'
  rw [← ha, ← ha', List.append_assoc, List.append_assoc, List.prefix_append_right_inj]
  simp

theorem codes_prefixFree {t : Tree} {p : List Bool} {row row' : Sym × List Bool} (h : row ∈ codes t p)
    (h' : row' ∈ codes t p) (hne : row.1 ≠ row'.1) : ¬ row.2 <+: row'.2 := by
  induction t generalizing p with
  | leaf x w => exact absurd (by rw [List.mem_singleton.1 h, List.mem_singleton.1 h']) hne
  | node l r w ihl ihr =>
    rcases List.mem_append.1 h with h | h <;> rcases List.mem_append.1 h' with h' | h'
    · exact ihl h h'
    · exact not_prefix_of_mem_codes_append h h'
    · exact not_prefix_of_mem_codes_append h h'
    · exact ihr h h'

theorem Tree.eq_node_of_two_le {t : Tree} (h : 2 ≤ t.leaves.length) : ∃ l r w, t = .node l r w := by
  cases t with
  | leaf x w => simp [Tree.leaves] at h
  | node l r w => exact ⟨l, r, w, rfl⟩

/-- Below the root of a tree that is no Leaf every code has a bit. -/
theorem length_pos_of_mem_buildCodeTable {t : Tree} (ht : 2 ≤ t.leaves.length) {row : Sym × List Bool}
    (h : row ∈ buildCodeTable t) : 1 ≤ row.2.length := by
  obtain ⟨l, r, w, rfl⟩ := Tree.eq_node_of_two_le ht
  rcases List.mem_append.1 h with h | h
  · exact (prefix_of_mem_codes h).length_le
  · exact (prefix_of_mem_codes h).length_le

/-- Settles O59: the codes of two leaves part at the node where the paths to them do. -/
theorem codeTableIsPrefixFree : Obligations.CodeTableIsPrefixFree := fun t ht _ =>
  ⟨buildCodeTable_keys t, fun _ h => length_pos_of_mem_buildCodeTable ht h,
    fun _ h _ h' hne => codes_prefixFree h h' hne⟩

end Sys2Proof.Machine
end

section
/-! PROOFS. The images built from a map (42_host_tree_and_table.md R157, R158, R165) are a matched pair. -/

namespace Sys2Proof.Machine

/-! ## A tree in the tree ROM (R160) -/

/-- The words reached from `h` are those of the tree `t`. -/
def Tree.storedAt (rom : Handle → RomWord) : Tree → Handle → Prop
  | .leaf x _, h => (rom h).leaf = true ∧ (rom h).sym = x
  | .node l r _, h => (rom h).leaf = false ∧ l.storedAt rom (rom h).left ∧ r.storedAt rom (rom h).right

section
variable {rom : Handle → RomWord} {t : Tree} {h : Handle}

theorem Tree.storedAt_leaf {x : Sym} (w : Nat) (hw : rom h = leafWord x) :
    (Tree.leaf x w).storedAt rom h := by
  simp [Tree.storedAt, hw, leafWord]

theorem Tree.storedAt_join {l r : Tree} {a b : Nat} (hw : rom h = nodeWord a b)
    (hl : l.storedAt rom (BitVec.ofNat 32 a)) (hr : r.storedAt rom (BitVec.ofNat 32 b)) :
    (Tree.join l r).storedAt rom h := by
  simp [Tree.storedAt, Tree.join, hw, nodeWord, hl, hr]

/-- The rows that `codes` makes of a stored tree are its paths to Leaf words, after the bits walked. -/
theorem Tree.storedAt.mem_codes_iff (hs : t.storedAt rom h) (p q : List Bool) (x : Sym) :
    (x, q) ∈ codes t p ↔ ∃ s, q = p ++ s ∧ leafPath rom h s x := by
  induction t generalizing h p with
  | leaf y w =>
    obtain ⟨hl, rfl⟩ := hs
    simp [codes, leafPath_of_leaf hl, and_comm, eq_comm]
  | node l r w ihl ihr =>
    obtain ⟨hn, hl, hr⟩ := hs
    rw [codes, List.mem_append, ihl hl, ihr hr]
    simp only [leafPath_of_node hn]
    constructor
    · rintro (⟨s, rfl, hp⟩ | ⟨s, rfl, hp⟩)
      · exact ⟨false :: s, List.append_assoc .., false, s, rfl, hp⟩
      · exact ⟨true :: s, List.append_assoc .., true, s, rfl, hp⟩
    · rintro ⟨_, rfl, b, s, rfl, hp⟩
      cases b
      · exact .inl ⟨s, List.append_cons .., hp⟩
      · exact .inr ⟨s, List.append_cons .., hp⟩

theorem Tree.storedAt.mem_buildCodeTable_iff (hs : t.storedAt rom h) (q : List Bool) (x : Sym) :
    (x, q) ∈ buildCodeTable t ↔ leafPath rom h q x := by
  simp [buildCodeTable, hs.mem_codes_iff]

theorem Tree.storedAt.exists_leafPath (hs : t.storedAt rom h) : ∃ q x, leafPath rom h q x := by
  induction t generalizing h with
  | leaf x w => exact ⟨[], x, (leafPath_of_leaf hs.1 _ _).2 ⟨rfl, hs.2⟩⟩
  | node l r w ihl _ =>
    obtain ⟨hn, hl, -⟩ := hs
    obtain ⟨q, x, hq⟩ := ihl hl
    exact ⟨false :: q, x, (leafPath_of_node hn _ _).2 ⟨false, q, rfl, hq⟩⟩

/-- Every word reached is the root of a stored tree. -/
theorem Tree.storedAt.of_pathFrom (hs : t.storedAt rom h) {p : List Bool} {g : Handle}
    (hp : pathFrom rom h p = some g) : ∃ u : Tree, u.storedAt rom g := by
  induction p generalizing t h with
  | nil => cases hp; exact ⟨t, hs⟩
  | cons b p ih =>
    cases t with
    | leaf x w => exact absurd ((pathFrom_of_leaf hs.1 _).1 hp).1 (List.cons_ne_nil _ _)
    | node l r w =>
      obtain ⟨hn, hl, hr⟩ := hs
      rw [pathFrom_cons_of_node hn] at hp
      cases b
      · exact ih hl hp
      · exact ih hr hp

theorem Tree.storedAt.pathFrom_extends (hs : t.storedAt rom h) {p : List Bool} {g : Handle}
    (hp : pathFrom rom h p = some g) : ∃ q x, leafPath rom g q x := by
  obtain ⟨u, hu⟩ := hs.of_pathFrom hp
  exact hu.exists_leafPath

end

/-- A table whose keys differ has one row for a symbol. -/
theorem row_unique {t : CodeTable} (hk : (t.map Prod.fst).Nodup) {x : Sym} {p q : List Bool}
    (hp : (x, p) ∈ t) (hq : (x, q) ∈ t) : p = q :=
  congrArg Prod.snd (List.inj_on_of_nodup_map hk hp hq rfl)

/-- A stored tree with two leaves or more and distinct symbols is a well-formed image: two paths to one
word would go on to two codes of one symbol. -/
theorem Tree.storedAt.treeImageWf {rom : Handle → RomWord} {t : Tree} {root : Handle}
    (hs : t.storedAt rom root) (ht : 2 ≤ t.leaves.length) (hd : (t.leaves.map Prod.fst).Nodup) :
    TreeImageWf rom root := by
  rw [← buildCodeTable_keys] at hd
  have hpath : ∀ p q x, leafPath rom root p x → leafPath rom root q x → p = q := fun p q x hp hq =>
    row_unique hd ((hs.mem_buildCodeTable_iff p x).2 hp) ((hs.mem_buildCodeTable_iff q x).2 hq)
  constructor
  case rootInternal =>
    obtain ⟨l, r, w, rfl⟩ := Tree.eq_node_of_two_le ht
    exact hs.1
  case unshared =>
    intro p q g hp hq
    obtain ⟨s, x, hx⟩ := hs.pathFrom_extends hp
    exact List.append_cancel_right
      (hpath _ _ x ((leafPath_append hp s x).2 hx) ((leafPath_append hq s x).2 hx))
  case finite =>
    refine ⟨((buildCodeTable t).map fun row => row.2.length).sum, fun p g hp => ?_⟩
    obtain ⟨s, x, hx⟩ := hs.pathFrom_extends hp
    have hrow := (hs.mem_buildCodeTable_iff _ x).2 ((leafPath_append hp s x).2 hx)
    calc p.length ≤ (p ++ s).length := by simp
      _ ≤ _ := List.le_sum_of_mem (List.mem_map_of_mem (f := fun row => row.2.length) hrow)
  case distinctSymbols =>
    intro p q g h hp hq hg hh hsym
    obtain rfl := hpath p q (rom g).sym ⟨g, hp, hg, rfl⟩ ⟨h, hq, hh, hsym.symm⟩
    exact Option.some.inj (hp.symm.trans hq)

/-! ## The ROM image (R157) -/

/-- `rom` holds the words of an image at their handles. -/
def RomImage.loadedIn (img : RomImage) (rom : Handle → RomWord) : Prop :=
  ∀ e ∈ img, rom (BitVec.ofNat 32 e.1) = e.2

theorem lookup_of_mem {K V : Type} [DecidableEq K] {l : List (K × V)} (hk : (l.map Prod.fst).Nodup)
    {e : K × V} (he : e ∈ l) : l.lookup e.1 = some e.2 := by
  rw [List.lookup_eq_some_iff]
  obtain ⟨l₁, l₂, rfl⟩ := List.append_of_mem he
  rw [List.map_append, List.nodup_append] at hk
  obtain ⟨-, -, hne⟩ := hk
  exact ⟨l₁, l₂, rfl, fun e' he' =>
    bne_iff_ne.2 (hne _ (List.mem_map_of_mem he') _ List.mem_cons_self).symm⟩

theorem RomImage.loadedIn_romImage (others : Handle → RomWord) {img : RomImage} {n : Nat}
    (hk : img.map Prod.fst = List.range n) (hn : n ≤ 2 ^ 32) : img.loadedIn (romImage others img) := by
  intro e he
  have hlt : e.1 < n := List.mem_range.1 (hk ▸ List.mem_map_of_mem he)
  have hlookup := lookup_of_mem (hk ▸ List.nodup_range) he
  rw [romImage, BitVec.toNat_ofNat, Nat.mod_eq_of_lt (hlt.trans_le hn), hlookup]

theorem leafImage_startList_keys (f : FreqMap) :
    (leafImage (startList f)).map Prod.fst = List.range f.length := by
  have h : (leafImage (startList f)).map Prod.fst = ((startList f).map Work.handle).reverse := by
    simp [leafImage]
  rw [h, startList_handles, List.reverse_reverse]

/-- What the loop keeps of the image: its handles count up from 0, and a memory that holds it holds every
tree of the working list at the tree's handle. -/
def imageHolds (rom : Handle → RomWord) (next : Nat) (img : RomImage) (ws : List Work) : Prop :=
  img.map Prod.fst = List.range next ∧
    (img.loadedIn rom → ∀ w ∈ ws, w.tree.storedAt rom (BitVec.ofNat 32 w.handle))

theorem imageHolds_startList (rom : Handle → RomWord) (f : FreqMap) :
    imageHolds rom f.length (leafImage (startList f)) (startList f) := by
  refine ⟨leafImage_startList_keys f, fun hload w hw => ?_⟩
  obtain ⟨e, -, he⟩ := tree_of_mem_startList hw
  have hmem : (w.handle, leafWord e.1) ∈ leafImage (startList f) :=
    List.mem_map.2 ⟨w, List.mem_reverse.2 hw, by rw [he]⟩
  rw [he]
  exact Tree.storedAt_leaf _ (hload _ hmem)

theorem imageHolds.turn {rom : Handle → RomWord} {next : Nat} {img : RomImage} {r l : Work}
    {rest : List Work} (h : imageHolds rom next img (r :: l :: rest)) :
    imageHolds rom (next + 1) (img ++ [(next, nodeWord l.handle r.handle)])
      (putWork (mergeWork next r l) rest) := by
  obtain ⟨hk, hstored⟩ := h
  refine ⟨by simp [hk, List.range_succ], fun hload w hw => ?_⟩
  obtain ⟨himg, hword⟩ := List.forall_mem_append.1 hload
  have hstored := hstored himg
  simp only [List.forall_mem_cons] at hstored
  obtain ⟨hr, hl, hrest⟩ := hstored
  obtain rfl | hw := mem_putWork.1 hw
  · exact Tree.storedAt_join (hword _ (List.mem_singleton_self _)) hl hr
  · exact hrest w hw

/-- The ROM image of the tree built holds that tree at ROOT, whatever stands in the words not written. -/
theorem storedAt_of_build {f : FreqMap} {b : Built} (h : build f = .ok b) (others : Handle → RomWord)
    (hlen : b.rom.length ≤ 2 ^ 32) :
    b.tree.storedAt (romImage others b.rom) (BitVec.ofNat 32 b.root) := by
  obtain ⟨n, hk, hstored⟩ := build_keeps h (imageHolds_startList (romImage others b.rom) f)
    fun _ _ _ _ _ h => h.turn
  have hn : b.rom.length = n := by simpa using congrArg List.length hk
  exact hstored (RomImage.loadedIn_romImage others hk (hn ▸ hlen)) _ (List.mem_singleton_self _)

/-! ## The LUT image (R158) -/

theorem foldl_bitsToNat (p : List Bool) (n : Nat) :
    p.foldl (fun n b => 2 * n + b.toNat) n = 2 ^ p.length * n + bitsToNat p := by
  induction p generalizing n with
  | nil => simp [bitsToNat]
  | cons b p ih =>
    have hb : bitsToNat (b :: p) = 2 ^ p.length * (2 * 0 + b.toNat) + bitsToNat p := ih _
    rw [List.foldl_cons, ih, hb, List.length_cons]
    ring

theorem bitsToNat_cons (b : Bool) (p : List Bool) :
    bitsToNat (b :: p) = 2 ^ p.length * b.toNat + bitsToNat p := by
  simpa using (foldl_bitsToNat (b :: p) 0).symm.trans (foldl_bitsToNat p (2 * 0 + b.toNat))

theorem bitsToNat_lt (p : List Bool) : bitsToNat p < 2 ^ p.length := by
  induction p with
  | nil => decide
  | cons b p ih =>
    rw [bitsToNat_cons, List.length_cons, Nat.pow_succ]
    cases b <;> simp <;> omega

/-- The low bits of a code value give back the code. -/
theorem codeBits_of_mod {val : CodeVal} {p : List Bool} (h : val.toNat % 2 ^ p.length = bitsToNat p) :
    codeBits val p.length = p := by
  induction p with
  | nil => rfl
  | cons b p ih =>
    rw [List.length_cons, Nat.mod_pow_succ, bitsToNat_cons] at h
    have hlt := bitsToNat_lt p
    have hmod := Nat.mod_lt val.toNat (Nat.two_pow_pos p.length)
    -- The remainder and the quotient of a division by `2 ^ p.length` are unique.
    have hboth : val.getLsbD p.length = b ∧ val.toNat % 2 ^ p.length = bitsToNat p := by
      rw [← Nat.toNat_testBit, BitVec.testBit_toNat] at h
      cases b <;> cases hb : val.getLsbD p.length <;> simp [hb] at h ⊢ <;> omega
    obtain ⟨htop, hlow⟩ := hboth
    rw [List.length_cons, codeBits, htop, ih hlow]

theorem lutWordOf_len {p : List Bool} (h : p.length ≤ 63) : (lutWordOf p).len.toNat = p.length := by
  rw [lutWordOf, BitVec.toNat_ofNat, Nat.mod_eq_of_lt (by omega)]

theorem lutWordOf_code {p : List Bool} (h : p.length ≤ 63) : (lutWordOf p).code.toNat = bitsToNat p := by
  have hlt : bitsToNat p < 2 ^ 63 := (bitsToNat_lt p).trans_le (Nat.pow_le_pow_right two_pos h)
  rw [lutWordOf, BitVec.toNat_ofNat, Nat.mod_eq_of_lt hlt]

theorem bits_lutWordOf {p : List Bool} (h : p.length ≤ 63) : LutWord.bits (lutWordOf p) = p := by
  rw [LutWord.bits, lutWordOf_len h]
  exact codeBits_of_mod (by rw [lutWordOf_code h, Nat.mod_eq_of_lt (bitsToNat_lt p)])

theorem lutImage_of_mem {t : CodeTable} (hk : (t.map Prod.fst).Nodup) {x : Sym} {p : List Bool}
    (h : (x, p) ∈ t) : lutImage t x = lutWordOf p := by
  rw [lutImage, lookup_of_mem hk h]

/-- The symbols with a LUT entry are those of the table, if every code fits LEN and none is empty. -/
theorem hasCode_lutImage_iff {t : CodeTable} (hk : (t.map Prod.fst).Nodup)
    (hlen : ∀ row ∈ t, 1 ≤ row.2.length ∧ row.2.length ≤ 63) (x : Sym) :
    hasCode (lutImage t) x = true ↔ ∃ p, (x, p) ∈ t := by
  constructor
  · intro h
    by_contra hno
    have hnone : t.lookup x = none := by
      rw [List.lookup_eq_none_iff]
      rintro ⟨y, p⟩ hy
      simpa using fun hxy : x = y => hno ⟨p, hxy ▸ hy⟩
    simp [hasCode, lutImage, hnone, LutWord.absent] at h
  · rintro ⟨p, hp⟩
    obtain ⟨hpos, hle⟩ := hlen _ hp
    rw [hasCode, lutImage_of_mem hk hp, decide_eq_true_eq]
    intro h0
    rw [← BitVec.toNat_inj, lutWordOf_len hle] at h0
    exact absurd h0 (Nat.pos_iff_ne_zero.1 hpos)

/-! ## Matched images (R162, R165) -/

/-- A stored tree and the LUT image of its code table are a matched pair, if its symbols and codes fit. -/
theorem Tree.storedAt.matched {rom : Handle → RomWord} {t : Tree} {root : Handle} {isSym : Sym → Prop}
    (hs : t.storedAt rom root) (ht : 2 ≤ t.leaves.length) (hd : (t.leaves.map Prod.fst).Nodup)
    (hsym : ∀ e ∈ t.leaves, isSym e.1) (hlen : ∀ row ∈ buildCodeTable t, row.2.length ≤ 63) :
    Matched isSym (lutImage (buildCodeTable t)) rom root := by
  have hk : ((buildCodeTable t).map Prod.fst).Nodup := (buildCodeTable_keys t).symm ▸ hd
  have hcode := hasCode_lutImage_iff hk fun row h =>
    ⟨length_pos_of_mem_buildCodeTable ht h, hlen row h⟩
  refine ⟨hs.treeImageWf ht hd, fun q x hq => ?_, fun x _ => ?_, fun x _ hx => ?_⟩
  · have hx : x ∈ t.leaves.map Prod.fst :=
      buildCodeTable_keys t ▸ List.mem_map_of_mem ((hs.mem_buildCodeTable_iff q x).2 hq)
    obtain ⟨e, he, rfl⟩ := List.mem_map.1 hx
    exact hsym e he
  · simp only [hcode, hs.mem_buildCodeTable_iff]
  · obtain ⟨q, hq⟩ := (hcode x).1 hx
    rw [lutImage_of_mem hk hq, bits_lutWordOf (hlen _ hq)]
    exact (hs.mem_buildCodeTable_iff q x).1 hq

/-- Settles O60: the ROM image holds the tree built, whose leaves are the map's keys, and the capacity check
bounds its symbols, its handles and its codes. -/
theorem builtImagesAreMatched : Obligations.BuiltImagesAreMatched := by
  intro p f b others hp hf hb hc
  obtain ⟨hsym, hrom, hlen⟩ := (capacity_ok_iff p b).1 hc
  obtain ⟨-, ⟨-, hnode⟩, -⟩ := (Params.legal_iff p).1 hp
  obtain ⟨-, hleaves⟩ := weighsAndHolds_of_build hb
  have hstored := storedAt_of_build hb others (hrom.trans (Nat.pow_le_pow_right two_pos hnode))
  exact hstored.matched (hleaves.length_eq ▸ two_le_of_build hb)
    ((hleaves.map Prod.fst).nodup_iff.2 hf.1) hsym
    fun row h => (hlen row h).trans (Params.maxLen_le hp)

end Sys2Proof.Machine
end

section
/-! PROOFS. The encoder's command and its beats (43_encoder.md R171 to R176): the exact next encoder in each
case. -/

namespace Sys2Proof.Machine

/-! ## ENC_START -/

theorem exec_encStart_of_idle {s : State} (hi : s.enc.ctl.st = .idle) :
    exec .encStart s = .next (s.setEnc .started) := by
  rw [exec, execEncStart, issue_of_free (s.encLocked_eq_false_iff.2 hi), Encoder.started]

/-- Settles O20: with an idle encoder ENC_START writes the encoder alone. -/
theorem encStartBeginsEncoding : Obligations.EncStartBeginsEncoding :=
  ⟨decode_encode .encStart, fun _ => ⟨exec_encStart_of_idle, exec_of_enc_busy rfl⟩⟩

/-! ## A beat taken -/

section
variable {e : Encoder} {w : LutWord} {b : SymBeat} (he : e.eoi = false)
include he

/-- A payload with a code is loaded (43_encoder.md R173). -/
theorem Encoder.take_of_code (hr : e.ctl.st = .run) (hk : b.keep = true) (hw : w.len ≠ 0#6) :
    e.take w b = { e with sh := w.code, n := w.len, symCnt := e.symCnt + 1, eoi := b.last } := by
  cases hl : b.last <;> simp [Encoder.take, hr, hk, hw, hl, he]

/-- A payload without a code is SymbolNotFound (43_encoder.md R174). -/
theorem Encoder.take_of_absent (hr : e.ctl.st = .run) (hk : b.keep = true) (hw : w.len = 0) :
    e.take w b =
      { e with ctl := e.ctl.errorEntry .symbolNotFound, errSym := b.sym, eoi := b.last } := by
  cases hl : b.last <;> simp [Encoder.take, Encoder.raiseSymbolNotFound, hr, hk, hw, hl, he]

/-- A beat without payload, and any beat in DRAIN, is not looked up (43_encoder.md R173). -/
theorem Encoder.take_of_pass (h : e.ctl.st ≠ .run ∨ b.keep = false) :
    e.take w b = { e with eoi := b.last } := by
  have hn : ¬ (e.ctl.st = .run ∧ b.keep = true) := fun ⟨hr, hk⟩ => by simp [hr, hk] at h
  cases hl : b.last <;> simp [Encoder.take, hn, hl, ← he]

end

/-- Settles O30: looked up and present, looked up and absent, or passed; a ready encoder has ENC_EOI = 0. -/
theorem encoderTakesABeat : Obligations.EncoderTakesABeat := by
  intro s b hready
  obtain ⟨-, heoi, -⟩ := s.encInReady_iff.1 hready
  exact ⟨s.takeEnc b, rfl, rfl, Encoder.take_of_code (b := s.wireBeat b) heoi,
    Encoder.take_of_absent (b := s.wireBeat b) heoi, Encoder.take_of_pass (b := s.wireBeat b) heoi⟩

/-! ## A beat given -/

section
variable {e : Encoder}

theorem Encoder.give_of_bit (hn : e.n ≠ 0) :
    e.give = { e with n := e.n - 1, bitCnt := e.bitCnt + 1 } := if_pos hn

theorem Encoder.give_of_end (hn : e.n = 0) : e.give = { e with ctl := e.ctl.finish, eoi := false } :=
  if_neg (not_not.2 hn)

end

/-- Settles O31: a bit while one waits, else the end beat. -/
theorem encoderGivesABeat : Obligations.EncoderGivesABeat := fun s hv =>
  ⟨s.giveEnc, rfl, rfl, fun hn => ⟨State.encOut_bit hv hn, Encoder.give_of_bit hn⟩,
    fun hn => ⟨State.encOut_end hv hn, Encoder.give_of_end hn⟩⟩

end Sys2Proof.Machine
end

section
/-! PROOFS. What an encoder holds in the middle of its operation (43_encoder.md R173 to R175, R180): its
registers say what `encode` makes of the payload taken so far, and every beat keeps that. -/

namespace Sys2Proof.Machine

/-! ## The first symbol without a code -/

/-- The symbol that `encode(xs, LUT)` fails at, if it fails (43_encoder.md R180 (b)). -/
def firstAbsent (lut : Sym → LutWord) (xs : List Sym) : Option Sym :=
  xs.find? fun x => !hasCode lut x

section
variable {lut : Sym → LutWord} {xs : List Sym}

theorem firstAbsent_eq_none_iff : firstAbsent lut xs = none ↔ ∀ x ∈ xs, hasCode lut x = true := by
  simp [firstAbsent]

theorem firstAbsent_append (xs ys : List Sym) :
    firstAbsent lut (xs ++ ys) = (firstAbsent lut xs).or (firstAbsent lut ys) :=
  List.find?_append

theorem encodable_of_firstAbsent_eq_none (h : firstAbsent lut xs = none) : encodable lut xs = xs :=
  List.takeWhile_eq_self_iff.2 (firstAbsent_eq_none_iff.1 h)

theorem encodable_append_of_firstAbsent_eq_none (h : firstAbsent lut xs = none) (ys : List Sym) :
    encodable lut (xs ++ ys) = xs ++ encodable lut ys :=
  List.takeWhile_append_of_pos (firstAbsent_eq_none_iff.1 h)

/-- Behind a symbol without a code nothing is encoded. -/
theorem encodable_append_of_firstAbsent_eq_some {z : Sym} (h : firstAbsent lut xs = some z)
    (ys : List Sym) : encodable lut (xs ++ ys) = encodable lut xs := by
  have hne : encodable lut xs ≠ xs := fun he => by
    simp [firstAbsent_eq_none_iff.2 (List.takeWhile_eq_self_iff.1 he)] at h
  refine (List.takeWhile_append ..).trans (if_neg fun hl => hne ?_)
  exact (List.takeWhile_prefix _).eq_of_length hl

theorem encodable_prefix_append (xs ys : List Sym) :
    encodable lut xs <+: encodable lut (xs ++ ys) := by
  cases h : firstAbsent lut xs with
  | none =>
    rw [encodable_append_of_firstAbsent_eq_none h, encodable_of_firstAbsent_eq_none h]
    exact List.prefix_append ..
  | some z => rw [encodable_append_of_firstAbsent_eq_some h]

theorem encodeSeq_of_firstAbsent_eq_none (h : firstAbsent lut xs = none) :
    encodeSeq lut xs = .ok (codesOf lut xs) :=
  encodeSeq_of_hasCode (firstAbsent_eq_none_iff.1 h)

theorem encodeSeq_of_firstAbsent_eq_some {z : Sym} (h : firstAbsent lut xs = some z) :
    encodeSeq lut xs = .error z := by
  induction xs with
  | nil => simp [firstAbsent] at h
  | cons x xs ih =>
    cases hx : hasCode lut x
    · simp_all [firstAbsent, encodeSeq]
    · simp [encodeSeq, hx, ih (by simpa [firstAbsent, hx] using h)]

theorem encodeSeq_eq_ok {y : List Bool} (h : encodeSeq lut xs = .ok y) :
    firstAbsent lut xs = none ∧ y = codesOf lut xs := by
  cases hf : firstAbsent lut xs with
  | none => exact ⟨rfl, Except.ok.inj (h.symm.trans (encodeSeq_of_firstAbsent_eq_none hf))⟩
  | some z => simp [encodeSeq_of_firstAbsent_eq_some hf] at h

theorem encodeSeq_eq_error {x : Sym} (h : encodeSeq lut xs = .error x) :
    firstAbsent lut xs = some x := by
  cases hf : firstAbsent lut xs with
  | none => simp [encodeSeq_of_firstAbsent_eq_none hf] at h
  | some z => simpa [encodeSeq_of_firstAbsent_eq_some hf] using h

end

/-! ## The bits of a code -/

theorem codesOf_append (lut : Sym → LutWord) (xs ys : List Sym) :
    codesOf lut (xs ++ ys) = codesOf lut xs ++ codesOf lut ys :=
  List.flatMap_append

theorem symPayload_append (bs cs : List SymBeat) :
    symPayload (bs ++ cs) = symPayload bs ++ symPayload cs := by
  simp [symPayload]

/-- The bits that wait in an encoder are its next one and those that wait after it. -/
theorem codeBits_of_ne_zero (v : CodeVal) {n : CodeLen} (hn : n ≠ 0) :
    codeBits v n.toNat = v.getLsbD (n.toNat - 1) :: codeBits v (n - 1).toNat := by
  have hpos : n.toNat ≠ 0 := fun h => hn (BitVec.toNat_inj.1 h)
  obtain ⟨m, hm⟩ := Nat.exists_eq_succ_of_ne_zero hpos
  have hpred : (n - 1).toNat = m := by bv_omega
  rw [hpred, hm]; rfl

/-! ## The registers in the middle of an operation -/

/-- The bits that an encode operation over `xs` delivers with the LUT of `s` (43_encoder.md R180). -/
def State.encoded (s : State) (xs : List Sym) : List Bool :=
  codesOf s.readLut (encodable s.readLut xs)

/-- `e` is a busy encoder that has taken the payload `xs`, with the LUT of `s`, and given the bits `sent`. -/
structure Encoder.Encoded (s : State) (e : Encoder) (xs : List Sym) (sent : List Bool) : Prop where
  ctl : e.ctl =
    (firstAbsent s.readLut xs).elim .start fun _ => UnitCtl.start.errorEntry .symbolNotFound
  bits : sent ++ codeBits e.sh e.n.toNat = s.encoded xs
  symCnt : e.symCnt = BitVec.ofNat 32 (encodable s.readLut xs).length
  bitCnt : e.bitCnt = BitVec.ofNat 32 sent.length
  errSym : e.errSym = (firstAbsent s.readLut xs).elim 0 (trunc s.params.symW)

theorem Encoder.encoded_started (s : State) : Encoder.started.Encoded s [] [] :=
  ⟨rfl, rfl, rfl, rfl, rfl⟩

section
variable {s : State} {e : Encoder} {xs : List Sym} {sent : List Bool} (h : e.Encoded s xs sent)
include h

theorem Encoder.Encoded.busy : e.ctl.st ≠ .idle := by
  rw [h.ctl]
  cases firstAbsent s.readLut xs <;> nofun

theorem Encoder.Encoded.not_done : e.ctl.done = false := by
  rw [h.ctl]
  cases firstAbsent s.readLut xs <;> rfl

theorem Encoder.Encoded.run_iff : e.ctl.st = .run ↔ firstAbsent s.readLut xs = none := by
  rw [h.ctl]
  cases firstAbsent s.readLut xs <;> simp

/-- The bits given are the front of what the operation delivers, whatever payload follows. -/
theorem Encoder.Encoded.sent_prefix (ys : List Sym) : sent <+: s.encoded (xs ++ ys) := by
  obtain ⟨zs, hzs⟩ := encodable_prefix_append (lut := s.readLut) xs ys
  rw [State.encoded, ← hzs, codesOf_append, ← State.encoded, ← h.bits, List.append_assoc]
  exact List.prefix_append ..

theorem Encoder.Encoded.sent_eq (hn : e.n = 0) : sent = s.encoded xs := by
  rw [← h.bits, hn]
  exact (List.append_nil _).symm

theorem Encoder.Encoded.setEoi (eoi : Bool) : { e with eoi := eoi }.Encoded s xs sent :=
  ⟨h.ctl, h.bits, h.symCnt, h.bitCnt, h.errSym⟩

/-- Behind a symbol without a code any payload is passed. -/
theorem Encoder.Encoded.append_of_firstAbsent_eq_some {z : Sym}
    (hz : firstAbsent s.readLut xs = some z) (ys : List Sym) : e.Encoded s (xs ++ ys) sent := by
  have hfirst : firstAbsent s.readLut (xs ++ ys) = firstAbsent s.readLut xs := by
    rw [firstAbsent_append, hz, Option.some_or]
  have hcodes : encodable s.readLut (xs ++ ys) = encodable s.readLut xs :=
    encodable_append_of_firstAbsent_eq_some hz ys
  exact ⟨hfirst ▸ h.ctl, h.bits.trans (congrArg (codesOf _) hcodes.symm), hcodes ▸ h.symCnt, h.bitCnt,
    hfirst ▸ h.errSym⟩

section
variable (heoi : e.eoi = false) (b : SymBeat) (hf : firstAbsent s.readLut xs = none)
  (hk : b.keep = true)
include heoi hf hk

theorem Encoder.Encoded.take_of_code (hn : e.n = 0) (hw : (s.readLut b.sym).len ≠ 0) :
    (e.take (s.readLut b.sym) (s.wireBeat b)).Encoded s (xs ++ [b.sym]) sent := by
  have hb : hasCode s.readLut b.sym = true := decide_eq_true hw
  have hfirst : firstAbsent s.readLut (xs ++ [b.sym]) = none := by
    rw [firstAbsent_append, hf, Option.none_or]
    simp [firstAbsent, hb]
  have hcodes : encodable s.readLut (xs ++ [b.sym]) = encodable s.readLut xs ++ [b.sym] := by
    rw [encodable_of_firstAbsent_eq_none hfirst, encodable_of_firstAbsent_eq_none hf]
  rw [Encoder.take_of_code (b := s.wireBeat b) heoi (h.run_iff.2 hf) hk hw]
  refine ⟨?_, ?_, ?_, h.bitCnt, ?_⟩
  · rw [hfirst, h.ctl, hf]
  · rw [State.encoded, hcodes, codesOf_append, ← State.encoded, ← h.sent_eq hn]
    simp [codesOf, LutWord.bits]
  · rw [hcodes, List.length_append, BitVec.ofNat_add, ← h.symCnt]; rfl
  · rw [hfirst, h.errSym, hf]

theorem Encoder.Encoded.take_of_absent (hw : (s.readLut b.sym).len = 0) :
    (e.take (s.readLut b.sym) (s.wireBeat b)).Encoded s (xs ++ [b.sym]) sent := by
  have hb : hasCode s.readLut b.sym = false := decide_eq_false (not_not.2 hw)
  have hfirst : firstAbsent s.readLut (xs ++ [b.sym]) = some b.sym := by
    rw [firstAbsent_append, hf, Option.none_or]
    simp [firstAbsent, hb]
  have hcodes : encodable s.readLut (xs ++ [b.sym]) = encodable s.readLut xs := by
    rw [encodable_append_of_firstAbsent_eq_none hf, encodable_of_firstAbsent_eq_none hf]
    simp [encodable, hb]
  rw [Encoder.take_of_absent (b := s.wireBeat b) heoi (h.run_iff.2 hf) hk hw]
  refine ⟨?_, h.bits.trans (congrArg (codesOf _) hcodes.symm), hcodes ▸ h.symCnt, h.bitCnt, ?_⟩
  · rw [hfirst, h.ctl, hf]; rfl
  · rw [hfirst]; rfl

end

/-- A beat taken with no bit waiting adds its payload. -/
theorem Encoder.Encoded.take (hn : e.n = 0) (heoi : e.eoi = false) (b : SymBeat) :
    (e.take (s.readLut b.sym) (s.wireBeat b)).Encoded s (xs ++ symPayload [b]) sent := by
  cases hf : firstAbsent s.readLut xs with
  | some z =>
    have hst : e.ctl.st ≠ .run := mt h.run_iff.1 (by simp [hf])
    rw [Encoder.take_of_pass (b := s.wireBeat b) heoi (.inl hst)]
    exact (h.append_of_firstAbsent_eq_some hf _).setEoi _
  | none =>
    cases hk : b.keep
    case false =>
      rw [Encoder.take_of_pass (b := s.wireBeat b) heoi (.inr hk), symPayload_cons_of_not_keep hk]
      exact (List.append_nil xs).symm ▸ h.setEoi _
    case true =>
      rw [symPayload_cons_of_keep hk]
      by_cases hw : (s.readLut b.sym).len = 0
      · exact h.take_of_absent heoi b hf hk hw
      · exact h.take_of_code heoi b hf hk hn hw

theorem Encoder.Encoded.give (hn : e.n ≠ 0) :
    e.give.Encoded s xs (sent ++ [e.sh.getLsbD (e.n.toNat - 1)]) := by
  obtain ⟨hctl, hbits, hsym, hbit, herr⟩ := h
  rw [Encoder.give_of_bit hn]
  refine ⟨hctl, ?_, hsym, ?_, herr⟩
  · rw [← hbits, codeBits_of_ne_zero _ hn, List.append_assoc]; rfl
  · rw [hbit, List.length_append, BitVec.ofNat_add]; rfl

end

end Sys2Proof.Machine
end

section
/-! PROOFS. The encoder on the bench (43_encoder.md R171 to R176, 20_memory.md R70): what an edge moves through
its two ports, and how far an operation has come. -/

namespace Sys2Proof.Machine

/-! ## One edge -/

/-- The beat that `enc_out` delivers at an edge, if `valid` meets `ready` there (20_memory.md R70). -/
def Bench.encDelivered (b : Bench) (w : Wish) : Option BitBeat :=
  if (outputs (b.drive w) b.st).encOutValid && (b.drive w).encOutReady then
    some (outputs (b.drive w) b.st).encOut
  else none

section
variable (b : Bench) (w : Wish)

theorem Bench.edge_wired : (b.edge w).wired = b.wired := by
  rw [Bench.edge, b.step_edge w]

theorem Bench.edge_encQ : (b.edge w).encQ =
    if (b.drive w).encInValid && (outputs (b.drive w) b.st).encInReady then b.encQ.tail
    else b.encQ := by
  rw [Bench.edge, b.step_edge w]

theorem Bench.edge_encGot : (b.edge w).encGot = b.encGot ++ (b.encDelivered w).toList := by
  rw [Bench.edge, b.step_edge w]
  simp only [Bench.encDelivered]
  split <;> simp

theorem Bench.edge_encFrame : (b.edge w).encFrame =
    nextFrame (!w.rst && (b.drive w).isCommand .encStart && !b.st.encLocked) (b.encDelivered w)
      b.encFrame := by
  rw [Bench.edge, b.step_edge w]; rfl

end

section
variable {b : Bench} {w : Wish}

theorem Bench.edge_encFrame_of_not_start (hs : ¬ (b.drive w).commands .encStart) :
    (b.edge w).encFrame = b.encFrame ++ (b.encDelivered w).toList := by
  have hn : (b.drive w).isCommand .encStart = false :=
    Bool.eq_false_iff.2 (mt (Pins.isCommand_iff _ _).1 hs)
  rw [Bench.edge_encFrame, hn, Bool.and_false, Bool.false_and, nextFrame, if_neg Bool.false_ne_true]

theorem Bench.encDelivered_eq (hw : b.wired = false) (hr : w.rst = false) : b.encDelivered w =
    if b.st.encOutValid && w.acceptEnc then some b.st.encOut else none := by
  simp [Bench.encDelivered, outputs, Bench.drive, hw, hr]

/-- ENC_START on the bench: an idle encoder starts, has no beat at that edge, and its output frame is
empty. -/
theorem Bench.edge_encStart (hi : b.st.enc.ctl.st = .idle) (hr : w.rst = false)
    (hh : w.host = some (Reg.cmd.index, encode .encStart)) :
    (b.edge w).st.enc = .started ∧ (b.edge w).st.lut = b.st.lut ∧ (b.edge w).encQ = b.encQ ∧
      (b.edge w).encGot = b.encGot ∧ (b.edge w).encFrame = [] := by
  have hin : b.st.encInReady = false := State.encInReady_of_idle hi
  have hout : b.st.encOutValid = false := State.encOutValid_of_idle hi
  have hc : (b.drive w).commands .encStart := b.drive_commands_iff.2 hh
  have hdel : b.encDelivered w = none := by simp [Bench.encDelivered, outputs, hout]
  have hstep := b.step_edge w
  rw [step_command hr hc _ _ (by decide), exec_encStart_of_idle (s := b.st.setPins []) hi, andThen_next,
    runEvents_transfers, Host.Outcome.next.injEq] at hstep
  refine ⟨?_, ?_, by simp [Bench.edge_encQ, outputs, hin], by simp [Bench.edge_encGot, hdel], ?_⟩
  · rw [← hstep, State.afterTransfers_enc, hin, hout, Bool.and_false, Bool.and_false]; rfl
  · rw [← hstep, State.afterTransfers_lut]; rfl
  · simp [Bench.edge_encFrame, hdel, nextFrame, hr, (Pins.isCommand_iff _ _).2 hc,
      b.st.encLocked_eq_false_iff.2 hi]

/-- A calm edge without ENC_START on the bench: the encoder takes the next beat of its queue, gives its own
beat, or stays. -/
theorem Bench.edge_enc (hw : b.wired = false) (hc : (b.drive w).calm)
    (hs : ¬ (b.drive w).commands .encStart) :
    (∃ x, b.st.encInReady = true ∧ b.encQ = x :: (b.edge w).encQ ∧
      (b.edge w).encFrame = b.encFrame ∧
      (b.edge w).st.enc = b.st.enc.take (b.st.readLut x.sym) (b.st.wireBeat x)) ∨
    (b.st.encOutValid = true ∧ (b.edge w).encQ = b.encQ ∧
      (b.edge w).encFrame = b.encFrame ++ [b.st.encOut] ∧ (b.edge w).st.enc = b.st.enc.give) ∨
    ((w.offerEnc = true → b.st.encInReady = true → b.encQ = []) ∧
      (w.acceptEnc = true → b.st.encOutValid = false) ∧ (b.edge w).encQ = b.encQ ∧
      (b.edge w).encFrame = b.encFrame ∧ (b.edge w).st.enc = b.st.enc) := by
  have hready : (outputs (b.drive w) b.st).encInReady = b.st.encInReady := by simp [outputs, hc.1]
  have hoffer : (b.drive w).encInValid = (w.offerEnc && !b.encQ.isEmpty) := rfl
  have haccept : (b.drive w).encOutReady = w.acceptEnc := by simp [Bench.drive, hw]
  have hbeat : (b.drive w).encIn = b.encQ.headD .null := rfl
  rw [Bench.edge_encQ, hready, Bench.edge_encFrame_of_not_start hs, Bench.encDelivered_eq hw hc.1]
  rcases step_calm_enc hc (b.step_edge w) with
    ⟨-, hp, -⟩ | ⟨hv, hr, he⟩ | ⟨ha, hv, he⟩ | ⟨hn, hn', he⟩
  · exact absurd hp hs
  · cases hx : b.encQ with
    | nil => simp [hoffer, hx] at hv
    | cons x q =>
      rw [hbeat, hx] at he
      exact .inl ⟨x, hr, by simp [hv, hr], by simp [State.enc_exclusive hr], he⟩
  · rw [haccept] at ha
    exact .inr (.inl ⟨hv, by simp [State.encInReady_of_offer hv], by simp [hv, ha], he⟩)
  · rw [haccept] at hn'
    refine .inr (.inr ⟨fun ho hr => ?_, fun ha => ?_, by simp [hn],
      by simp [Bool.and_comm, hn'], he⟩)
    · simpa [hoffer, ho, hr] using hn
    · simpa [ha] using hn'

theorem Bench.edge_enc_of_idle (hw : b.wired = false) (hc : (b.drive w).calm)
    (hs : ¬ (b.drive w).commands .encStart) (hi : b.st.enc.ctl.st = .idle) :
    (b.edge w).encQ = b.encQ ∧ (b.edge w).encFrame = b.encFrame ∧
      (b.edge w).st.enc = b.st.enc := by
  obtain ⟨x, hr, -⟩ | ⟨hv, -⟩ | ⟨-, -, h⟩ := Bench.edge_enc hw hc hs
  · simp [State.encInReady_of_idle hi] at hr
  · simp [State.encOutValid_of_idle hi] at hv
  · exact h

theorem Bench.settle_lut (k : Nat) (b : Bench) : (b.settle k).st.lut = b.st.lut := by
  induction k generalizing b with
  | zero => rfl
  | succ k ih =>
    have hlut : (b.edge .eager).st.lut = b.st.lut :=
      (step_calm_lut b.drive_eager_calm (b.step_edge .eager)).resolve_right fun ⟨_, hx⟩ =>
        hx.elim (fun h => b.drive_eager_commands _ h.1) fun h => b.drive_eager_commands _ h.1
    exact (ih (b.edge .eager)).trans hlut

/-- Without ENC_START whatever `enc_out` delivers goes into the output frame. -/
theorem Bench.run_encGot {ws : List Wish} {before : List BitBeat}
    (hws : ∀ v ∈ ws, v.host ≠ some (Reg.cmd.index, encode .encStart))
    (h : b.encGot = before ++ b.encFrame) : (b.run ws).encGot = before ++ (b.run ws).encFrame := by
  induction ws generalizing b with
  | nil => exact h
  | cons w ws ih =>
    obtain ⟨hw, hws⟩ := List.forall_mem_cons.1 hws
    refine ih hws ?_
    rw [Bench.edge_encGot, Bench.edge_encFrame_of_not_start (mt b.drive_commands_iff.1 hw), h,
      List.append_assoc]

theorem Bench.settle_encGot {before : List BitBeat} (h : b.encGot = before ++ b.encFrame) (k : Nat) :
    (b.settle k).encGot = before ++ (b.settle k).encFrame :=
  Bench.run_encGot (fun _ hv => List.eq_of_mem_replicate hv ▸ nofun) h

end

/-- A busy encoder accepts a beat or offers one (43_encoder.md R172). -/
theorem State.encInReady_or_encOutValid {s : State} (hb : s.enc.ctl.st ≠ .idle) :
    s.encInReady = true ∨ s.encOutValid = true := by
  by_cases hoffer : s.enc.n ≠ 0 ∨ s.enc.eoi = true
  · exact .inr (s.encOutValid_iff.2 ⟨hb, hoffer⟩)
  · obtain ⟨hn, heoi⟩ := not_or.1 hoffer
    exact .inl (s.encInReady_iff.2 ⟨hb, Bool.eq_false_iff.2 heoi, not_not.1 hn⟩)

/-! ## How far an operation has come -/

/-- The beat that carries a bit on `enc_out` (43_encoder.md R175). -/
def BitBeat.payload (bit : Bool) : BitBeat := { bit := bit, keep := true, last := false }

/-- The encode operation of `b` began in `s`. It has taken the beats `taken` of its frame and given the bits
`sent`; the rest `left` of the frame, and behind it `rest`, wait at `enc_in`. -/
structure Bench.Encoding (b : Bench) (s : State) (taken left rest : List SymBeat)
    (sent : List Bool) : Prop where
  wired : b.wired = false
  params : b.st.params = s.params
  lut : b.st.lut = s.lut
  enc : b.st.enc.Encoded s (symPayload taken) sent
  eoi : if b.st.enc.eoi then left = [] else isFrame SymBeat.last left = true
  queue : b.encQ = left ++ rest
  out : b.encFrame = sent.map .payload

/-- The encode operation of `b` began in `s` and has ended: it took `frame` and delivered its output frame. -/
structure Bench.EncodeEnded (b : Bench) (s : State) (frame rest : List SymBeat) : Prop where
  wired : b.wired = false
  enc : ∃ e : Encoder, e.Encoded s (symPayload frame) (s.encoded (symPayload frame)) ∧
    b.st.enc = { e with ctl := e.ctl.finish, eoi := false }
  queue : b.encQ = rest
  out : b.encFrame = bitFrame (s.encoded (symPayload frame))

/-- ENC_START begins an operation at the front of the queue. -/
theorem Bench.encoding_edge_encStart {b : Bench} {w : Wish} {frame rest : List SymBeat}
    (hw : b.wired = false) (hi : b.st.enc.ctl.st = .idle) (hf : isFrame SymBeat.last frame = true)
    (hq : b.encQ = frame ++ rest) (hr : w.rst = false)
    (hh : w.host = some (Reg.cmd.index, encode .encStart)) :
    (b.edge w).Encoding b.st [] frame rest [] := by
  obtain ⟨henc, hlut, hqueue, -, hout⟩ := Bench.edge_encStart hi hr hh
  exact ⟨(b.edge_wired w).trans hw, b.edge_params w, hlut, henc ▸ Encoder.encoded_started _, henc ▸ hf,
    hqueue.trans hq, hout⟩

section
variable {b : Bench} {w : Wish} {s : State} {taken left rest : List SymBeat} {sent : List Bool}

theorem Bench.EncodeEnded.idle (h : b.EncodeEnded s taken rest) : b.st.enc.ctl.st = .idle := by
  obtain ⟨e, -, he⟩ := h.enc
  rw [he]; rfl

/-- The beat that a ready encoder waits for is one of its frame. -/
theorem Bench.Encoding.exists_left (h : b.Encoding s taken left rest sent)
    (hr : b.st.encInReady = true) : ∃ x left', left = x :: left' := by
  obtain ⟨-, heoi, -⟩ := b.st.encInReady_iff.1 hr
  have hf := h.eoi
  rw [heoi] at hf
  cases left with
  | nil => simp [isFrame] at hf
  | cons x left => exact ⟨x, left, rfl⟩

/-- An edge without a beat lacks an offer or an acceptance. -/
theorem Bench.Encoding.stalled (h : b.Encoding s taken left rest sent)
    (ho : w.offerEnc = true → b.st.encInReady = true → b.encQ = [])
    (ha : w.acceptEnc = true → b.st.encOutValid = false) :
    w.offerEnc = false ∨ w.acceptEnc = false := by
  rcases State.encInReady_or_encOutValid h.enc.busy with hr | hv
  · obtain ⟨x, left', rfl⟩ := h.exists_left hr
    exact .inl (Bool.eq_false_iff.2 fun hx => by simpa [h.queue] using ho hx hr)
  · exact .inr (Bool.eq_false_iff.2 fun hx => by simpa [hv] using ha hx)

/-! ## The edges of an operation -/

section
variable (hc : (b.drive w).calm) (hs : ¬ (b.drive w).commands .encStart)
include hc

/-- An edge of an operation goes on with it from what it leaves in the encoder and at its ports. -/
theorem Bench.Encoding.next (h : b.Encoding s taken left rest sent) {taken' left' : List SymBeat}
    {sent' : List Bool} (henc : (b.edge w).st.enc.Encoded s (symPayload taken') sent')
    (heoi : if (b.edge w).st.enc.eoi then left' = [] else isFrame SymBeat.last left' = true)
    (hq : (b.edge w).encQ = left' ++ rest) (ho : (b.edge w).encFrame = sent'.map .payload) :
    (b.edge w).Encoding s taken' left' rest sent' :=
  ⟨(b.edge_wired w).trans h.wired, (b.edge_params w).trans h.params,
    (step_calm_lut_of_busy hc (b.step_edge w) h.enc.busy).trans h.lut, henc, heoi, hq, ho⟩

/-- A beat taken is the next one of the frame. -/
theorem Bench.Encoding.edge_of_take (h : b.Encoding s taken left rest sent) {x : SymBeat}
    (hr : b.st.encInReady = true) (hq : b.encQ = x :: (b.edge w).encQ)
    (ho : (b.edge w).encFrame = b.encFrame)
    (he : (b.edge w).st.enc = b.st.enc.take (b.st.readLut x.sym) (b.st.wireBeat x)) :
    ∃ left', left = x :: left' ∧ (b.edge w).Encoding s (taken ++ [x]) left' rest sent := by
  obtain ⟨y, left', rfl⟩ := h.exists_left hr
  obtain ⟨rfl, hq⟩ := List.cons.inj (hq.symm.trans h.queue)
  obtain ⟨-, h0, hn⟩ := b.st.encInReady_iff.1 hr
  have hread : b.st.readLut = s.readLut := State.readLut_congr h.params h.lut
  have hwire : b.st.wireBeat x = s.wireBeat x := by rw [State.wireBeat, h.params, State.wireBeat]
  have hf := h.eoi
  rw [h0] at hf
  refine ⟨left', rfl, h.next hc ?_ ?_ hq (ho.trans h.out)⟩
  · rw [he, hread, hwire, symPayload_append]
    exact h.enc.take hn h0 x
  · rw [he, Encoder.take_eoi, h0, State.wireBeat_last, Bool.or_false]
    obtain ⟨hnil, hl⟩ | ⟨hl, hf⟩ := (isFrame_cons_iff _ _ _).1 hf
    · simp [hl, hnil]
    · simp [hl, hf]

/-- A beat given is a bit while one waits, else the end beat. -/
theorem Bench.Encoding.edge_of_give (h : b.Encoding s taken left rest sent)
    (hv : b.st.encOutValid = true) (hq : (b.edge w).encQ = b.encQ)
    (ho : (b.edge w).encFrame = b.encFrame ++ [b.st.encOut]) (he : (b.edge w).st.enc = b.st.enc.give) :
    (∃ bit, (b.edge w).Encoding s taken left rest (sent ++ [bit])) ∨
      left = [] ∧ (b.edge w).EncodeEnded s taken rest := by
  by_cases hn : b.st.enc.n = 0
  · obtain ⟨-, hoffer⟩ := b.st.encOutValid_iff.1 hv
    have hleft : left = [] := by simpa [hoffer.resolve_left (not_not.2 hn)] using h.eoi
    have hsent := h.enc.sent_eq hn
    refine .inr ⟨hleft, (b.edge_wired w).trans h.wired, ⟨_, hsent ▸ h.enc, ?_⟩, ?_, ?_⟩
    · rw [he, Encoder.give_of_end hn]
    · rw [hq, h.queue, hleft, List.nil_append]
    · rw [ho, h.out, State.encOut_end hv hn, hsent]; rfl
  · refine .inl ⟨_, h.next hc (he ▸ h.enc.give hn) ?_ (hq.trans h.queue) ?_⟩
    · rw [he, Encoder.give_of_bit hn]
      exact h.eoi
    · rw [ho, h.out, State.encOut_bit hv hn, List.map_append]; rfl

include hs

/-- A calm edge of an operation: a beat taken, a bit given, the end beat given, or no beat for want of an
offer or of an acceptance. -/
theorem Bench.Encoding.edge (h : b.Encoding s taken left rest sent) :
    (∃ x left', left = x :: left' ∧ (b.edge w).Encoding s (taken ++ [x]) left' rest sent) ∨
    (∃ bit, (b.edge w).Encoding s taken left rest (sent ++ [bit])) ∨
    (left = [] ∧ (b.edge w).EncodeEnded s taken rest) ∨
    ((w.offerEnc = false ∨ w.acceptEnc = false) ∧ (b.edge w).Encoding s taken left rest sent) := by
  rcases Bench.edge_enc h.wired hc hs with
    ⟨x, hr, hq, ho, he⟩ | ⟨hv, hq, ho, he⟩ | ⟨hoffer, haccept, hq, ho, he⟩
  · exact .inl ⟨x, h.edge_of_take hc hr hq ho he⟩
  · exact .inr ((h.edge_of_give hc hv hq ho he).imp_right .inl)
  · exact .inr (.inr (.inr ⟨h.stalled hoffer haccept, h.next hc (he ▸ h.enc) (he ▸ h.eoi)
      (hq.trans h.queue) (ho.trans h.out)⟩))

/-- What has ended stays as it is until the next ENC_START. -/
theorem Bench.EncodeEnded.edge (h : b.EncodeEnded s taken rest) :
    (b.edge w).EncodeEnded s taken rest := by
  obtain ⟨hqueue, hout, henc⟩ := Bench.edge_enc_of_idle h.wired hc hs h.idle
  exact ⟨(b.edge_wired w).trans h.wired, henc ▸ h.enc, hqueue.trans h.queue, hout.trans h.out⟩

end

end

end Sys2Proof.Machine
end

section
/-! PROOFS. The encode operation as a whole (43_encoder.md R180, 70_reset_and_hazards.md R247): eager edges run
it to its end, and no schedule changes what it delivers. -/

namespace Sys2Proof.Machine

/-! ## Eager edges -/

section
variable {b : Bench} {s : State} {taken left rest : List SymBeat} {sent : List Bool}

theorem Bench.EncodeEnded.settle (h : b.EncodeEnded s taken rest) (k : Nat) :
    (b.settle k).EncodeEnded s taken rest := by
  induction k generalizing b with
  | zero => exact h
  | succ k ih => exact ih (h.edge b.drive_eager_calm (b.drive_eager_commands _))

/-- What an operation that has taken `taken` and given `sent` has still to do: the beats left, the bits left
and the end beat. -/
def State.encodeWork (s : State) (taken left : List SymBeat) (sent : List Bool) : Nat :=
  left.length + ((s.encoded (symPayload (taken ++ left))).length - sent.length) + 1

/-- Enough eager edges run an operation to its end. -/
theorem Bench.Encoding.settle (h : b.Encoding s taken left rest sent) {k : Nat}
    (hk : s.encodeWork taken left sent ≤ k) : (b.settle k).EncodeEnded s (taken ++ left) rest := by
  induction k generalizing b taken left sent with
  | zero => exact absurd hk (Nat.not_succ_le_zero _)
  | succ k ih =>
    unfold State.encodeWork at ih hk
    rcases h.edge b.drive_eager_calm (b.drive_eager_commands _) with
      ⟨x, left', rfl, h'⟩ | ⟨bit, h'⟩ | ⟨rfl, h'⟩ | ⟨hno, -⟩
    · rw [List.append_cons] at hk ⊢
      exact ih h' (by rw [List.length_cons] at hk; omega)
    · have hlen : (sent ++ [bit]).length ≤ (s.encoded (symPayload (taken ++ left))).length := by
        rw [symPayload_append]
        exact (h'.enc.sent_prefix _).length_le
      rw [List.length_append, List.length_singleton] at hlen
      exact ih h' (by rw [List.length_append, List.length_singleton]; omega)
    · rw [List.append_nil]
      exact h'.settle k
    · exact absurd hno (by decide)

/-- An idle encoder with a frame in its queue, after ENC_START and enough eager edges. -/
theorem Bench.encodeEnded_of_encStart {frame : List SymBeat} {k : Nat} (hw : b.wired = false)
    (hi : b.st.enc.ctl.st = .idle) (hf : isFrame SymBeat.last frame = true)
    (hq : b.encQ = frame ++ rest) (hk : b.st.encodeWork [] frame [] ≤ k) :
    ((b.edge (.write Reg.cmd.index (encode .encStart))).settle k).EncodeEnded b.st frame rest :=
  (Bench.encoding_edge_encStart hw hi hf hq rfl rfl).settle hk

end

/-- Settles O49: ENC_START begins an operation, and the eager edges are enough for its work. -/
theorem encodeOperationContract : Obligations.EncodeOperationContract := by
  rintro b c frame rest k _ hw hi hf hq hg rfl hk rfl
  obtain ⟨-, hlut, -, hgot, hframe⟩ :=
    Bench.edge_encStart (w := .write Reg.cmd.index (encode .encStart)) hi rfl rfl
  obtain ⟨-, ⟨e, henc, he⟩, hqueue, hout⟩ := Bench.encodeEnded_of_encStart hw hi hf hq hk
  have hall := Bench.settle_encGot (before := []) (by rw [hgot, hg, hframe]; rfl) k
  rw [he]
  refine ⟨hqueue, hall.trans hout, (Bench.settle_lut k _).trans hlut, rfl, rfl, henc.bitCnt,
    henc.symCnt, fun z hz => ?_, fun x hx => ?_⟩
  · obtain ⟨hfirst, rfl⟩ := encodeSeq_eq_ok hz
    have hcodes := encodable_of_firstAbsent_eq_none hfirst
    exact ⟨congrArg (codesOf _) hcodes, by rw [henc.ctl, hfirst]; rfl, by rw [henc.symCnt, hcodes]⟩
  · have hfirst := encodeSeq_eq_error hx
    exact ⟨by rw [henc.ctl, hfirst]; rfl, by rw [henc.errSym, hfirst]; rfl⟩

/-! ## Any schedule -/

/-- The encode operation over `frame` that began in `s` is on its way or has ended. -/
def Bench.Encodes (b : Bench) (s : State) (frame rest : List SymBeat) : Prop :=
  (∃ taken left sent, taken ++ left = frame ∧ b.Encoding s taken left rest sent) ∨
    b.EncodeEnded s frame rest

section
variable {b : Bench} {s : State} {frame rest : List SymBeat}

theorem Bench.Encodes.edge {w : Wish} (hc : (b.drive w).calm)
    (hs : ¬ (b.drive w).commands .encStart) (h : b.Encodes s frame rest) :
    (b.edge w).Encodes s frame rest := by
  obtain ⟨taken, left, sent, rfl, h⟩ | h := h
  · rcases h.edge hc hs with ⟨x, left', rfl, h'⟩ | ⟨bit, h'⟩ | ⟨rfl, h'⟩ | ⟨-, h'⟩
    · exact .inl ⟨_, left', sent, (List.append_cons ..).symm, h'⟩
    · exact .inl ⟨taken, left, _, rfl, h'⟩
    · exact .inr ((List.append_nil taken).symm ▸ h')
    · exact .inl ⟨taken, left, sent, rfl, h'⟩
  · exact .inr (h.edge hc hs)

theorem Bench.Encodes.run {ws : List Wish}
    (hws : ∀ v ∈ ws, v.rst = false ∧ v.host ≠ some (Reg.cmd.index, encode .softReset) ∧
      v.host ≠ some (Reg.cmd.index, encode .encStart)) (h : b.Encodes s frame rest) :
    (b.run ws).Encodes s frame rest := by
  induction ws generalizing b with
  | nil => exact h
  | cons w ws ih =>
    obtain ⟨⟨hr, hsoft, hstart⟩, hws⟩ := List.forall_mem_cons.1 hws
    exact ih hws (h.edge (b.drive_calm hr hsoft) (mt b.drive_commands_iff.1 hstart))

theorem Bench.Encodes.encFrame_prefix (h : b.Encodes s frame rest) :
    b.encFrame <+: bitFrame (s.encoded (symPayload frame)) := by
  obtain ⟨taken, left, sent, rfl, h⟩ | h := h
  · rw [h.out, symPayload_append]
    exact ((h.enc.sent_prefix _).map _).trans (List.prefix_append ..)
  · rw [h.out]

theorem Bench.Encodes.ended_of_done (h : b.Encodes s frame rest) (hd : b.st.enc.ctl.done = true) :
    b.EncodeEnded s frame rest := by
  obtain ⟨taken, left, sent, rfl, h⟩ | h := h
  · simp [h.enc.not_done] at hd
  · exact h

end

/-- Settles O52: every edge keeps the operation on its way or ended, and DONE tells which. -/
theorem encodeOutputUnderAnySchedule : Obligations.EncodeOutputUnderAnySchedule := by
  rintro b c w ws frame rest _ hw hi hf hq hg hr hh hws rfl rfl
  obtain ⟨-, -, -, hgot, hframe⟩ := Bench.edge_encStart hi hr hh
  have hstart := Bench.encoding_edge_encStart hw hi hf hq hr hh
  have h := Bench.Encodes.run hws (.inl ⟨[], frame, [], rfl, hstart⟩)
  have hall : ((b.edge w).run ws).encGot = ((b.edge w).run ws).encFrame :=
    Bench.run_encGot (before := []) (fun v hv => (hws v hv).2.2) (by rw [hgot, hg, hframe]; rfl)
  rw [hall]
  refine ⟨h.encFrame_prefix, fun hd => ?_⟩
  have hend := h.ended_of_done hd
  exact ⟨hend.out, hend.queue⟩

end Sys2Proof.Machine
end

section
/-! PROOFS. The walk invariant (44_decoder.md R194): in RUN neither the node the decoder stands on nor the root
is a Leaf. Reset has it, and the stored widths, and every step keeps it. -/

namespace Sys2Proof.Machine

/-! ## The invariant at a calm edge -/

section
variable {p : Pins} {s t : State} {rest : List Pins} (hc : p.calm)
  (h : step (s.setPins (p :: rest)) = .next t)
include hc h

/-- A write of the ROM and a command other than ROM_WRITE never share an edge. -/
theorem step_calm_rom_of_command {i : Instr} (hp : p.commands i) (hi : i ≠ .romWrite) :
    t.rom = s.rom := by
  obtain ⟨hrom, -⟩ := step_calm_rom hc h
  refine hrom.resolve_right fun ⟨_, hw, _⟩ => ?_
  obtain ⟨-, -, hdata⟩ := hp
  obtain ⟨-, -, hdata'⟩ := hw
  exact hi (encode_injective (hdata.symm.trans hdata'))

/-- The tree of a busy decoder is locked (20_memory.md R74). -/
theorem step_calm_tree_of_busy (hb : s.dec.ctl.st ≠ .idle) :
    t.readRom = s.readRom ∧ t.root = s.root :=
  ⟨State.readRom_congr (step_frame h).1 (step_calm_rom_of_busy hc h hb),
    step_calm_root_of_busy hc h hb⟩

end

/-- DEC_START goes to RUN only over an Internal root. -/
theorem State.decStarted_run_iff (s : State) :
    s.decStarted.ctl.st = .run ↔ (s.readRom s.root).leaf = false := by
  unfold State.decStarted
  cases (s.readRom s.root).leaf <;> simp

/-- No input beat leads into RUN. -/
theorem Decoder.run_of_take_run {d : Decoder} {rom : Handle → RomWord} {root : Handle} {b : BitBeat}
    (hr : (d.take rom root b).ctl.st = .run) : d.ctl.st = .run := by
  by_contra hn
  rw [Decoder.take_drain _ _ _ _ hn] at hr
  exact hn hr

/-- No output beat leads into RUN. -/
theorem Decoder.run_of_give_run {d : Decoder} (hr : d.give.ctl.st = .run) : d.ctl.st = .run := by
  rw [Decoder.give_ctl] at hr
  split at hr
  · exact hr
  · simp at hr

/-- A walk step ends on an Internal node: a Leaf leads back to the root. -/
theorem Decoder.take_cur_internal {d : Decoder} {rom : Handle → RomWord} {root : Handle} (b : BitBeat)
    (hcur : (rom d.cur).leaf = false) (hroot : (rom root).leaf = false) :
    (rom (d.take rom root b).cur).leaf = false := by
  rw [Decoder.take_cur]
  split
  · split
    · exact hroot
    · next hl => exact Bool.eq_false_iff.2 hl
  · exact hcur

section
variable {p : Pins} {s t : State} {rest : List Pins} (hc : p.calm)
  (h : step (s.setPins (p :: rest)) = .next t)
include hc h

/-- DEC_START checks the root and stands on it; in RUN the tree is locked, and a beat leaves the walk on an
Internal node. -/
theorem State.WalkInternal.step_calm (hs : s.WalkInternal) : t.WalkInternal := by
  intro hrun
  rcases step_calm_dec hc h with ⟨-, hp, hd⟩ | ⟨-, hr, hd⟩ | ⟨-, hv, hd⟩ | ⟨-, -, hd⟩ <;> rw [hd] at hrun ⊢
  · rw [State.readRom_congr (step_frame h).1 (step_calm_rom_of_command hc h hp (by decide)),
      step_calm_root_of_command hc h hp]
    have hroot := s.decStarted_run_iff.1 hrun
    exact ⟨hroot, hroot⟩
  · obtain ⟨hread, hroot⟩ := step_calm_tree_of_busy hc h (State.dec_busy_of_ready hr)
    obtain ⟨hi, hi'⟩ := hs (Decoder.run_of_take_run hrun)
    rw [hread, hroot]
    exact ⟨Decoder.take_cur_internal _ hi hi', hi'⟩
  · obtain ⟨hread, hroot⟩ := step_calm_tree_of_busy hc h (State.dec_busy_of_valid hv)
    obtain ⟨hcur, -⟩ := s.dec.give_walk
    rw [hread, hroot, hcur]
    exact hs (Decoder.run_of_give_run hrun)
  · obtain ⟨hread, hroot⟩ := step_calm_tree_of_busy hc h (by simp [hrun])
    rw [hread, hroot]
    exact hs hrun

end

/-- A decoder at reset is idle. -/
theorem State.walkInternal_of_dec_reset {t : State} (hd : t.dec = .reset) : t.WalkInternal :=
  fun hrun => by simp [hd, Decoder.reset, UnitCtl.reset] at hrun

/-- Settles O44: a reset leaves the decoder idle, and every calm edge keeps the invariant. -/
theorem stepKeepsWalkOnInternalNodes : Obligations.StepKeepsWalkOnInternalNodes :=
  fun _ _ hs h => step_keeps h (fun _ => State.walkInternal_of_dec_reset rfl)
    (fun _ => State.walkInternal_of_dec_reset rfl) fun _ _ hc h => hs.step_calm hc h

/-! ## After reset -/

theorem State.stored_reset : State.reset.Stored := by
  constructor
  case lut => exact .unspecified 0
  case rom => exact .unspecified 0
  case hist => exact .unspecified 0
  all_goals exact fitsWidth_zero _

/-- Settles O48: after reset the decoder is idle, every stored value is 0, and no cell is listed. -/
theorem walkAndWidthsHoldAfterReset : Obligations.WalkAndWidthsHoldAfterReset :=
  ⟨State.walkInternal_of_dec_reset rfl, State.stored_reset⟩

end Sys2Proof.Machine
end

section
/-! PROOFS. The decoder's command and its beats (44_decoder.md R186 to R191): the exact next decoder in each
case. -/

namespace Sys2Proof.Machine

/-! ## DEC_START -/

section
variable {s : State}

theorem exec_decStart_of_idle (hi : s.dec.ctl.st = .idle) :
    exec .decStart s = .next (s.setDec s.decStarted) := by
  rw [exec, execDecStart, issue_of_free (s.decLocked_eq_false_iff.2 hi), State.decStarted]
  split <;> rfl

theorem State.decStarted_of_node (hr : (s.readRom s.root).leaf = false) : s.decStarted =
    { ctl := .start, eoi := false, mid := false, cur := s.root, outSym := 0, outV := false,
      bitCnt := 0, symCnt := 0 } := by
  simp [State.decStarted, hr]

/-- A Leaf at ROOT is SingleSymbolInput (44_decoder.md R186). -/
theorem State.decStarted_of_leaf (hr : (s.readRom s.root).leaf = true) : s.decStarted =
    { ctl := UnitCtl.start.errorEntry .singleSymbolInput, eoi := false, mid := false, cur := s.root,
      outSym := 0, outV := false, bitCnt := 0, symCnt := 0 } := by
  simp [State.decStarted, hr]

end

/-- Settles O21: with an idle decoder DEC_START writes the decoder alone, as the word at ROOT says. -/
theorem decStartBeginsDecoding : Obligations.DecStartBeginsDecoding := by
  refine ⟨decode_encode .decStart, fun s => ⟨fun hi hr => ?_, fun hi hr => ?_, exec_of_dec_busy rfl⟩⟩
  · rw [exec_decStart_of_idle hi, State.decStarted_of_node hr]; rfl
  · rw [exec_decStart_of_idle hi, State.decStarted_of_leaf hr]; rfl

/-! ## A beat taken -/

section
variable {d : Decoder} {rom : Handle → RomWord} {root : Handle} {b : BitBeat}

section
variable (hr : d.ctl.st = .run) (hk : b.keep = true)
include hr hk

/-- A bit that leads to a Leaf finishes a code: its symbol waits, and the walk is back at the root
(44_decoder.md R188). -/
theorem Decoder.take_of_leaf (he : d.eoi = false) (hl : (rom (nextNode rom d.cur b.bit)).leaf = true) :
    d.take rom root b =
      { d with bitCnt := d.bitCnt + 1, outSym := (rom (nextNode rom d.cur b.bit)).sym, outV := true,
               cur := root, mid := false, eoi := b.last } := by
  cases hlast : b.last <;>
    simp [Decoder.take, Decoder.endOfInput, Decoder.walkBit_eq, hr, hk, hl, hlast, he]

/-- A bit that leads to an Internal node leaves the walk there, in the middle of a code
(44_decoder.md R188). -/
theorem Decoder.take_of_node (hl : (rom (nextNode rom d.cur b.bit)).leaf = false)
    (hlast : b.last = false) : d.take rom root b =
      { d with bitCnt := d.bitCnt + 1, cur := nextNode rom d.cur b.bit, mid := true } := by
  simp [Decoder.take, Decoder.walkBit_eq, hr, hk, hl, hlast]

/-- The last bit on an Internal node is MalformedStream (44_decoder.md R189). -/
theorem Decoder.take_of_node_last (hl : (rom (nextNode rom d.cur b.bit)).leaf = false)
    (hlast : b.last = true) : d.take rom root b =
      { d with bitCnt := d.bitCnt + 1, cur := nextNode rom d.cur b.bit, mid := true, eoi := true,
               ctl := d.ctl.errorEntry .malformedStream } := by
  simp [Decoder.take, Decoder.endOfInput, Decoder.raise, Decoder.walkBit_eq, hr, hk, hl, hlast]

end

/-- A beat without payload, and any beat in DRAIN, is not walked (44_decoder.md R188). -/
theorem Decoder.take_of_pass (h : d.ctl.st ≠ .run ∨ b.keep = false) :
    d.take rom root b = if b.last then Decoder.endOfInput { d with eoi := true } else d := by
  have hn : ¬ (d.ctl.st = .run ∧ b.keep = true) := fun ⟨hr, hk⟩ => by simp [hr, hk] at h
  rw [Decoder.take, if_neg hn]

/-- The input ends in the middle of a code (44_decoder.md R189). -/
theorem Decoder.endOfInput_of_mid (hr : d.ctl.st = .run) (hm : d.mid = true) :
    d.endOfInput = { d with ctl := d.ctl.errorEntry .malformedStream } :=
  if_pos ⟨hr, hm⟩

theorem Decoder.endOfInput_of_not_mid (h : d.ctl.st ≠ .run ∨ d.mid = false) : d.endOfInput = d :=
  if_neg fun ⟨hr, hm⟩ => by simp [hr, hm] at h

end

/-- Settles O32: walked to a Leaf, walked to an Internal node, or passed; a ready decoder has
DEC_EOI = 0. -/
theorem decoderTakesABeat : Obligations.DecoderTakesABeat := by
  intro s b hready
  obtain ⟨-, heoi, -⟩ := s.decInReady_iff.1 hready
  refine ⟨s.takeDec b, rfl, rfl, ?_, fun hpass => ?_⟩
  · rintro _ rfl hr hk
    exact ⟨Decoder.take_of_leaf hr hk heoi, Decoder.take_of_node hr hk,
      Decoder.take_of_node_last hr hk⟩
  · rw [State.takeDec, State.setDec_dec, Decoder.take_of_pass hpass]
    refine ⟨fun hl => ?_, fun hl hr hm => ?_, fun hl hend => ?_⟩
    · rw [if_neg (Bool.eq_false_iff.1 hl), State.setDec_self]
    · rw [if_pos hl]
      exact Decoder.endOfInput_of_mid hr hm
    · rw [if_pos hl]
      exact Decoder.endOfInput_of_not_mid hend

/-! ## A beat given -/

section
variable {d : Decoder}

theorem Decoder.give_of_sym (ho : d.outV = true) :
    d.give = { d with outV := false, symCnt := d.symCnt + 1 } := if_pos ho

theorem Decoder.give_of_end (ho : d.outV = false) :
    d.give = { d with ctl := d.ctl.finish, eoi := false } := if_neg (Bool.eq_false_iff.1 ho)

end

/-- Settles O33: the symbol that waits, else the end beat. -/
theorem decoderGivesABeat : Obligations.DecoderGivesABeat := fun s hv =>
  ⟨s.giveDec, rfl, rfl, fun ho => ⟨State.decOut_sym hv ho, Decoder.give_of_sym ho⟩,
    fun ho => ⟨State.decOut_end hv ho, Decoder.give_of_end ho⟩⟩

end Sys2Proof.Machine
end

section
/-! PROOFS. What a decoder holds in the middle of its operation (44_decoder.md R188 to R190, R195): its registers
say where `decode` stands after the payload taken so far, and every beat keeps that. -/

namespace Sys2Proof.Machine

/-! ## The walk of `decode` -/

section
variable {rom : Handle → RomWord} {root : Handle}

theorem Walk.next_eq (w : Walk) (bit : Bool) : Walk.next rom root w bit =
    if (rom (nextNode rom w.cur bit)).leaf then
      { cur := root, mid := false, out := w.out ++ [(rom (nextNode rom w.cur bit)).sym] }
    else { cur := nextNode rom w.cur bit, mid := true, out := w.out } := rfl

theorem walkBits_append (ys zs : List Bool) :
    walkBits rom root (ys ++ zs) = zs.foldl (Walk.next rom root) (walkBits rom root ys) :=
  List.foldl_append

/-- The walk only adds symbols. -/
theorem Walk.out_prefix_foldl (w : Walk) (zs : List Bool) :
    w.out <+: (zs.foldl (Walk.next rom root) w).out := by
  induction zs generalizing w with
  | nil => exact List.prefix_rfl
  | cons z zs ih =>
    refine List.IsPrefix.trans ?_ (ih _)
    rw [Walk.next_eq]
    split
    · exact List.prefix_append ..
    · exact List.prefix_rfl

/-- Between two codes the walk stands at the root. -/
theorem walkBits_cur_of_not_mid {ys : List Bool} (h : (walkBits rom root ys).mid = false) :
    (walkBits rom root ys).cur = root := by
  rcases ys.eq_nil_or_concat' with rfl | ⟨ys, y, rfl⟩
  · rfl
  · rw [walkBits_append, List.foldl_cons, List.foldl_nil, Walk.next_eq] at h ⊢
    split at h <;> simp_all

end

/-! ## The operation that begins in a state -/

section
variable (s : State)

/-- The bits that a decode operation of `s` walks: with a Leaf at ROOT it drains its input and walks none
(44_decoder.md R186). -/
def State.walked (ys : List Bool) : List Bool := if (s.readRom s.root).leaf then [] else ys

/-- Where the operation stands after the payload `ys` (44_decoder.md R195). -/
def State.decoded (ys : List Bool) : Walk := walkBits s.readRom s.root (s.walked ys)

/-- The error of the operation after the payload `ys`: an input that ends in the middle of a code is
malformed (44_decoder.md R186, R189). -/
def State.decodeErr (ended : Bool) (ys : List Bool) : Option Err :=
  if (s.readRom s.root).leaf then some .singleSymbolInput
  else if ended && (s.decoded ys).mid then some .malformedStream
  else none

theorem State.walked_append (ys zs : List Bool) : s.walked (ys ++ zs) = s.walked ys ++ s.walked zs := by
  unfold State.walked
  split <;> rfl

theorem State.decoded_append (ys zs : List Bool) :
    s.decoded (ys ++ zs) = (s.walked zs).foldl (Walk.next s.readRom s.root) (s.decoded ys) := by
  rw [State.decoded, s.walked_append, walkBits_append, ← State.decoded]

theorem State.decoded_out_prefix_append (ys zs : List Bool) :
    (s.decoded ys).out <+: (s.decoded (ys ++ zs)).out := by
  rw [s.decoded_append]
  exact Walk.out_prefix_foldl ..

variable {s}

theorem State.walked_of_leaf (hr : (s.readRom s.root).leaf = true) (ys : List Bool) : s.walked ys = [] :=
  if_pos hr

theorem State.walked_of_node (hr : (s.readRom s.root).leaf = false) (ys : List Bool) :
    s.walked ys = ys := if_neg (Bool.eq_false_iff.1 hr)

theorem State.decoded_of_leaf (hr : (s.readRom s.root).leaf = true) (ys : List Bool) :
    s.decoded ys = .start s.root := by
  rw [State.decoded, State.walked_of_leaf hr]; rfl

theorem State.decoded_of_node (hr : (s.readRom s.root).leaf = false) (ys : List Bool) :
    s.decoded ys = walkBits s.readRom s.root ys := by
  rw [State.decoded, State.walked_of_node hr]

theorem State.decodeErr_of_leaf (hr : (s.readRom s.root).leaf = true) (ended : Bool) (ys : List Bool) :
    s.decodeErr ended ys = some .singleSymbolInput := if_pos hr

theorem State.decodeErr_of_node (hr : (s.readRom s.root).leaf = false) (ended : Bool) (ys : List Bool) :
    s.decodeErr ended ys = if ended && (s.decoded ys).mid then some .malformedStream else none :=
  if_neg (Bool.eq_false_iff.1 hr)

/-- What the operation delivers, in the words of 44_decoder.md R195. -/
theorem State.decoded_out (s : State) (ys : List Bool) : (s.decoded ys).out =
    if (s.readRom s.root).leaf then [] else (walkBits s.readRom s.root ys).out := by
  split
  · next hr => rw [State.decoded_of_leaf hr]; rfl
  · next hr => rw [State.decoded_of_node (Bool.eq_false_iff.2 hr)]

/-- `decode` of a whole payload is the operation's error or what it delivers. -/
theorem State.decodeSeq_eq (s : State) (ys : List Bool) : decodeSeq s.readRom s.root ys =
    (s.decodeErr true ys).elim (.ok (s.decoded ys).out) .error := by
  cases hr : (s.readRom s.root).leaf
  · rw [State.decodeErr_of_node hr, State.decoded_of_node hr, decodeSeq, hr]
    cases (walkBits s.readRom s.root ys).mid <;> rfl
  · rw [State.decodeErr_of_leaf hr, decodeSeq, hr]; rfl

section
variable {ys : List Bool}

theorem State.decodeSeq_eq_ok {x : List Sym} (h : decodeSeq s.readRom s.root ys = .ok x) :
    s.decodeErr true ys = none ∧ x = (s.decoded ys).out := by
  rw [s.decodeSeq_eq] at h
  cases he : s.decodeErr true ys with
  | none => rw [he] at h; exact ⟨rfl, (Except.ok.inj h).symm⟩
  | some e => simp [he] at h

theorem State.decodeSeq_eq_error {e : Err} (h : decodeSeq s.readRom s.root ys = .error e) :
    s.decodeErr true ys = some e := by
  rw [s.decodeSeq_eq] at h
  cases he : s.decodeErr true ys with
  | none => simp [he] at h
  | some e' => simpa [he] using h

/-- Without an error the root is Internal and the input ends between two codes. -/
theorem State.decodeErr_eq_none (h : s.decodeErr true ys = none) :
    (s.readRom s.root).leaf = false ∧ (s.decoded ys).mid = false := by
  cases hr : (s.readRom s.root).leaf
  · rw [State.decodeErr_of_node hr] at h
    exact ⟨rfl, by simpa using h⟩
  · simp [State.decodeErr_of_leaf hr] at h

/-- A malformed input ends in the middle of a code below an Internal root. -/
theorem State.decodeErr_eq_malformed (h : s.decodeErr true ys = some .malformedStream) :
    (s.readRom s.root).leaf = false ∧ (s.decoded ys).mid = true := by
  cases hr : (s.readRom s.root).leaf
  · rw [State.decodeErr_of_node hr] at h
    exact ⟨rfl, by simpa using h⟩
  · simp [State.decodeErr_of_leaf hr] at h

theorem State.decodeErr_eq_single (h : s.decodeErr true ys = some .singleSymbolInput) :
    (s.readRom s.root).leaf = true := by
  by_contra hr
  rw [State.decodeErr_of_node (Bool.eq_false_iff.2 hr)] at h
  split at h <;> simp at h

end

end

/-! ## The walk in the registers -/

/-- Where `decode` stands as the registers of `d` have it, the symbols `sent` having been delivered. -/
def Decoder.walk (d : Decoder) (sent : List Sym) : Walk :=
  { cur := d.cur, mid := d.mid, out := sent ++ if d.outV then [d.outSym] else [] }

section
variable {d : Decoder} {rom : Handle → RomWord} {root : Handle} {b : BitBeat}

theorem Decoder.walk_take_of_keep (hr : d.ctl.st = .run) (hk : b.keep = true) (ho : d.outV = false)
    (sent : List Sym) :
    (d.take rom root b).walk sent = Walk.next rom root (d.walk sent) b.bit := by
  unfold Decoder.walk
  rw [Walk.next_eq, Decoder.take_cur, Decoder.take_mid, Decoder.take_outV, Decoder.take_outSym]
  cases (rom (nextNode rom d.cur b.bit)).leaf <;> simp [hr, hk, ho]

theorem Decoder.walk_take_of_not_keep (hk : b.keep = false) (sent : List Sym) :
    (d.take rom root b).walk sent = d.walk sent := by
  unfold Decoder.walk
  rw [Decoder.take_cur, Decoder.take_mid, Decoder.take_outV, Decoder.take_outSym]
  simp [hk]

theorem Decoder.take_bitCnt : (d.take rom root b).bitCnt =
    if d.ctl.st = .run ∧ b.keep = true then d.bitCnt + 1 else d.bitCnt := by
  obtain ⟨-, -, -, -, hbit, -⟩ := d.take_walk rom root b
  rw [hbit]
  split <;> simp [Decoder.walkBit_eq]

theorem Decoder.take_symCnt : (d.take rom root b).symCnt = d.symCnt := by
  obtain ⟨-, -, -, -, -, hsym⟩ := d.take_walk rom root b
  rw [hsym]
  split <;> simp [Decoder.walkBit_symCnt]

/-- A symbol that waits is one that the walk has already added. -/
theorem Decoder.walk_give (ho : d.outV = true) (sent : List Sym) :
    d.give.walk (sent ++ [d.outSym]) = d.walk sent := by
  simp [Decoder.give_of_sym ho, Decoder.walk, ho]

end

theorem bitPayload_cons_of_keep {b : BitBeat} (hk : b.keep = true) (bs : List BitBeat) :
    bitPayload (b :: bs) = b.bit :: bitPayload bs := by
  simp [bitPayload, hk]

theorem bitPayload_cons_of_not_keep {b : BitBeat} (hk : b.keep = false) (bs : List BitBeat) :
    bitPayload (b :: bs) = bitPayload bs := by
  simp [bitPayload, hk]

theorem bitPayload_append (bs cs : List BitBeat) :
    bitPayload (bs ++ cs) = bitPayload bs ++ bitPayload cs := by
  simp [bitPayload]

/-! ## The registers in the middle of an operation -/

/-- `d` is a busy decoder that has taken the payload `ys`, with the tree of `s`, and given the symbols
`sent`. -/
structure Decoder.Decoded (s : State) (d : Decoder) (ys : List Bool) (sent : List Sym) : Prop where
  ctl : d.ctl = (s.decodeErr d.eoi ys).elim .start UnitCtl.start.errorEntry
  walk : d.walk sent = s.decoded ys
  bitCnt : d.bitCnt = BitVec.ofNat 32 (s.walked ys).length
  symCnt : d.symCnt = BitVec.ofNat 32 sent.length

theorem State.decoded_decStarted (s : State) : s.decStarted.Decoded s [] [] := by
  cases hr : (s.readRom s.root).leaf
  · rw [State.decStarted_of_node hr]
    exact ⟨by simp [State.decodeErr_of_node hr], (State.decoded_of_node hr []).symm,
      by rw [State.walked_of_node hr]; rfl, rfl⟩
  · rw [State.decStarted_of_leaf hr]
    exact ⟨by simp [State.decodeErr_of_leaf hr], (State.decoded_of_leaf hr []).symm,
      by rw [State.walked_of_leaf hr]; rfl, rfl⟩

section
variable {s : State} {d : Decoder} {ys : List Bool} {sent : List Sym} (h : d.Decoded s ys sent)
include h

theorem Decoder.Decoded.busy : d.ctl.st ≠ .idle := by
  rw [h.ctl]
  cases s.decodeErr d.eoi ys <;> nofun

theorem Decoder.Decoded.not_done : d.ctl.done = false := by
  rw [h.ctl]
  cases s.decodeErr d.eoi ys <;> rfl

theorem Decoder.Decoded.cur : d.cur = (s.decoded ys).cur := congrArg Walk.cur h.walk

theorem Decoder.Decoded.mid : d.mid = (s.decoded ys).mid := congrArg Walk.mid h.walk

/-- The symbols given are the front of what the operation delivers, whatever payload follows. -/
theorem Decoder.Decoded.sent_prefix (zs : List Bool) : sent <+: (s.decoded (ys ++ zs)).out := by
  refine List.IsPrefix.trans ?_ (s.decoded_out_prefix_append ys zs)
  rw [← h.walk]
  exact List.prefix_append ..

theorem Decoder.Decoded.sent_eq (ho : d.outV = false) : sent = (s.decoded ys).out := by
  rw [← h.walk]
  simp [Decoder.walk, ho]

/-- With a Leaf at ROOT any beat is drained. -/
theorem Decoder.Decoded.take_of_leaf (hr : (s.readRom s.root).leaf = true) (b : BitBeat)
    (zs : List Bool) : (d.take s.readRom s.root b).Decoded s (ys ++ zs) sent := by
  obtain ⟨hctl, hwalk, hbit, hsym⟩ := h
  rw [State.decodeErr_of_leaf hr] at hctl
  rw [State.decoded_of_leaf hr] at hwalk
  rw [State.walked_of_leaf hr] at hbit
  rw [Decoder.take_drain _ _ _ _ (by simp [hctl])]
  exact ⟨by rw [State.decodeErr_of_leaf hr]; exact hctl, by rw [State.decoded_of_leaf hr]; exact hwalk,
    by rw [State.walked_of_leaf hr]; exact hbit, hsym⟩

section
variable (heoi : d.eoi = false) (hr : (s.readRom s.root).leaf = false)
include heoi hr

/-- Before its last beat an operation below an Internal root is in RUN. -/
theorem Decoder.Decoded.ctl_of_node : d.ctl = .start := by
  rw [h.ctl, heoi, State.decodeErr_of_node hr]; rfl

/-- A beat below an Internal root adds the bits that its registers show to have been walked. -/
theorem Decoder.Decoded.take_of_node (b : BitBeat) (zs : List Bool)
    (hwalk : (d.take s.readRom s.root b).walk sent = s.decoded (ys ++ zs))
    (hbit : (d.take s.readRom s.root b).bitCnt = BitVec.ofNat 32 (ys ++ zs).length) :
    (d.take s.readRom s.root b).Decoded s (ys ++ zs) sent := by
  have hmid : (d.take s.readRom s.root b).mid = (s.decoded (ys ++ zs)).mid := congrArg Walk.mid hwalk
  refine ⟨?_, hwalk, by rw [State.walked_of_node hr, hbit], Decoder.take_symCnt.trans h.symCnt⟩
  rw [Decoder.take_ctl, Decoder.take_eoi, State.decodeErr_of_node hr, hmid, h.ctl_of_node heoi hr, heoi]
  cases b.last <;> cases (s.decoded (ys ++ zs)).mid <;> rfl

end

/-- A beat taken with no symbol waiting adds its payload. -/
theorem Decoder.Decoded.take (heoi : d.eoi = false) (ho : d.outV = false) (b : BitBeat) :
    (d.take s.readRom s.root b).Decoded s (ys ++ bitPayload [b]) sent := by
  cases hr : (s.readRom s.root).leaf
  case true => exact h.take_of_leaf hr b _
  case false =>
    have hrun : d.ctl.st = .run := congrArg UnitCtl.st (h.ctl_of_node heoi hr)
    have hbit := h.bitCnt
    rw [State.walked_of_node hr] at hbit
    cases hk : b.keep
    case false =>
      rw [bitPayload_cons_of_not_keep hk]
      refine h.take_of_node heoi hr b [] ?_ ?_
      · rw [Decoder.walk_take_of_not_keep hk, List.append_nil, h.walk]
      · rw [Decoder.take_bitCnt, if_neg (by simp [hk]), List.append_nil, hbit]
    case true =>
      rw [bitPayload_cons_of_keep hk]
      refine h.take_of_node heoi hr b [b.bit] ?_ ?_
      · rw [Decoder.walk_take_of_keep hrun hk ho, h.walk, s.decoded_append, State.walked_of_node hr]; rfl
      · rw [Decoder.take_bitCnt, if_pos ⟨hrun, hk⟩, List.length_append, BitVec.ofNat_add, hbit]; rfl

theorem Decoder.Decoded.give (ho : d.outV = true) : d.give.Decoded s ys (sent ++ [d.outSym]) := by
  refine ⟨?_, (Decoder.walk_give ho sent).trans h.walk, ?_, ?_⟩
  · rw [Decoder.give_ctl, Decoder.give_eoi, if_pos ho, if_pos ho, h.ctl]
  · rw [Decoder.give_of_sym ho, ← h.bitCnt]
  · rw [Decoder.give_of_sym ho, List.length_append, BitVec.ofNat_add, ← h.symCnt]; rfl

end

end Sys2Proof.Machine
end

section
/-! PROOFS. The decoder on the bench (44_decoder.md R186 to R191, 20_memory.md R70): what an edge moves through
its two ports, and how far an operation has come. -/

namespace Sys2Proof.Machine

/-! ## One edge -/

/-- The beat that `dec_out` delivers at an edge, if `valid` meets `ready` there (20_memory.md R70). -/
def Bench.decDelivered (b : Bench) (w : Wish) : Option SymBeat :=
  if (outputs (b.drive w) b.st).decOutValid && (b.drive w).decOutReady then
    some (outputs (b.drive w) b.st).decOut
  else none

section
variable (b : Bench) (w : Wish)

theorem Bench.edge_decQ : (b.edge w).decQ =
    if !b.wired && (b.drive w).decInValid && (outputs (b.drive w) b.st).decInReady then b.decQ.tail
    else b.decQ := by
  rw [Bench.edge, b.step_edge w]

theorem Bench.edge_decGot : (b.edge w).decGot = b.decGot ++ (b.decDelivered w).toList := by
  rw [Bench.edge, b.step_edge w]
  simp only [Bench.decDelivered]
  split <;> simp

theorem Bench.edge_decFrame : (b.edge w).decFrame =
    nextFrame (!w.rst && (b.drive w).isCommand .decStart && !b.st.decLocked) (b.decDelivered w)
      b.decFrame := by
  rw [Bench.edge, b.step_edge w]; rfl

end

section
variable {b : Bench} {w : Wish}

theorem Bench.edge_decFrame_of_not_start (hs : ¬ (b.drive w).commands .decStart) :
    (b.edge w).decFrame = b.decFrame ++ (b.decDelivered w).toList := by
  have hn : (b.drive w).isCommand .decStart = false :=
    Bool.eq_false_iff.2 (mt (Pins.isCommand_iff _ _).1 hs)
  rw [Bench.edge_decFrame, hn, Bool.and_false, Bool.false_and, nextFrame, if_neg Bool.false_ne_true]

theorem Bench.decDelivered_eq (hr : w.rst = false) : b.decDelivered w =
    if b.st.decOutValid && w.acceptDec then some b.st.decOut else none := by
  simp [Bench.decDelivered, outputs, Bench.drive, hr]

/-- DEC_START on the bench: an idle decoder starts, has no beat at that edge, and its output frame is
empty. -/
theorem Bench.edge_decStart (hi : b.st.dec.ctl.st = .idle) (hr : w.rst = false)
    (hh : w.host = some (Reg.cmd.index, encode .decStart)) :
    (b.edge w).st.dec = b.st.decStarted ∧ (b.edge w).st.rom = b.st.rom ∧
      (b.edge w).st.root = b.st.root ∧ (b.edge w).decQ = b.decQ ∧ (b.edge w).decGot = b.decGot ∧
      (b.edge w).decFrame = [] := by
  have hin : b.st.decInReady = false := State.decInReady_of_idle hi
  have hout : b.st.decOutValid = false := State.decOutValid_of_idle hi
  have hc : (b.drive w).commands .decStart := b.drive_commands_iff.2 hh
  have hdel : b.decDelivered w = none := by simp [Bench.decDelivered, outputs, hout]
  have hstep := b.step_edge w
  rw [step_command hr hc _ _ (by decide), exec_decStart_of_idle (s := b.st.setPins []) hi, andThen_next,
    runEvents_transfers, Host.Outcome.next.injEq] at hstep
  refine ⟨?_, ?_, ?_, by simp [Bench.edge_decQ, outputs, hin], by simp [Bench.edge_decGot, hdel], ?_⟩
  · rw [← hstep, State.afterTransfers_dec, hin, hout, Bool.and_false, Bool.and_false]; rfl
  · rw [← hstep, State.afterTransfers_rom]; rfl
  · rw [← hstep, State.afterTransfers_root]; rfl
  · simp [Bench.edge_decFrame, hdel, nextFrame, hr, (Pins.isCommand_iff _ _).2 hc,
      b.st.decLocked_eq_false_iff.2 hi]

/-- A calm edge without DEC_START on the bench: the decoder takes the next beat of its queue, gives its own
beat, or stays. -/
theorem Bench.edge_dec (hw : b.wired = false) (hc : (b.drive w).calm)
    (hs : ¬ (b.drive w).commands .decStart) :
    (∃ x, b.st.decInReady = true ∧ b.decQ = x :: (b.edge w).decQ ∧
      (b.edge w).decFrame = b.decFrame ∧
      (b.edge w).st.dec = b.st.dec.take b.st.readRom b.st.root x) ∨
    (b.st.decOutValid = true ∧ (b.edge w).decQ = b.decQ ∧
      (b.edge w).decFrame = b.decFrame ++ [b.st.decOut] ∧ (b.edge w).st.dec = b.st.dec.give) ∨
    ((w.offerDec = true → b.st.decInReady = true → b.decQ = []) ∧
      (w.acceptDec = true → b.st.decOutValid = false) ∧ (b.edge w).decQ = b.decQ ∧
      (b.edge w).decFrame = b.decFrame ∧ (b.edge w).st.dec = b.st.dec) := by
  have hready : (outputs (b.drive w) b.st).decInReady = b.st.decInReady := by simp [outputs, hc.1]
  have hoffer : (b.drive w).decInValid = (w.offerDec && !b.decQ.isEmpty) := by simp [Bench.drive, hw]
  have haccept : (b.drive w).decOutReady = w.acceptDec := rfl
  have hbeat : (b.drive w).decIn = b.decQ.headD .null := by simp [Bench.drive, hw]
  rw [Bench.edge_decQ, hready, hw, Bool.not_false, Bool.true_and, Bench.edge_decFrame_of_not_start hs,
    Bench.decDelivered_eq hc.1]
  rcases step_calm_dec hc (b.step_edge w) with
    ⟨-, hp, -⟩ | ⟨hv, hr, hd⟩ | ⟨ha, hv, hd⟩ | ⟨hn, hn', hd⟩
  · exact absurd hp hs
  · cases hx : b.decQ with
    | nil => simp [hoffer, hx] at hv
    | cons x q =>
      rw [hbeat, hx] at hd
      exact .inl ⟨x, hr, by simp [hv, hr], by simp [State.dec_exclusive hr], hd⟩
  · rw [haccept] at ha
    exact .inr (.inl ⟨hv, by simp [State.decInReady_of_offer hv], by simp [hv, ha], hd⟩)
  · rw [haccept] at hn'
    refine .inr (.inr ⟨fun ho hr => ?_, fun ha => ?_, by simp [hn],
      by simp [Bool.and_comm, hn'], hd⟩)
    · simpa [hoffer, ho, hr] using hn
    · simpa [ha] using hn'

theorem Bench.edge_dec_of_idle (hw : b.wired = false) (hc : (b.drive w).calm)
    (hs : ¬ (b.drive w).commands .decStart) (hi : b.st.dec.ctl.st = .idle) :
    (b.edge w).decQ = b.decQ ∧ (b.edge w).decFrame = b.decFrame ∧
      (b.edge w).st.dec = b.st.dec := by
  obtain ⟨x, hr, -⟩ | ⟨hv, -⟩ | ⟨-, -, h⟩ := Bench.edge_dec hw hc hs
  · simp [State.decInReady_of_idle hi] at hr
  · simp [State.decOutValid_of_idle hi] at hv
  · exact h

/-- Eager edges carry no host write, so the tree stays as it is even where nothing locks it. -/
theorem Bench.settle_tree (k : Nat) (b : Bench) :
    (b.settle k).st.rom = b.st.rom ∧ (b.settle k).st.root = b.st.root := by
  induction k generalizing b with
  | zero => exact ⟨rfl, rfl⟩
  | succ k ih =>
    have hstep := b.step_edge .eager
    rw [step_silent rfl rfl, Host.Outcome.next.injEq] at hstep
    have hrom : (b.edge .eager).st.rom = b.st.rom := by rw [← hstep, State.afterTransfers_rom]; rfl
    have hroot : (b.edge .eager).st.root = b.st.root := by rw [← hstep, State.afterTransfers_root]; rfl
    obtain ⟨hrom', hroot'⟩ := ih (b.edge .eager)
    exact ⟨hrom'.trans hrom, hroot'.trans hroot⟩

/-- Without DEC_START whatever `dec_out` delivers goes into the output frame. -/
theorem Bench.run_decGot {ws : List Wish} {before : List SymBeat}
    (hws : ∀ v ∈ ws, v.host ≠ some (Reg.cmd.index, encode .decStart))
    (h : b.decGot = before ++ b.decFrame) : (b.run ws).decGot = before ++ (b.run ws).decFrame := by
  induction ws generalizing b with
  | nil => exact h
  | cons w ws ih =>
    obtain ⟨hw, hws⟩ := List.forall_mem_cons.1 hws
    refine ih hws ?_
    rw [Bench.edge_decGot, Bench.edge_decFrame_of_not_start (mt b.drive_commands_iff.1 hw), h,
      List.append_assoc]

theorem Bench.settle_decGot {before : List SymBeat} (h : b.decGot = before ++ b.decFrame) (k : Nat) :
    (b.settle k).decGot = before ++ (b.settle k).decFrame :=
  Bench.run_decGot (fun _ hv => List.eq_of_mem_replicate hv ▸ nofun) h

end

/-- A busy decoder accepts a beat or offers one (44_decoder.md R187). -/
theorem State.decInReady_or_decOutValid {s : State} (hb : s.dec.ctl.st ≠ .idle) :
    s.decInReady = true ∨ s.decOutValid = true := by
  by_cases hoffer : s.dec.outV = true ∨ s.dec.eoi = true
  · exact .inr (s.decOutValid_iff.2 ⟨hb, hoffer⟩)
  · obtain ⟨ho, heoi⟩ := not_or.1 hoffer
    exact .inl (s.decInReady_iff.2 ⟨hb, Bool.eq_false_iff.2 heoi, Bool.eq_false_iff.2 ho⟩)

/-! ## How far an operation has come -/

/-- The beat that carries a symbol on `dec_out` (44_decoder.md R190). -/
def SymBeat.payload (sym : Sym) : SymBeat := { sym := sym, keep := true, last := false }

/-- The decode operation of `b` began in `s`. It has taken the beats `taken` of its frame and given the
symbols `sent`; the rest `left` of the frame, and behind it `rest`, wait at `dec_in`. -/
structure Bench.Decoding (b : Bench) (s : State) (taken left rest : List BitBeat)
    (sent : List Sym) : Prop where
  wired : b.wired = false
  readRom : b.st.readRom = s.readRom
  root : b.st.root = s.root
  dec : b.st.dec.Decoded s (bitPayload taken) sent
  eoi : if b.st.dec.eoi then left = [] else isFrame BitBeat.last left = true
  queue : b.decQ = left ++ rest
  out : b.decFrame = sent.map .payload

/-- The decode operation of `b` began in `s` and has ended: it took `frame` and delivered its output frame. -/
structure Bench.DecodeEnded (b : Bench) (s : State) (frame rest : List BitBeat) : Prop where
  wired : b.wired = false
  dec : ∃ d : Decoder, d.eoi = true ∧
    d.Decoded s (bitPayload frame) (s.decoded (bitPayload frame)).out ∧
    b.st.dec = { d with ctl := d.ctl.finish, eoi := false }
  queue : b.decQ = rest
  out : b.decFrame = symFrame (s.decoded (bitPayload frame)).out

/-- DEC_START begins an operation at the front of the queue. -/
theorem Bench.decoding_edge_decStart {b : Bench} {w : Wish} {frame rest : List BitBeat}
    (hw : b.wired = false) (hi : b.st.dec.ctl.st = .idle) (hf : isFrame BitBeat.last frame = true)
    (hq : b.decQ = frame ++ rest) (hr : w.rst = false)
    (hh : w.host = some (Reg.cmd.index, encode .decStart)) :
    (b.edge w).Decoding b.st [] frame rest [] := by
  obtain ⟨hdec, hrom, hroot, hqueue, -, hout⟩ := Bench.edge_decStart hi hr hh
  exact ⟨(b.edge_wired w).trans hw, State.readRom_congr (b.edge_params w) hrom, hroot,
    hdec ▸ b.st.decoded_decStarted, hdec ▸ hf, hqueue.trans hq, hout⟩

section
variable {b : Bench} {w : Wish} {s : State} {taken left rest : List BitBeat} {sent : List Sym}

theorem Bench.DecodeEnded.idle (h : b.DecodeEnded s taken rest) : b.st.dec.ctl.st = .idle := by
  obtain ⟨d, -, -, hd⟩ := h.dec
  rw [hd]; rfl

/-- The beat that a ready decoder waits for is one of its frame. -/
theorem Bench.Decoding.exists_left (h : b.Decoding s taken left rest sent)
    (hr : b.st.decInReady = true) : ∃ x left', left = x :: left' := by
  obtain ⟨-, heoi, -⟩ := b.st.decInReady_iff.1 hr
  have hf := h.eoi
  rw [heoi] at hf
  cases left with
  | nil => simp [isFrame] at hf
  | cons x left => exact ⟨x, left, rfl⟩

/-- An edge without a beat lacks an offer or an acceptance. -/
theorem Bench.Decoding.stalled (h : b.Decoding s taken left rest sent)
    (ho : w.offerDec = true → b.st.decInReady = true → b.decQ = [])
    (ha : w.acceptDec = true → b.st.decOutValid = false) :
    w.offerDec = false ∨ w.acceptDec = false := by
  rcases State.decInReady_or_decOutValid h.dec.busy with hr | hv
  · obtain ⟨x, left', rfl⟩ := h.exists_left hr
    exact .inl (Bool.eq_false_iff.2 fun hx => by simpa [h.queue] using ho hx hr)
  · exact .inr (Bool.eq_false_iff.2 fun hx => by simpa [hv] using ha hx)

/-! ## The edges of an operation -/

section
variable (hc : (b.drive w).calm) (hs : ¬ (b.drive w).commands .decStart)
include hc

/-- An edge of an operation goes on with it from what it leaves in the decoder and at its ports: the tree is
locked. -/
theorem Bench.Decoding.next (h : b.Decoding s taken left rest sent) {taken' left' : List BitBeat}
    {sent' : List Sym} (hdec : (b.edge w).st.dec.Decoded s (bitPayload taken') sent')
    (heoi : if (b.edge w).st.dec.eoi then left' = [] else isFrame BitBeat.last left' = true)
    (hq : (b.edge w).decQ = left' ++ rest) (ho : (b.edge w).decFrame = sent'.map .payload) :
    (b.edge w).Decoding s taken' left' rest sent' := by
  obtain ⟨hread, hroot⟩ := step_calm_tree_of_busy hc (b.step_edge w) h.dec.busy
  exact ⟨(b.edge_wired w).trans h.wired, hread.trans h.readRom, hroot.trans h.root, hdec, heoi, hq, ho⟩

/-- A beat taken is the next one of the frame. -/
theorem Bench.Decoding.edge_of_take (h : b.Decoding s taken left rest sent) {x : BitBeat}
    (hr : b.st.decInReady = true) (hq : b.decQ = x :: (b.edge w).decQ)
    (ho : (b.edge w).decFrame = b.decFrame)
    (hd : (b.edge w).st.dec = b.st.dec.take b.st.readRom b.st.root x) :
    ∃ left', left = x :: left' ∧ (b.edge w).Decoding s (taken ++ [x]) left' rest sent := by
  obtain ⟨y, left', rfl⟩ := h.exists_left hr
  obtain ⟨rfl, hq⟩ := List.cons.inj (hq.symm.trans h.queue)
  obtain ⟨-, h0, hout⟩ := b.st.decInReady_iff.1 hr
  have hf := h.eoi
  rw [h0] at hf
  refine ⟨left', rfl, h.next hc ?_ ?_ hq (ho.trans h.out)⟩
  · rw [hd, h.readRom, h.root, bitPayload_append]
    exact h.dec.take h0 hout x
  · rw [hd, Decoder.take_eoi, h0, Bool.or_false]
    obtain ⟨hnil, hl⟩ | ⟨hl, hf⟩ := (isFrame_cons_iff _ _ _).1 hf
    · simp [hl, hnil]
    · simp [hl, hf]

/-- A beat given is the symbol that waits, else the end beat. -/
theorem Bench.Decoding.edge_of_give (h : b.Decoding s taken left rest sent)
    (hv : b.st.decOutValid = true) (hq : (b.edge w).decQ = b.decQ)
    (ho : (b.edge w).decFrame = b.decFrame ++ [b.st.decOut]) (hd : (b.edge w).st.dec = b.st.dec.give) :
    (∃ sym, (b.edge w).Decoding s taken left rest (sent ++ [sym])) ∨
      left = [] ∧ (b.edge w).DecodeEnded s taken rest := by
  cases hout : b.st.dec.outV
  case false =>
    obtain ⟨-, hoffer⟩ := b.st.decOutValid_iff.1 hv
    have heoi : b.st.dec.eoi = true := hoffer.resolve_left (Bool.eq_false_iff.1 hout)
    have hleft : left = [] := by simpa [heoi] using h.eoi
    have hsent := h.dec.sent_eq hout
    refine .inr ⟨hleft, (b.edge_wired w).trans h.wired, ⟨_, heoi, hsent ▸ h.dec, ?_⟩, ?_, ?_⟩
    · rw [hd, Decoder.give_of_end hout]
    · rw [hq, h.queue, hleft, List.nil_append]
    · rw [ho, h.out, State.decOut_end hv hout, hsent]; rfl
  case true =>
    refine .inl ⟨_, h.next hc (hd ▸ h.dec.give hout) ?_ (hq.trans h.queue) ?_⟩
    · rw [hd, Decoder.give_of_sym hout]
      exact h.eoi
    · rw [ho, h.out, State.decOut_sym hv hout, List.map_append]; rfl

include hs

/-- A calm edge of an operation: a beat taken, a symbol given, the end beat given, or no beat for want of an
offer or of an acceptance. -/
theorem Bench.Decoding.edge (h : b.Decoding s taken left rest sent) :
    (∃ x left', left = x :: left' ∧ (b.edge w).Decoding s (taken ++ [x]) left' rest sent) ∨
    (∃ sym, (b.edge w).Decoding s taken left rest (sent ++ [sym])) ∨
    (left = [] ∧ (b.edge w).DecodeEnded s taken rest) ∨
    ((w.offerDec = false ∨ w.acceptDec = false) ∧ (b.edge w).Decoding s taken left rest sent) := by
  rcases Bench.edge_dec h.wired hc hs with
    ⟨x, hr, hq, ho, hd⟩ | ⟨hv, hq, ho, hd⟩ | ⟨hoffer, haccept, hq, ho, hd⟩
  · exact .inl ⟨x, h.edge_of_take hc hr hq ho hd⟩
  · exact .inr ((h.edge_of_give hc hv hq ho hd).imp_right .inl)
  · exact .inr (.inr (.inr ⟨h.stalled hoffer haccept, h.next hc (hd ▸ h.dec) (hd ▸ h.eoi)
      (hq.trans h.queue) (ho.trans h.out)⟩))

/-- What has ended stays as it is until the next DEC_START. -/
theorem Bench.DecodeEnded.edge (h : b.DecodeEnded s taken rest) :
    (b.edge w).DecodeEnded s taken rest := by
  obtain ⟨hqueue, hout, hdec⟩ := Bench.edge_dec_of_idle h.wired hc hs h.idle
  exact ⟨(b.edge_wired w).trans h.wired, hdec ▸ h.dec, hqueue.trans h.queue, hout.trans h.out⟩

end

end

end Sys2Proof.Machine
end

section
/-! PROOFS. The decode operation as a whole (44_decoder.md R195, 70_reset_and_hazards.md R247): eager edges run
it to its end, and no schedule changes what it delivers. -/

namespace Sys2Proof.Machine

/-! ## Eager edges -/

section
variable {b : Bench} {s : State} {taken left rest : List BitBeat} {sent : List Sym}

theorem Bench.DecodeEnded.settle (h : b.DecodeEnded s taken rest) (k : Nat) :
    (b.settle k).DecodeEnded s taken rest := by
  induction k generalizing b with
  | zero => exact h
  | succ k ih => exact ih (h.edge b.drive_eager_calm (b.drive_eager_commands _))

/-- What an operation that has taken `taken` and given `sent` has still to do: the beats left, the symbols
left and the end beat. -/
def State.decodeWork (s : State) (taken left : List BitBeat) (sent : List Sym) : Nat :=
  left.length + ((s.decoded (bitPayload (taken ++ left))).out.length - sent.length) + 1

/-- Enough eager edges run an operation to its end. -/
theorem Bench.Decoding.settle (h : b.Decoding s taken left rest sent) {k : Nat}
    (hk : s.decodeWork taken left sent ≤ k) : (b.settle k).DecodeEnded s (taken ++ left) rest := by
  induction k generalizing b taken left sent with
  | zero => exact absurd hk (Nat.not_succ_le_zero _)
  | succ k ih =>
    unfold State.decodeWork at ih hk
    rcases h.edge b.drive_eager_calm (b.drive_eager_commands _) with
      ⟨x, left', rfl, h'⟩ | ⟨sym, h'⟩ | ⟨rfl, h'⟩ | ⟨hno, -⟩
    · rw [List.append_cons] at hk ⊢
      exact ih h' (by rw [List.length_cons] at hk; omega)
    · have hlen : (sent ++ [sym]).length ≤ (s.decoded (bitPayload (taken ++ left))).out.length := by
        rw [bitPayload_append]
        exact (h'.dec.sent_prefix _).length_le
      rw [List.length_append, List.length_singleton] at hlen
      exact ih h' (by rw [List.length_append, List.length_singleton]; omega)
    · rw [List.append_nil]
      exact h'.settle k
    · exact absurd hno (by decide)

/-- The work of a whole operation: its input beats, at most the symbols of the walk, and the end beat. -/
theorem State.decodeWork_le (s : State) (frame : List BitBeat) : s.decodeWork [] frame [] ≤
    frame.length + (walkBits s.readRom s.root (bitPayload frame)).out.length + 1 := by
  rw [State.decodeWork, List.nil_append, s.decoded_out]
  split
  · exact Nat.succ_le_succ (Nat.add_le_add_left (Nat.zero_le _) _)
  · exact le_rfl

/-- An idle decoder with a frame in its queue, after DEC_START and enough eager edges. -/
theorem Bench.decodeEnded_of_decStart {frame : List BitBeat} {k : Nat} (hw : b.wired = false)
    (hi : b.st.dec.ctl.st = .idle) (hf : isFrame BitBeat.last frame = true)
    (hq : b.decQ = frame ++ rest) (hk : b.st.decodeWork [] frame [] ≤ k) :
    ((b.edge (.write Reg.cmd.index (encode .decStart))).settle k).DecodeEnded b.st frame rest :=
  (Bench.decoding_edge_decStart hw hi hf hq rfl rfl).settle hk

end

/-- At the end of its input the decoder's error is that of `decode`. -/
theorem Decoder.Decoded.err_of_eoi {s : State} {d : Decoder} {ys : List Bool} {sent : List Sym}
    (h : d.Decoded s ys sent) (heoi : d.eoi = true) :
    d.ctl.err = (s.decodeErr true ys).getD .none := by
  rw [h.ctl, heoi]
  cases s.decodeErr true ys <;> rfl

/-- Settles O50: DEC_START begins an operation, and the eager edges are enough for its work; what it leaves
is read off the decoder that gave the end beat. -/
theorem decodeOperationContract : Obligations.DecodeOperationContract := by
  rintro b c frame rest k _ hw hi hf hq hg rfl hk rfl
  obtain ⟨-, hrom, hroot, -, hgot, hframe⟩ :=
    Bench.edge_decStart (w := .write Reg.cmd.index (encode .decStart)) hi rfl rfl
  obtain ⟨hrom', hroot'⟩ := Bench.settle_tree k (b.edge (.write Reg.cmd.index (encode .decStart)))
  obtain ⟨-, ⟨d, heoi, hdec, hd⟩, hqueue, hout⟩ :=
    Bench.decodeEnded_of_decStart hw hi hf hq ((b.st.decodeWork_le frame).trans hk)
  have hall := (Bench.settle_decGot (before := []) (by rw [hgot, hg, hframe]; rfl) k).trans hout
  have herr := hdec.err_of_eoi heoi
  rw [hd, hall]
  refine ⟨hqueue, hrom'.trans hrom, hroot'.trans hroot, rfl, rfl, fun x hx => ?_, fun hx => ?_,
    fun hx => ?_⟩
  · obtain ⟨hnone, rfl⟩ := State.decodeSeq_eq_ok hx
    obtain ⟨hr, hmid⟩ := State.decodeErr_eq_none hnone
    rw [hnone] at herr
    refine ⟨rfl, herr, by rw [hdec.bitCnt, State.walked_of_node hr], hdec.symCnt, ?_,
      hdec.mid.trans hmid⟩
    exact hdec.cur.trans (walkBits_cur_of_not_mid hmid)
  · have hmal := State.decodeSeq_eq_error hx
    obtain ⟨hr, hmid⟩ := State.decodeErr_eq_malformed hmal
    rw [hmal] at herr
    rw [← State.decoded_of_node hr]
    exact ⟨rfl, herr, hdec.mid.trans hmid, hdec.cur⟩
  · have hsingle := State.decodeSeq_eq_error hx
    have hr := State.decodeErr_eq_single hsingle
    rw [hsingle] at herr
    exact ⟨by rw [State.decoded_of_leaf hr]; rfl, herr, by rw [hdec.bitCnt, State.walked_of_leaf hr]; rfl⟩

/-! ## Any schedule -/

/-- The decode operation over `frame` that began in `s` is on its way or has ended. -/
def Bench.Decodes (b : Bench) (s : State) (frame rest : List BitBeat) : Prop :=
  (∃ taken left sent, taken ++ left = frame ∧ b.Decoding s taken left rest sent) ∨
    b.DecodeEnded s frame rest

section
variable {b : Bench} {s : State} {frame rest : List BitBeat}

theorem Bench.Decodes.edge {w : Wish} (hc : (b.drive w).calm)
    (hs : ¬ (b.drive w).commands .decStart) (h : b.Decodes s frame rest) :
    (b.edge w).Decodes s frame rest := by
  obtain ⟨taken, left, sent, rfl, h⟩ | h := h
  · rcases h.edge hc hs with ⟨x, left', rfl, h'⟩ | ⟨sym, h'⟩ | ⟨rfl, h'⟩ | ⟨-, h'⟩
    · exact .inl ⟨_, left', sent, (List.append_cons ..).symm, h'⟩
    · exact .inl ⟨taken, left, _, rfl, h'⟩
    · exact .inr ((List.append_nil taken).symm ▸ h')
    · exact .inl ⟨taken, left, sent, rfl, h'⟩
  · exact .inr (h.edge hc hs)

theorem Bench.Decodes.run {ws : List Wish}
    (hws : ∀ v ∈ ws, v.rst = false ∧ v.host ≠ some (Reg.cmd.index, encode .softReset) ∧
      v.host ≠ some (Reg.cmd.index, encode .decStart)) (h : b.Decodes s frame rest) :
    (b.run ws).Decodes s frame rest := by
  induction ws generalizing b with
  | nil => exact h
  | cons w ws ih =>
    obtain ⟨⟨hr, hsoft, hstart⟩, hws⟩ := List.forall_mem_cons.1 hws
    exact ih hws (h.edge (b.drive_calm hr hsoft) (mt b.drive_commands_iff.1 hstart))

theorem Bench.Decodes.decFrame_prefix (h : b.Decodes s frame rest) :
    b.decFrame <+: symFrame (s.decoded (bitPayload frame)).out := by
  obtain ⟨taken, left, sent, rfl, h⟩ | h := h
  · rw [h.out, bitPayload_append]
    exact ((h.dec.sent_prefix _).map _).trans (List.prefix_append ..)
  · rw [h.out]

theorem Bench.Decodes.ended_of_done (h : b.Decodes s frame rest) (hd : b.st.dec.ctl.done = true) :
    b.DecodeEnded s frame rest := by
  obtain ⟨taken, left, sent, rfl, h⟩ | h := h
  · simp [h.dec.not_done] at hd
  · exact h

end

/-- Settles O53: every edge keeps the operation on its way or ended, and DONE tells which. -/
theorem decodeOutputUnderAnySchedule : Obligations.DecodeOutputUnderAnySchedule := by
  rintro b c w ws frame rest _ hw hi hf hq hg hr hh hws rfl rfl
  obtain ⟨-, -, -, -, hgot, hframe⟩ := Bench.edge_decStart hi hr hh
  have hstart := Bench.decoding_edge_decStart hw hi hf hq hr hh
  have h := Bench.Decodes.run hws (.inl ⟨[], frame, [], rfl, hstart⟩)
  have hall : ((b.edge w).run ws).decGot = ((b.edge w).run ws).decFrame :=
    Bench.run_decGot (before := []) (fun v hv => (hws v hv).2.2) (by rw [hgot, hg, hframe]; rfl)
  rw [hall, ← State.decoded_out]
  refine ⟨h.decFrame_prefix, fun hd => ?_⟩
  have hend := h.ended_of_done hd
  exact ⟨hend.out, hend.queue⟩

end Sys2Proof.Machine
end

section
/-! PROOFS. Every edge answers (60_exceptions.md R202), and what becomes of CMD_ERR (R204, R209): a host write is
rejected for the listed causes, judged on the state before the edge. -/

namespace Sys2Proof.Machine

/-! ## Every edge answers -/

theorem step_next (s : State) : ∃ t, step s = .next t := runEvents_next _ _

/-- The coming edge is taken off the front of the list. -/
theorem State.coming_rest (s : State) : s.coming.2 = s.pins.tail := by
  unfold State.coming
  split <;> simp [*]

/-- Settles O24: every event answers a next state, and every kind of edge keeps the build. -/
theorem everyEdgeCompletes : Obligations.EveryEdgeCompletes := by
  intro s
  obtain ⟨t, ht⟩ := step_next s
  obtain ⟨hparams, hpins⟩ := step_frame ((step_eq_setPins s).symm.trans ht)
  exact ⟨t, ht, hparams, hpins.trans s.coming_rest⟩

/-! ## The causes of a rejection -/

/-- The host write of the edge is rejected in `s`, the state before it (60_exceptions.md R204): a reserved
command word, a counter command without a counter, a command of a busy unit, or ROOT with the decoder busy. -/
def State.Rejects (s : State) (p : Pins) : Prop :=
  p.regAddr = Reg.cmd.index ∧ (∀ i, p.regWdata ≠ encode i) ∨
  s.params.hasFc = false ∧ (∃ i ∈ [Instr.histClear, .histRead, .fcStart], p.commands i) ∨
  s.enc.ctl.st ≠ .idle ∧ (∃ i ∈ [Instr.lutClear, .lutWrite, .lutRead, .encStart], p.commands i) ∨
  s.dec.ctl.st ≠ .idle ∧ (∃ i ∈ [Instr.romWrite, .romRead, .decStart], p.commands i) ∨
  s.fc.ctl.st ≠ .idle ∧ (∃ i ∈ [Instr.histClear, .histRead, .fcStart], p.commands i) ∨
  s.dec.ctl.st ≠ .idle ∧ p.regAddr = Reg.root.index

theorem lockUnit_of_mem_enc : ∀ i ∈ [Instr.lutClear, .lutWrite, .lutRead, .encStart],
    lockUnit i = some .enc := by decide

theorem lockUnit_of_mem_dec : ∀ i ∈ [Instr.romWrite, .romRead, .decStart],
    lockUnit i = some .dec := by decide

theorem lockUnit_of_mem_fc : ∀ i ∈ [Instr.histClear, .histRead, .fcStart],
    lockUnit i = some .fc := by decide

theorem hostWrite_of_command {p : Pins} {i : Instr} (hp : p.commands i) (s : State) :
    hostWrite p.regAddr p.regWdata s = exec i s := by
  obtain ⟨-, ha, hd⟩ := hp
  rw [ha, hd, hostWrite_cmd, command_encode]

theorem command_of_no_instr {w : Word} (hw : ∀ i, w ≠ encode i) (s : State) :
    command w s = .next s.reject := by
  obtain ⟨u, hu⟩ := command_next w s
  obtain ⟨i, hi, -⟩ | ⟨-, rfl⟩ := command_cases hu
  · exact absurd hi (hw i)
  · exact hu

section
variable {s t u : State} {p : Pins} {rest : List Pins}

/-- Each cause rejects. -/
theorem State.Rejects.hostWrite (h : s.Rejects p) :
    hostWrite p.regAddr p.regWdata s = .next s.reject := by
  rcases h with ⟨ha, hn⟩ | ⟨hf, i, hi, hp⟩ | ⟨hb, i, hi, hp⟩ | ⟨hb, i, hi, hp⟩ | ⟨hb, i, hi, hp⟩ |
    ⟨hb, ha⟩
  · rw [ha, hostWrite_cmd, command_of_no_instr hn]
  · rw [hostWrite_of_command hp, exec_of_fc_unavailable (lockUnit_of_mem_fc i hi) (.inl hf)]
  · rw [hostWrite_of_command hp, exec_of_enc_busy (lockUnit_of_mem_enc i hi) hb]
  · rw [hostWrite_of_command hp, exec_of_dec_busy (lockUnit_of_mem_dec i hi) hb]
  · rw [hostWrite_of_command hp, exec_of_fc_unavailable (lockUnit_of_mem_fc i hi) (.inr hb)]
  · rw [ha, hostWrite_root_of_busy (s.decLocked_iff.2 hb)]

/-- SOFT_RESET is never rejected: it leaves CMD_ERR 0. -/
theorem State.Rejects.not_softReset (h : s.Rejects p) : ¬ p.commands .softReset := by
  intro hp
  have hreset := hostWrite_of_command hp s
  rw [h.hostWrite, exec_softReset, Host.Outcome.next.injEq] at hreset
  simpa using congrArg State.cmdErr hreset

/-- A rejected host write does to its edge nothing but set CMD_ERR. -/
theorem State.Rejects.step (h : s.Rejects p) (hr : p.rst = false) (hw : p.regWr = true) :
    step (s.setPins (p :: rest)) = .next (State.afterTransfers p s (s.setPins rest)).reject := by
  obtain ⟨t, ht⟩ := step_next (s.setPins (p :: rest))
  obtain ⟨u, hu, rfl⟩ := step_write ⟨hr, h.not_softReset⟩ hw ht
  have hrejects : (s.setPins rest).Rejects p := h
  obtain rfl := Host.Outcome.next.inj (hrejects.hostWrite.symm.trans hu)
  rw [ht, State.afterTransfers_reject]

end

/-- Settles O35: with or without the rejected write the edge runs the same transfers, and they leave the
registers, ROOT, the LUT and the ROM as they are. -/
theorem commandAtTheEndBeatIsRejected : Obligations.CommandAtTheEndBeatIsRejected := by
  intro s p rest hr hw h
  have hrejects : s.Rejects p := h
  exact ⟨State.afterTransfers p s (s.setPins rest),
    step_silent (p := { p with regWr := false }) hr rfl s rest, hrejects.step hr hw,
    State.afterTransfers_lut .., State.afterTransfers_rom .., State.afterTransfers_root ..,
    State.afterTransfers_regs ..⟩

/-! ## CMD_ERR over an edge -/

section
variable {s t u : State} {p : Pins} {rest : List Pins}

theorem HostEffect.cmdErr_rises (hu : HostEffect p s u) (h0 : s.cmdErr = false)
    (h1 : u.cmdErr = true) : p.regWr = true ∧ s.Rejects p := by
  rcases hu.cmdErr with he | ⟨-, he⟩ | ⟨-, hw, hcause⟩
  · simp [he, h0] at h1
  · simp [he] at h1
  · refine ⟨hw, ?_⟩
    simp only [State.encLocked_iff, State.decLocked_iff, State.fcLocked_iff] at hcause
    rcases hcause with hreserved | hroot | henc | hdec | ⟨hf | hb, hi⟩
    · exact .inl hreserved
    · exact .inr (.inr (.inr (.inr (.inr hroot))))
    · exact .inr (.inr (.inl henc))
    · exact .inr (.inr (.inr (.inl hdec)))
    · exact .inr (.inl ⟨hf, hi⟩)
    · exact .inr (.inr (.inr (.inr (.inl ⟨hb, hi⟩))))

theorem HostEffect.cmdErr_falls (hu : HostEffect p s u) (h1 : s.cmdErr = true)
    (h0 : u.cmdErr = false) : p.commands .clrErr := by
  rcases hu.cmdErr with he | ⟨hp, -⟩ | ⟨rfl, -⟩
  · simp [he, h1] at h0
  · exact hp
  · simp at h0

/-- The transfers of an edge do not reach CMD_ERR. -/
theorem step_calm_cmdErr (hc : p.calm) (h : step (s.setPins (p :: rest)) = .next t) :
    ∃ u, HostEffect p (s.setPins rest) u ∧ t.cmdErr = u.cmdErr := by
  obtain ⟨u, hu, rfl⟩ := step_calm hc h
  exact ⟨u, hu, State.afterTransfers_cmdErr ..⟩

/-- Either reset puts every unit and CMD_ERR at their reset values. -/
theorem step_reset_units (hp : p.rst = true ∨ p.commands .softReset)
    (h : step (s.setPins (p :: rest)) = .next t) :
    t.enc = .reset ∧ t.dec = .reset ∧ t.fc = .reset ∧ t.cmdErr = false := by
  rcases edge_kinds p with hr | ⟨hr, hc⟩ | ⟨hr, hc⟩
  · rw [step_rst hr] at h
    obtain rfl := Host.Outcome.next.inj h
    exact ⟨rfl, rfl, rfl, rfl⟩
  · rw [step_softReset hr hc] at h
    obtain rfl := Host.Outcome.next.inj h
    exact ⟨rfl, rfl, rfl, rfl⟩
  · simp [hr, hc] at hp

/-- An edge is one of a reset or a calm one. -/
theorem edge_reset_or_calm (p : Pins) : (p.rst = true ∨ p.commands .softReset) ∨ p.calm := by
  rcases edge_kinds p with hr | ⟨-, hc⟩ | hc
  · exact .inl (.inl hr)
  · exact .inl (.inr hc)
  · exact .inr hc

end

/-- Settles O39: a reset clears CMD_ERR, and at a calm edge only the host write can reach it. -/
theorem cmdErrIsStickyAndOnlyRejectsSetIt : Obligations.CmdErrIsStickyAndOnlyRejectsSetIt := by
  intro s t p rest h
  rcases edge_reset_or_calm p with hp | hc
  · obtain ⟨-, -, -, hzero⟩ := step_reset_units hp h
    exact ⟨fun _ _ => hp.imp_right .inr, fun _ h1 => by simp [hzero] at h1⟩
  · obtain ⟨u, hu, herr⟩ := step_calm_cmdErr hc h
    rw [herr]
    refine ⟨fun h1 h0 => .inr (.inl (hu.cmdErr_falls h1 h0)), fun h0 h1 => ?_⟩
    obtain ⟨hr, -⟩ := hc
    obtain ⟨hw, hrejects⟩ := hu.cmdErr_rises h0 h1
    exact ⟨hr, hw, hrejects⟩

end Sys2Proof.Machine
end

section
/-! PROOFS. The errors of the units over an edge (60_exceptions.md R201, R202, R211): which event raises which
code, and that a code and the values recorded with it stay until the unit's next START. -/

namespace Sys2Proof.Machine

/-! ## Which event raises which error -/

/-- The one error of DEC_START is that of a Leaf at ROOT. -/
theorem State.decStarted_err (s : State) : s.decStarted.ctl.err =
    if (s.readRom s.root).leaf then .singleSymbolInput else .none := by
  unfold State.decStarted
  split <;> rfl

theorem Encoder.give_err (e : Encoder) : e.give.ctl.err = e.ctl.err := by
  rw [Encoder.give_ctl]
  split <;> rfl

theorem Decoder.give_err (d : Decoder) : d.give.ctl.err = d.ctl.err := by
  rw [Decoder.give_ctl]
  split <;> rfl

section
variable {p : Pins} {s t : State} {rest : List Pins} (hc : p.calm)
  (h : step (s.setPins (p :: rest)) = .next t)
include hc h

theorem enc_err_raised (hne : t.enc.ctl.err ≠ s.enc.ctl.err) (herr : t.enc.ctl.err ≠ .none) :
    t.enc.ctl.err = .symbolNotFound ∧ s.enc.ctl.st = .run ∧ s.encInReady = true ∧
      p.encInValid = true ∧ p.encIn.keep = true ∧ (s.readLut p.encIn.sym).len = 0 := by
  rcases step_calm_enc hc h with ⟨-, -, he⟩ | ⟨hv, hr, he⟩ | ⟨-, -, he⟩ | ⟨-, -, he⟩ <;>
    rw [he] at hne herr ⊢
  · exact absurd rfl herr
  · rw [Encoder.take_ctl] at hne ⊢
    split at hne
    · next hx =>
      rw [if_pos hx]
      obtain ⟨hrun, hk, hlen⟩ := hx
      exact ⟨rfl, hrun, hr, hv, hk, hlen⟩
    · exact absurd rfl hne
  · exact absurd (Encoder.give_err _) hne
  · exact absurd rfl hne

theorem dec_err_raised (hne : t.dec.ctl.err ≠ s.dec.ctl.err) (herr : t.dec.ctl.err ≠ .none) :
    (t.dec.ctl.err = .singleSymbolInput ∧ p.commands .decStart ∧ s.dec.ctl.st = .idle ∧
      (s.readRom s.root).leaf = true) ∨
    (t.dec.ctl.err = .malformedStream ∧ s.dec.ctl.st = .run ∧ s.decInReady = true ∧
      p.decInValid = true ∧ p.decIn.last = true) := by
  rcases step_calm_dec hc h with ⟨hi, hp, hd⟩ | ⟨hv, hr, hd⟩ | ⟨-, -, hd⟩ | ⟨-, -, hd⟩ <;>
    rw [hd] at hne herr ⊢
  · rw [State.decStarted_err] at herr ⊢
    cases hleaf : (s.readRom s.root).leaf
    · simp [hleaf] at herr
    · exact .inl ⟨rfl, hp, hi, rfl⟩
  · rw [Decoder.take_ctl] at hne ⊢
    split at hne
    · next hx =>
      rw [if_pos hx]
      obtain ⟨hrun, hlast, -⟩ := hx
      exact .inr ⟨rfl, hrun, hr, hv, hlast⟩
    · exact absurd rfl hne
  · exact absurd (Decoder.give_err _) hne
  · exact absurd rfl hne

theorem fc_err_raised (hne : t.fc.ctl.err ≠ s.fc.ctl.err) (herr : t.fc.ctl.err ≠ .none) :
    t.fc.ctl.err = .countOverflow ∧ s.fc.ctl.st = .run ∧ s.fcInReady = true ∧
      p.fcInValid = true ∧ p.fcIn.keep = true ∧
      (s.readHist p.fcIn.sym).toNat = 2 ^ s.params.cntW - 1 := by
  rcases step_calm_fc hc h with
    ⟨-, -, -, -, hf⟩ | ⟨-, -, -, -, hf⟩ | ⟨hv, hr, hf, -⟩ | ⟨-, hf, -⟩ <;> rw [hf] at hne herr ⊢
  · exact absurd rfl herr
  · exact absurd rfl hne
  · rw [Counter.take_err] at hne ⊢
    split at hne
    · next hx =>
      rw [if_pos hx]
      obtain ⟨hrun, hk, hlimit⟩ := hx
      exact ⟨rfl, hrun, hr, hv, hk, hlimit⟩
    · exact absurd rfl hne
  · exact absurd rfl hne

end

/-- Settles O37: a reset leaves no error, and at a calm edge each unit's own event raises it. -/
theorem onlyTheListedEventsRaiseErrors : Obligations.OnlyTheListedEventsRaiseErrors := by
  intro s t p rest h
  rcases edge_reset_or_calm p with hp | hc
  · obtain ⟨henc, hdec, hfc, -⟩ := step_reset_units hp h
    rw [henc, hdec, hfc]
    exact ⟨fun _ hn => absurd rfl hn, fun _ hn => absurd rfl hn, fun _ hn => absurd rfl hn⟩
  · exact ⟨enc_err_raised hc h, dec_err_raised hc h, fc_err_raised hc h⟩

/-! ## A unit that holds an error -/

/-- A unit that holds an error is not in RUN (10_state.md R47). -/
theorem UnitCtl.coherent.not_run {c : UnitCtl} (h : c.coherent) (herr : c.err ≠ .none) :
    c.st ≠ .run := by
  obtain ⟨-, hrun, -⟩ := h
  exact mt hrun herr

theorem Encoder.give_symCnt (e : Encoder) : e.give.symCnt = e.symCnt := by
  unfold Encoder.give
  split <;> rfl

/-- Outside RUN a beat of the encoder changes neither its error nor what it recorded (43_encoder.md R174). -/
theorem Encoder.take_of_not_run {e : Encoder} (hr : e.ctl.st ≠ .run) (w : LutWord) (b : SymBeat) :
    (e.take w b).ctl = e.ctl ∧ (e.take w b).errSym = e.errSym ∧ (e.take w b).symCnt = e.symCnt := by
  rw [Encoder.take_ctl, Encoder.take_errSym, Encoder.take_symCnt]
  simp [hr]

section
variable {p : Pins} {s t : State} {rest : List Pins} (hc : p.calm)
  (h : step (s.setPins (p :: rest)) = .next t)
include hc h

theorem enc_err_kept (hs : s.enc.coherent) (herr : s.enc.ctl.err ≠ .none)
    (hn : ¬ p.commands .encStart) : t.enc.ctl.err = s.enc.ctl.err ∧
      t.enc.errSym = s.enc.errSym ∧ t.enc.symCnt = s.enc.symCnt := by
  obtain ⟨hctl, -⟩ := hs
  rcases step_calm_enc hc h with ⟨-, hp, -⟩ | ⟨-, -, he⟩ | ⟨-, -, he⟩ | ⟨-, -, he⟩
  · exact absurd hp hn
  · obtain ⟨hctl', hsym, hcnt⟩ := Encoder.take_of_not_run (hctl.not_run herr)
      (s.readLut p.encIn.sym) (s.wireBeat p.encIn)
    rw [he]
    exact ⟨congrArg UnitCtl.err hctl', hsym, hcnt⟩
  · rw [he]
    exact ⟨Encoder.give_err _, Encoder.give_errSym _, Encoder.give_symCnt _⟩
  · rw [he]
    exact ⟨rfl, rfl, rfl⟩

theorem dec_err_kept (hs : s.dec.coherent) (herr : s.dec.ctl.err ≠ .none)
    (hn : ¬ p.commands .decStart) : t.dec.ctl.err = s.dec.ctl.err ∧
      t.dec.cur = s.dec.cur ∧ t.dec.bitCnt = s.dec.bitCnt ∧
      (s.dec.outV = false → t.dec.symCnt = s.dec.symCnt) := by
  obtain ⟨hctl, -⟩ := hs
  rcases step_calm_dec hc h with ⟨-, hp, -⟩ | ⟨-, -, hd⟩ | ⟨-, -, hd⟩ | ⟨-, -, hd⟩
  · exact absurd hp hn
  · rw [hd, Decoder.take_drain _ _ _ _ (hctl.not_run herr)]
    exact ⟨rfl, rfl, rfl, fun _ => rfl⟩
  · obtain ⟨hcur, -, -, hbit⟩ := s.dec.give_walk
    rw [hd]
    exact ⟨Decoder.give_err _, hcur, hbit, fun ho => by rw [Decoder.give_of_end ho]⟩
  · rw [hd]
    exact ⟨rfl, rfl, rfl, fun _ => rfl⟩

/-- A decoder enters MalformedStream in the middle of a code, where no symbol has just come out
(44_decoder.md R189, R192). -/
theorem dec_err_without_symbol (hs : s.dec.coherent) (ho : s.dec.ctl.err ≠ .none → s.dec.outV = false)
    (herr : t.dec.ctl.err ≠ .none) : t.dec.outV = false := by
  rcases step_calm_dec hc h with ⟨-, -, hd⟩ | ⟨-, hr, hd⟩ | ⟨-, -, hd⟩ | ⟨-, -, hd⟩ <;>
    rw [hd] at herr ⊢
  · rfl
  · obtain ⟨-, -, hout⟩ := s.decInReady_iff.1 hr
    by_cases hrun : s.dec.ctl.st = .run
    · obtain ⟨⟨-, hnone, -⟩, -⟩ := hs
      have hmid : (s.dec.take s.readRom s.root p.decIn).mid = true := by
        rw [Decoder.take_ctl] at herr
        split at herr
        · next hx =>
          obtain ⟨-, -, hmid⟩ := hx
          exact hmid
        · exact absurd (hnone hrun) herr
      rw [Decoder.take_mid] at hmid
      rw [Decoder.take_outV, hout]
      split at hmid
      · next hx =>
        rw [if_pos hx]
        simpa using hmid
      · next hx => exact if_neg hx
    · rw [Decoder.take_drain _ _ _ _ hrun]
      exact hout
  · exact Decoder.give_outV _
  · exact ho herr

theorem fc_err_kept (hs : s.fc.coherent) (herr : s.fc.ctl.err ≠ .none)
    (hn : ¬ p.commands .fcStart) : t.fc.ctl.err = s.fc.ctl.err ∧ t.fc.errSym = s.fc.errSym := by
  obtain ⟨hctl, -⟩ := hs
  rcases step_calm_fc hc h with
    ⟨-, -, hp, -⟩ | ⟨-, -, -, -, hf⟩ | ⟨-, -, hf, -⟩ | ⟨-, hf, -⟩
  · exact absurd hp hn
  · rw [hf]
    exact ⟨rfl, rfl⟩
  · rw [hf, Counter.take_err, Counter.take_errSym]
    simp [hctl.not_run herr]
  · rw [hf]
    exact ⟨rfl, rfl⟩

end

/-- Settles O38: a unit that holds an error is not in RUN, and only in RUN does a beat write an error or what is
recorded with it. -/
theorem errorsLastUntilTheNextStart : Obligations.ErrorsLastUntilTheNextStart :=
  fun _ _ _ _ hc h =>
    ⟨enc_err_kept hc h, dec_err_kept hc h, dec_err_without_symbol hc h, fc_err_kept hc h⟩

end Sys2Proof.Machine
end

section
/-! PROOFS. The units do not reach each other (60_exceptions.md R216, 20_memory.md R78): with the host silent a
unit after an edge is a function of the unit, its memory and its pins. -/

namespace Sys2Proof.Machine

@[simp] theorem State.setPins_wireBeat (s : State) (ps : List Pins) (b : SymBeat) :
    (s.setPins ps).wireBeat b = s.wireBeat b := rfl

/-- What the wires carry of a beat depends on the build alone. -/
theorem State.wireBeat_congr {s t : State} (hp : t.params = s.params) (b : SymBeat) :
    t.wireBeat b = s.wireBeat b := by
  rw [State.wireBeat, hp, State.wireBeat]

section
variable {s s' : State} {p p' : Pins} (rest rest' : List Pins) (hp : s.params = s'.params)
include hp

theorem afterTransfers_enc_congr (he : s.enc = s'.enc) (hm : s.lut = s'.lut)
    (hv : p.encInValid = p'.encInValid) (hb : p.encIn = p'.encIn)
    (ho : p.encOutReady = p'.encOutReady) :
    (State.afterTransfers p s (s.setPins rest)).enc =
      (State.afterTransfers p' s' (s'.setPins rest')).enc := by
  obtain ⟨hready, hvalid, -⟩ := State.encPorts_congr he
  have hread : s.readLut = s'.readLut := State.readLut_congr hp hm
  have hwire : s.wireBeat p'.encIn = s'.wireBeat p'.encIn := State.wireBeat_congr hp _
  rw [State.afterTransfers_enc, State.afterTransfers_enc, hv, hb, ho, hready, hvalid]
  simp only [State.setPins_enc, State.setPins_readLut, State.setPins_wireBeat, he, hread, hwire]

theorem afterTransfers_dec_congr (hd : s.dec = s'.dec) (hm : s.rom = s'.rom)
    (hroot : s.root = s'.root) (hv : p.decInValid = p'.decInValid) (hb : p.decIn = p'.decIn)
    (ho : p.decOutReady = p'.decOutReady) :
    (State.afterTransfers p s (s.setPins rest)).dec =
      (State.afterTransfers p' s' (s'.setPins rest')).dec := by
  obtain ⟨hready, hvalid, -⟩ := State.decPorts_congr hd
  have hread : s.readRom = s'.readRom := State.readRom_congr hp hm
  rw [State.afterTransfers_dec, State.afterTransfers_dec, hv, hb, ho, hready, hvalid]
  simp only [State.setPins_dec, State.setPins_root, State.setPins_readRom, hd, hread, hroot]

theorem afterTransfers_fc_congr (hf : s.fc = s'.fc) (hm : s.hist = s'.hist)
    (hv : p.fcInValid = p'.fcInValid) (hb : p.fcIn = p'.fcIn) :
    (State.afterTransfers p s (s.setPins rest)).fc =
        (State.afterTransfers p' s' (s'.setPins rest')).fc ∧
      (State.afterTransfers p s (s.setPins rest)).hist =
        (State.afterTransfers p' s' (s'.setPins rest')).hist := by
  have hready : s.fcInReady = s'.fcInReady := State.fcInReady_congr hp hf
  have hsame : (s'.setPins rest').SameCounter (s.setPins rest) := ⟨hp, hf, hm⟩
  obtain ⟨-, hfc, hhist⟩ := hsame.takeFc p'.fcIn
  rw [State.afterTransfers_fc, State.afterTransfers_fc, State.afterTransfers_hist,
    State.afterTransfers_hist, hv, hb, hready]
  split
  · exact ⟨hfc, hhist⟩
  · exact ⟨hf, hm⟩

end

/-- Settles O41: with the host silent an edge is its transfers, and those of a unit read that unit, its memory
and its pins. -/
theorem unitsAreIndependent : Obligations.UnitsAreIndependent := by
  intro s s' t t' p p' rest rest' hr hr' hw hw' hp h h'
  rw [step_silent hr hw, Host.Outcome.next.injEq] at h
  rw [step_silent hr' hw', Host.Outcome.next.injEq] at h'
  rw [← h, ← h']
  refine ⟨fun he hm hv hb ho => ⟨afterTransfers_enc_congr rest rest' hp he hm hv hb ho, ?_⟩,
    fun hd hm hroot hv hb ho => ⟨afterTransfers_dec_congr rest rest' hp hd hm hroot hv hb ho, ?_, ?_⟩,
    fun hf hm hv hb => afterTransfers_fc_congr rest rest' hp hf hm hv hb⟩
  · rw [State.afterTransfers_lut, State.afterTransfers_lut]
    exact hm
  · rw [State.afterTransfers_rom, State.afterTransfers_rom]
    exact hm
  · rw [State.afterTransfers_root, State.afterTransfers_root]
    exact hroot

end Sys2Proof.Machine
end

section
/-! PROOFS. The result of an operation (60_exceptions.md R207, 41_frequency_counter.md R146): what its end leaves on
the bench, read as an option. -/

namespace Sys2Proof.Machine

/-! ## Results -/

/-- An operation that ran from START to its end without an error has its payload as result. -/
theorem UnitCtl.result_finish_start {R : Type} (x : R) : UnitCtl.start.finish.result x = some x := rfl

/-- An operation that entered an error has no result at its end (60_exceptions.md R207). -/
theorem UnitCtl.result_finish_errorEntry {R : Type} (c : UnitCtl) {e : Err} (he : e ≠ .none) (x : R) :
    (c.errorEntry e).finish.result x = none :=
  UnitCtl.result_of_err he x

theorem bitPayload_bitFrame (ys : List Bool) : bitPayload (bitFrame ys) = ys := by
  simp [bitPayload, bitFrame, List.filter_map, Function.comp_def]

theorem symPayload_symFrame (xs : List Sym) : symPayload (symFrame xs) = xs := by
  simp [symPayload, symFrame, List.filter_map, Function.comp_def]

/-! ## The encoder -/

/-- `encode` of a whole payload is what the operation delivers, or the first symbol without a code. -/
theorem State.encodeSeq_eq (s : State) (xs : List Sym) : encodeSeq s.readLut xs =
    (firstAbsent s.readLut xs).elim (.ok (s.encoded xs)) .error := by
  cases hf : firstAbsent s.readLut xs with
  | none =>
    rw [encodeSeq_of_firstAbsent_eq_none hf, State.encoded, encodable_of_firstAbsent_eq_none hf]
    rfl
  | some z => exact encodeSeq_of_firstAbsent_eq_some hf

theorem Bench.EncodeEnded.encResult {b : Bench} {s : State} {frame rest : List SymBeat}
    (h : b.EncodeEnded s frame rest) :
    b.encResult = (encodeSeq s.readLut (symPayload frame)).toOption := by
  obtain ⟨e, henc, he⟩ := h.enc
  rw [Bench.encResult, State.unitCtl_enc, he, h.out, bitPayload_bitFrame, henc.ctl, s.encodeSeq_eq]
  cases firstAbsent s.readLut (symPayload frame) with
  | none => exact UnitCtl.result_finish_start _
  | some z => exact UnitCtl.result_finish_errorEntry _ (by decide) _

/-! ## The decoder -/

theorem State.ne_none_of_decodeErr {s : State} {ended : Bool} {ys : List Bool} {e : Err}
    (h : s.decodeErr ended ys = some e) : e ≠ .none := by
  rintro rfl
  unfold State.decodeErr at h
  split at h
  · simp at h
  · split at h <;> simp at h

theorem Bench.DecodeEnded.decResult {b : Bench} {s : State} {frame rest : List BitBeat}
    (h : b.DecodeEnded s frame rest) :
    b.decResult = (decodeSeq s.readRom s.root (bitPayload frame)).toOption := by
  obtain ⟨d, heoi, hdec, hd⟩ := h.dec
  rw [Bench.decResult, State.unitCtl_dec, hd, h.out, symPayload_symFrame, hdec.ctl, heoi, s.decodeSeq_eq]
  cases hf : s.decodeErr true (bitPayload frame) with
  | none => exact UnitCtl.result_finish_start _
  | some e => exact UnitCtl.result_finish_errorEntry _ (State.ne_none_of_decodeErr hf) _

/-! ## The counter -/

section
variable {s t u : State} {xs symbols : List Sym}

/-- What counting makes of the counter and HIST does not speak of the rest of the state. -/
theorem State.Counted.of_sameCounter (h : s.Counted t xs) (hu : t.SameCounter u) :
    s.Counted u xs := by
  obtain ⟨hwhole, hupTo⟩ := h
  have hadds : ∀ {ys}, s.AddsCounts t ys → s.AddsCounts u ys := fun ⟨hhist, htotal⟩ =>
    ⟨hu.readHist ▸ hhist, hu.fc ▸ htotal⟩
  rw [← hu.fc] at hwhole hupTo
  exact ⟨fun hn => (hwhole hn).imp id hadds, fun j x ho hfirst hx =>
    (hupTo j x ho hfirst hx).imp id (And.imp id hadds)⟩

/-- Any overflow of a payload makes its operation end with CountOverflow: there is a first one. -/
theorem State.Counted.err_of_overflow (h : s.Counted t xs) {j : Nat}
    (ho : overflowsAt (fun x => (s.readHist x).toNat) s.countLimit xs j) :
    t.fc.ctl.err = .countOverflow := by
  classical
  obtain ⟨x, hx, -⟩ := Nat.find_spec ⟨j, ho⟩
  obtain ⟨herr, -⟩ := h.upTo _ x (Nat.find_spec ⟨j, ho⟩) (fun _ hi => Nat.find_min ⟨j, ho⟩ hi) hx
  exact herr

/-- A histogram that holds the counts of a payload shows its FrequencyMap (41_frequency_counter.md R146). -/
theorem histMap_eq_countMap {h : Sym → Word} (hh : ∀ x ∈ symbols, (h x).toNat = xs.count x) :
    histMap h symbols = countMap symbols xs := by
  refine List.filterMap_congr fun x hx => ?_
  have hzero : h x = 0 ↔ xs.count x = 0 := by
    rw [← hh x hx]
    exact BitVec.toNat_inj.symm
  simp only [hzero, hh x hx]

end

section
variable {s t : State} {xs symbols : List Sym} (h : s.Counted t xs)
  (hzero : ∀ x, s.readHist x = 0)
  (hview : t.fcView = { st := .idle, done := true, err := t.fc.ctl.err })
include h hzero hview

theorem State.Counted.fcResult_of_whole (hs : s.fc.ctl.err = .none)
    (hsymbols : ∀ x ∈ symbols, fitsWidth s.params.symW x)
    (hn : ∀ j, ¬ overflowsAt (fun _ => 0) s.countLimit xs j) :
    t.fcResult symbols = some (countMap symbols xs) := by
  obtain ⟨herr, hhist, -⟩ := h.whole (by simpa [hzero] using hn)
  refine (UnitCtl.result_eq_some_iff ..).2 ⟨?_, histMap_eq_countMap fun x hx => ?_⟩
  · rw [State.unitCtl_fc, hview, herr, hs]
  · rw [hhist x (hsymbols x hx), hzero x]
    exact Nat.zero_add _

theorem State.Counted.fcResult_of_overflow {j : Nat}
    (ho : overflowsAt (fun _ => 0) s.countLimit xs j) : t.fcResult symbols = none := by
  have herr := h.err_of_overflow (by simpa [hzero] using ho)
  refine UnitCtl.result_of_err ?_ _
  rw [State.unitCtl_fc, hview, herr]
  nofun

end

theorem Bench.run_params (b : Bench) (ws : List Wish) : (b.run ws).st.params = b.st.params := by
  induction ws generalizing b with
  | nil => rfl
  | cons w ws ih => exact (ih _).trans (b.edge_params w)

section
variable {b c : Bench} {frame rest : List SymBeat} {k : Nat} (hp : b.st.params.hasFc = true)
  (hi : b.st.fc.ctl.st = .idle) (hf : isFrame SymBeat.last frame = true) (hq : b.fcQ = frame ++ rest)
  (hk : frame.length ≤ k) (hc : c = (b.edge (.write Reg.cmd.index (encode .fcStart))).settle k)
include hp hi hf hq hk hc

/-- FC_START and enough eager edges feed an idle counter the frame in its queue. -/
theorem Bench.takeFcs_of_fcStart :
    (frame.foldl State.takeFc (b.st.setFc { b.st.fc with ctl := .start, errSym := 0 })).SameCounter
      c.st := by
  obtain ⟨hq1, hs1⟩ := Bench.edge_fcStart hp hi
  have hready : (b.edge (.write Reg.cmd.index (encode .fcStart))).st.fcInReady = true :=
    (State.fcInReady_congr hs1.params hs1.fc).trans ((State.fcInReady_iff _).2 ⟨nofun, hp⟩)
  obtain ⟨-, hs2⟩ := Bench.settle_frame hready hf (hq1.trans hq) hk
  exact hc ▸ (hs1.takeFcs frame).trans hs2

/-- The operation has ended, and STATUS shows its end: there is a counter. -/
theorem Bench.fcView_of_fcStart :
    c.st.fcView = { st := .idle, done := true, err := c.st.fc.ctl.err } := by
  have hs := Bench.takeFcs_of_fcStart hp hi hf hq hk hc
  obtain ⟨hidle, hdone⟩ := State.takeFcs_frame_ends hf
  have hparams : c.st.params = b.st.params := hc ▸ (Bench.run_params _ _).trans (b.edge_params _)
  rw [State.fcView_of_counter (hparams ▸ hp), ← hidle, ← hdone, ← hs.fc]

theorem Bench.counted_of_fcStart (hw : b.st.params.cntW ≤ 32)
    (hh : ∀ a, fitsWidth b.st.params.cntW (b.st.readHist a))
    (hx : ∀ x ∈ symPayload frame, fitsWidth b.st.params.symW x) :
    (b.st.setFc { b.st.fc with ctl := .start, errSym := 0 }).Counted c.st (symPayload frame) :=
  have hstart : (b.st.setFc { b.st.fc with ctl := .start, errSym := 0 }).fc.ctl.st = .run := rfl
  (State.counted_frame hstart hw hh hf hx).of_sameCounter (Bench.takeFcs_of_fcStart hp hi hf hq hk hc)

end

/-- Settles O54: the encoder's and the decoder's operations end as `encode` and `decode` of their payload say, and
a counting operation over a cleared histogram counts all of its payload or meets an overflow. -/
theorem resultsAreThoseOfTheSource : Obligations.ResultsAreThoseOfTheSource := by
  refine ⟨?_, ?_, ?_⟩
  · rintro b c frame rest k hw hi hf hq hk rfl
    exact (Bench.encodeEnded_of_encStart hw hi hf hq hk).encResult
  · rintro b c frame rest k hw hi hf hq hk rfl
    exact (Bench.decodeEnded_of_decStart hw hi hf hq ((b.st.decodeWork_le frame).trans hk)).decResult
  · intro b c frame rest k symbols hp hi hf hq hx hlegal hzero hsymbols hk hc
    obtain ⟨-, -, -, -, hw⟩ := (Params.legal_iff _).1 hlegal
    have hview := Bench.fcView_of_fcStart hp hi hf hq hk hc
    have hcounted := Bench.counted_of_fcStart hp hi hf hq hk hc hw
      (fun a => hzero a ▸ fitsWidth_zero _) hx
    exact ⟨hcounted.fcResult_of_whole hzero hview rfl hsymbols,
      fun _ => hcounted.fcResult_of_overflow hzero hview⟩

end Sys2Proof.Machine
end

section
/-! PROOFS. The edge with `rst` = 1 (70_reset_and_hazards.md R230, 10_state.md R46): what the registers and the
memories read after it, and the outputs before it. -/

namespace Sys2Proof.Machine

section
variable (s : State) (rest : List Pins)

/-- The two resets differ in the memories, the reset count and the pins only; STATUS shows none of them. -/
theorem State.status_hardReset : (s.hardReset.setPins rest).status = 0 := s.status_softReset

/-- Nor does any other register show a memory, the reset count or the pins. -/
theorem State.readReg_hardReset (r : Reg) :
    (s.hardReset.setPins rest).readReg r = s.softReset.readReg r := rfl

/-- A reset keeps the build, which is all that PARAMS shows. -/
theorem State.readReg_params_hardReset :
    (s.hardReset.setPins rest).readReg .params = s.readReg .params := rfl

/-! ## The memories: each word is the free value of the new reset (93_implementation_defined.md U1) -/

theorem State.readLut_hardReset (a : Sym) : (s.hardReset.setPins rest).readLut a =
    fitLutWord s.params (Config.lutAfterRst (s.resets + 1) (s.symIndex a)) :=
  Memory.read_unspecified _ _ _

theorem State.readRom_hardReset (h : Handle) : (s.hardReset.setPins rest).readRom h =
    fitRomWord s.params (Config.romAfterRst (s.resets + 1) (s.nodeIndex h)) :=
  Memory.read_unspecified _ _ _

theorem State.readHist_hardReset (a : Sym) : (s.hardReset.setPins rest).readHist a =
    trunc s.params.cntW (Config.histAfterRst (s.resets + 1) (s.symIndex a)) :=
  Memory.read_unspecified _ _ _

end

/-- `rst` masks the handshake wires of every port. -/
theorem outputs_handshake_of_rst {p : Pins} (hr : p.rst = true) (s : State) :
    (outputs p s).fcInReady = false ∧ (outputs p s).encInReady = false ∧
    (outputs p s).encOutValid = false ∧ (outputs p s).decInReady = false ∧
    (outputs p s).decOutValid = false := by
  simp [outputs, hr]

/-- Settles O25: reset is the only event of its edge and leaves `hardReset`, whose registers read as after
SOFT_RESET and whose memory words are the free values of this reset (the model's form of UNSPECIFIED, log
entry 4). -/
theorem resetWinsAtItsEdge : Obligations.ResetWinsAtItsEdge := fun s _ rest hr =>
  ⟨⟨s.hardReset.setPins rest, step_rst hr s rest, s.hardReset_enc, s.hardReset_dec, s.hardReset_fc,
    s.hardReset_regs, s.hardReset_root, s.hardReset_cmdErr, s.status_hardReset rest,
    fun r hn => (s.readReg_hardReset rest r).trans (s.readReg_softReset hn),
    s.readReg_params_hardReset rest, s.readLut_hardReset rest, s.readRom_hardReset rest,
    s.readHist_hardReset rest⟩, rfl, outputs_handshake_of_rst hr s⟩

end Sys2Proof.Machine
end
